-- ==== Sys2Proof/Word.lean ====
section
/-! DEFINITION. The two word types of the block: a 32-bit register or bus word, and one byte of memory or LUT RAM. -/

namespace Sys2Proof

/-- A register, or the data of one register-port access (10_state.md R23). -/
abbrev Word := BitVec 32

/-- One byte of memory or of the LUT RAM (00_scope.md R14, R15). -/
abbrev Byte := BitVec 8

end Sys2Proof
end

