-- ==== Sys2Proof/Config.lean ====
section
/-! DEFINITION. What one build of the block fixes, the fixed numbers of 00_scope.md R10, and the values the spec leaves free. -/

namespace Sys2Proof

/-- The build parameters (00_scope.md R7, R8). They never change in a running block; a state carries them so that one
model covers every legal build (log 1). -/
structure Build where
  /-- `IN_RANGE`: entries of each channel's table. -/
  inRange : Nat
  /-- `ADDR_W`: bits of a memory address. -/
  addrW : Nat
  deriving DecidableEq, Repr

/-- The legal ranges of R7 and R8. -/
abbrev Build.wf (b : Build) : Prop :=
  1 ≤ b.inRange ∧ b.inRange ≤ 65536 ∧ 16 ≤ b.addrW ∧ b.addrW ≤ 32

/-- The default build (R7, R8). -/
def Build.default : Build := { inRange := 1024, addrW := 32 }

/-- Bytes of the memory address space (R8, 20_memory.md R54). -/
def Build.memBytes (b : Build) : Nat := 2 ^ b.addrW

namespace Config

/-- ID reads this constant (10_state.md R22). -/
def idValue : Word := 0x56430001#32

/-- R10: bits of a packed sample. -/
def bitWidth : Nat := 10
/-- R10: samples of a packed group. -/
def groupSamples : Nat := 4
/-- R10: bytes of a packed group. -/
def groupBytes : Nat := 5
/-- R10: alignment of a packed row, in bytes. -/
def rowAlign : Nat := 32
/-- R10: the zebra cursor's advance, in samples. -/
def zebraStep : Nat := 9
/-- R10: the zebra cursor's extra skip, in samples. -/
def zebraSkip : Nat := 3
/-- R10: channels of a colour image. -/
def channels : Nat := 3

/-- The `n`-th fresh draw: a byte the spec leaves unspecified (10_state.md R46, 70_reset_and_hazards.md R148). It has
no body, so no proof can know its value (log 3). -/
opaque freeByte : Nat → Byte

/-- `REG_BASE`, the platform address of the register window, left OPEN by 00_scope.md R9 (log 21). -/
opaque regBase : Nat

end Config

end Sys2Proof
end

