-- ==== Sys2Proof/Syntax.lean ====
section
/-! DEFINITION. The block's commands, the raw command word, and the host-program notation of 30_encoding.md. -/

namespace Sys2Proof

/-- The five commands (30_encoding.md R79), one constructor per row of opcode_table.json. A command word has no
operand field (R78), so no constructor has an argument. -/
inductive Instr where
  | unpack
  | preview
  | previewz
  | lutapply
  | zebra
  deriving DecidableEq, Repr

/-- The fields of the 32-bit command word written to CTRL (30_encoding.md R77). -/
structure CommandWord where
  /-- CMD, bits [3:0]. -/
  cmd : BitVec 4
  /-- ZEB, bit [4]. -/
  zeb : BitVec 1
  /-- RSVD, bits [30:5]. -/
  rsvd : BitVec 26
  /-- START, bit [31]. -/
  start : BitVec 1
  deriving DecidableEq, Repr

/-- The sixteen registers of the window, in offset order (10_state.md R23). -/
inductive Reg where
  | id | ctrl | status | irqEn | width | height | stride | srcAddr
  | srcLen | dstAddr | dstLen | lutCfg | lutIdx | lutData | param | reserved
  deriving DecidableEq, Repr

/-- The width of a register-port access. Only `word` is legal (10_state.md R29). -/
inductive AccessWidth where
  | byte | half | word
  deriving DecidableEq, Repr

/-- A register-port access: its width and its byte offset in the 64-byte window. -/
structure RegAccess where
  width  : AccessWidth
  offset : BitVec 6
  deriving DecidableEq, Repr

/-- A field `[hi:lo]` of a register, as POLL names it (30_encoding.md R83). -/
structure Field where
  hi : Nat
  lo : Nat
  deriving DecidableEq, Repr

/-- The host-program statements of 30_encoding.md R83. WR and RD may also be the accesses R29 refuses, so that the
refusal can be said. -/
inductive HostStmt where
  /-- `WR <REG>, <value>`. -/
  | wr (at_ : RegAccess) (value : Word)
  /-- `RD <REG>`. -/
  | rd (at_ : RegAccess)
  /-- `POLL <REG>.<FIELD> == <v>`. -/
  | poll (at_ : RegAccess) (field : Field) (value : Nat)
  /-- `MEMW <addr>, <byte>, …`: bytes at consecutive addresses. -/
  | memw (addr : Nat) (bytes : List Byte)
  /-- `MEMR <addr>, <n>`. -/
  | memr (addr : Nat) (n : Nat)
  deriving DecidableEq, Repr

end Sys2Proof
end

