-- ==== Sys2Proof/WellFormed.lean ====
section
/-! DEFINITION. Which command words are legal launching words, and which host statements the block and the memory accept. -/

namespace Sys2Proof

/-- A launching word has START = 1 (30_encoding.md R77). -/
def CommandWord.launches (c : CommandWord) : Bool := c.start == 1#1

/-- RSVD must be zero (R77, R82). -/
def CommandWord.reservedClear (c : CommandWord) : Bool := c.rsvd == 0#26

/-- CMD names a command: 1 to 4 (R79, R82). -/
def CommandWord.cmdKnown (c : CommandWord) : Bool := 1 ≤ c.cmd.toNat && c.cmd.toNat ≤ 4

/-- ZEB = 1 is legal only with CMD = 2 (R77, R82). -/
def CommandWord.zebAllowed (c : CommandWord) : Bool := c.zeb == 0#1 || c.cmd == 2#4

/-- The legal launching words of R79: all four checks. -/
def CommandWord.wellFormed (c : CommandWord) : Bool :=
  c.launches && c.reservedClear && c.cmdKnown && c.zebAllowed

/-- A command has no operand (R78), so every constructor is well formed; the checks above are those of its word. -/
def Instr.wellFormed : Instr → Bool
  | .unpack => true
  | .preview => true
  | .previewz => true
  | .lutapply => true
  | .zebra => true

/-- The accesses the register port takes: aligned and 32 bits wide (10_state.md R29). -/
def RegAccess.wellFormed (a : RegAccess) : Bool :=
  a.width == .word && a.offset.toNat % 4 == 0

/-- A field `[hi:lo]` of a 32-bit register (00_scope.md R13). -/
def Field.wellFormed (f : Field) : Bool := f.lo ≤ f.hi && f.hi < 32

/-- The statements that neither R29 nor the size of the memory (20_memory.md R54) refuses. -/
def HostStmt.wellFormed (b : Build) : HostStmt → Bool
  | .wr a _ => a.wellFormed
  | .rd a => a.wellFormed
  | .poll a f _ => a.wellFormed && f.wellFormed
  | .memw addr bytes => addr + bytes.length ≤ b.memBytes
  | .memr addr n => addr + n ≤ b.memBytes

end Sys2Proof
end

