-- ==== Sys2Proof/Decode.lean ====
section
/-! DEFINITION. The command decoder of 30_encoding.md R80, the encoder written from the table of R79, and the register map
of 10_state.md R23. -/

namespace Sys2Proof

/-- Why a 32-bit word is no command (30_encoding.md R80–R82). -/
inductive Reject where
  /-- START = 0: not a launching word (R81). -/
  | notLaunching
  /-- RSVD is not zero. -/
  | reservedBits
  /-- CMD is 0 or 5 to 15. -/
  | reservedCommand
  /-- ZEB = 1 with a command other than 2. -/
  | zebWithoutPreview
  deriving DecidableEq, Repr

/-- The fields of a word (R77). -/
def CommandWord.ofWord (w : Word) : CommandWord where
  cmd := w.extractLsb' 0 4
  zeb := w.extractLsb' 4 1
  rsvd := w.extractLsb' 5 26
  start := w.extractLsb' 31 1

/-- The word of the fields (R77). -/
def CommandWord.toWord (c : CommandWord) : Word := c.start ++ c.rsvd ++ c.zeb ++ c.cmd

/-- The case split of R80. START comes first because a word without it is not decoded at all (R81; log 16). -/
def CommandWord.command (c : CommandWord) : Except Reject Instr :=
  if c.start = 0#1 then .error .notLaunching
  else if c.rsvd ≠ 0#26 then .error .reservedBits
  else
    match c.cmd.toNat, c.zeb.toNat with
    | 1, 0 => .ok .unpack
    | 2, 0 => .ok .preview
    | 2, 1 => .ok .previewz
    | 3, 0 => .ok .lutapply
    | 4, 0 => .ok .zebra
    | 1, _ => .error .zebWithoutPreview
    | 3, _ => .error .zebWithoutPreview
    | 4, _ => .error .zebWithoutPreview
    | _, _ => .error .reservedCommand

/-- `decode` of R80: total on the 32-bit words, and every word that is no command is rejected by name (R81). -/
def decode (w : Word) : Except Reject Instr := (CommandWord.ofWord w).command

/-- The host's reading of one table row: the row's bits as one number. A command word is one 32-bit bus word (R77;
log 17), so anything that does not fit 32 bits is refused. -/
def decodeTableWord (nbits w : Nat) : Option Instr :=
  if nbits ≤ 32 ∧ w < 2 ^ 32 then
    match decode (BitVec.ofNat 32 w) with
    | .ok i => some i
    | .error _ => none
  else none

/-- The CMD and ZEB values of the table of R79. -/
def Instr.commandWord : Instr → CommandWord
  | .unpack => { cmd := 0x1, zeb := 0, rsvd := 0, start := 1 }
  | .preview => { cmd := 0x2, zeb := 0, rsvd := 0, start := 1 }
  | .previewz => { cmd := 0x2, zeb := 1, rsvd := 0, start := 1 }
  | .lutapply => { cmd := 0x3, zeb := 0, rsvd := 0, start := 1 }
  | .zebra => { cmd := 0x4, zeb := 0, rsvd := 0, start := 1 }

/-- The launching word of a command (R79). -/
def encode (i : Instr) : Word := i.commandWord.toWord

/-- The register at a word index of the window, index = offset / 4 (10_state.md R23). -/
def regOfIndex : Nat → Reg
  | 0 => .id
  | 1 => .ctrl
  | 2 => .status
  | 3 => .irqEn
  | 4 => .width
  | 5 => .height
  | 6 => .stride
  | 7 => .srcAddr
  | 8 => .srcLen
  | 9 => .dstAddr
  | 10 => .dstLen
  | 11 => .lutCfg
  | 12 => .lutIdx
  | 13 => .lutData
  | 14 => .param
  | _ => .reserved

/-- The offset column of the register map (R23). -/
def regOffset : Reg → BitVec 6
  | .id => 0x00
  | .ctrl => 0x04
  | .status => 0x08
  | .irqEn => 0x0C
  | .width => 0x10
  | .height => 0x14
  | .stride => 0x18
  | .srcAddr => 0x1C
  | .srcLen => 0x20
  | .dstAddr => 0x24
  | .dstLen => 0x28
  | .lutCfg => 0x2C
  | .lutIdx => 0x30
  | .lutData => 0x34
  | .param => 0x38
  | .reserved => 0x3C

/-- The platform address of a register: `REG_BASE` plus its offset (00_scope.md R9, 10_state.md R23). -/
def regAddress (r : Reg) : Nat := Config.regBase + (regOffset r).toNat

/-- The legal access to a register: its whole 32-bit word (R29, R63). -/
def regAccess (r : Reg) : RegAccess := { width := .word, offset := regOffset r }

/-- The register an access reaches, or none where the port answers with a bus error (R29). -/
def decodeAccess (a : RegAccess) : Option Reg :=
  if a.wellFormed then some (regOfIndex (a.offset.toNat / 4)) else none

end Sys2Proof
end

