-- ==== Sys2Proof/Machine/State.lean ====
section
/-! DEFINITION. The state of the block, of its memory and of the host that drives it, as plain data; the reasons a step can
stop; the state after reset. -/

namespace Sys2Proof.Machine

/-- The engine (10_state.md R50, R51): IDLE, or BUSY with the launching word. `engine.cmd` has no value while IDLE
(R53, I19), so there is none to hold (log 18). -/
inductive Engine where
  | idle
  | busy (cmd : Word)
  deriving DecidableEq, Repr

/-- The error a command can end with (60_exceptions.md R130). -/
inductive CmdError where
  | sizeMismatch
  | invalidDimensions
  | illegalCommand
  | lutNotReady
  | dstTooSmall
  | addressRange
  | bufferOverlap
  deriving DecidableEq, Repr

/-- The bytes `base … base + len - 1` of the memory (20_memory.md R60). -/
structure Region where
  base : Nat
  len  : Nat
  deriving DecidableEq, Repr

/-- Which agent makes the next step (00_scope.md R19, 70_reset_and_hazards.md R153; log 4). -/
inductive Turn where
  /-- The engine completes its command, if it has one. -/
  | engine
  /-- The host makes its next access, if it has one. -/
  | host
  /-- `rst` is asserted (R147). -/
  | reset
  /-- `rst` is asserted while the host makes a register access (R147; log 19). -/
  | resetDuringAccess
  deriving DecidableEq, Repr

/-- What one read showed the host (30_encoding.md R83). -/
inductive Observation where
  | reg (r : Reg) (value : Word)
  | mem (addr : Nat) (bytes : List Byte)
  deriving DecidableEq, Repr

/-- Why the machine stops. None of these is a behaviour of the block: 60_exceptions.md R140 says a model uses them where
the block's behaviour is unspecified. -/
inductive Fault where
  /-- Raised by LUTAPPLY: it read an entry not written since reset (44_lut_apply.md R113). Safe (log 9). -/
  | unwrittenLut
  /-- Raised by a host memory statement: it touched an active command's regions (20_memory.md R68). Safe (log 7). -/
  | hostRace
  /-- Raised by a register access that is not aligned and 32 bits wide (10_state.md R29). Safe (log 11). -/
  | regAccessFault
  /-- Raised by a command: the platform answered a memory-port access with an error (20_memory.md R65). Safe, but for
  the choice that no address does so at reset (log 12). -/
  | memPortFault
  /-- Raised by a host memory statement: the memory has no such address (20_memory.md R54). Safe (log 13). -/
  | noSuchAddress
  deriving DecidableEq, Repr

/-- Why an instruction has no meaning here. -/
inductive Refusal where
  /-- Raised by an arm of exec whose instruction is not modelled. Safe. No arm raises it. -/
  | notModelled (mnemonic : String)
  deriving DecidableEq, Repr

/-- Everything the spec gives the machine (INVENTORY.md lists each field with its rule and its reset value). -/
structure State where
  /-- The build parameters (R7, R8). No step changes them. -/
  build : Build
  /-- CTRL read-back (R24). -/
  ctrl : Word
  /-- STATUS.DONE (R26). -/
  done : Bool
  /-- STATUS.ERR (R26). -/
  err : Bool
  /-- STATUS.IGN (R26). -/
  ign : Bool
  /-- STATUS.ERRCODE (R26). -/
  errCode : BitVec 4
  /-- IRQ_EN.IE (R31). -/
  irqEn : Bool
  /-- WIDTH.W (R32). -/
  width : BitVec 16
  /-- HEIGHT.H (R33). -/
  height : BitVec 16
  /-- SRC_ADDR (R35). -/
  srcAddr : Word
  /-- SRC_LEN (R36). -/
  srcLen : Word
  /-- DST_ADDR (R37). -/
  dstAddr : Word
  /-- DST_LEN (R38). -/
  dstLen : Word
  /-- LUT_CFG.READY (R39). -/
  lutReady : Bool
  /-- LUT_IDX.IDX (R40). -/
  lutIdx : BitVec 16
  /-- LUT_IDX.CH (R40). -/
  lutCh : BitVec 2
  /-- The LUT RAM entries written since reset, keyed by `ch * IN_RANGE + idx`; an entry is listed exactly when
  `lutWritten` holds of it (R45, R46, R52; log 10). -/
  lut : List Host.Cell
  /-- engine.phase and engine.cmd (R50, R51). -/
  engine : Engine
  /-- The memory both agents reach (R54, R55), as the bytes that differ from `Memory.unlisted`. -/
  mem : List Host.Cell
  /-- Where the platform answers a memory-port access with an error (R65; log 12). -/
  portErrors : List Region
  /-- Who moves next (log 4). -/
  turns : List Turn
  /-- The host's statements still to run (R83; log 5). -/
  program : List HostStmt
  /-- What the host has read, newest first (R83; log 25). -/
  observed : List Observation
  /-- How many fresh draws have been taken (R46, R148; log 3). -/
  draws : Nat
  deriving DecidableEq, Repr

/-- The state right after reset (10_state.md R53), of the default build, with nothing in memory and no host program. The
last six fields are not the block's; their values are the model's (log 2, 3, 4, 5, 12, 25). -/
def State.reset : State where
  build := Build.default
  ctrl := 0
  done := false
  err := false
  ign := false
  errCode := 0
  irqEn := false
  width := 0
  height := 0
  srcAddr := 0
  srcLen := 0
  dstAddr := 0
  dstLen := 0
  lutReady := false
  lutIdx := 0
  lutCh := 0
  lut := []
  engine := .idle
  mem := []
  portErrors := []
  turns := []
  program := []
  observed := []
  draws := 0

end Sys2Proof.Machine
end

