-- ==== Sys2Proof/Machine/Flags.lean ====
section
/-! DEFINITION. The STATUS flags: error codes, the read value, write-one-to-clear, and the interrupt line. -/

namespace Sys2Proof.Machine

/-- STATUS.ERRCODE of each error (60_exceptions.md R130). -/
def errorCode : CmdError → BitVec 4
  | .sizeMismatch => 1
  | .invalidDimensions => 2
  | .illegalCommand => 3
  | .lutNotReady => 4
  | .dstTooSmall => 5
  | .addressRange => 6
  | .bufferOverlap => 7

/-- STATUS.BUSY: engine.phase = BUSY (10_state.md R26, R50). -/
def isBusy (s : State) : Bool :=
  match s.engine with
  | .idle => false
  | .busy _ => true

/-- The value a read of STATUS returns (R26): ERRCODE [11:8], IGN [3], ERR [2], DONE [1], BUSY [0], zero elsewhere. -/
def statusWord (s : State) : Word :=
  0#20 ++ s.errCode ++ 0#4 ++ BitVec.ofBool s.ign ++ BitVec.ofBool s.err ++ BitVec.ofBool s.done
    ++ BitVec.ofBool (isBusy s)

/-- STATUS.IGN <- 1: a register write was ignored (R30, R40). -/
def setIgnored (s : State) : State := { s with ign := true }

/-- A write of `v` to STATUS (R27): each W1C field whose bit of `v` is 1 is cleared, and ERRCODE with ERR. This is also
how the host acknowledges a completion, the block's nearest thing to a return from an exception (R137). -/
def writeStatus (v : Word) (s : State) : State :=
  { s with
    done := s.done && !v.getLsbD 1
    err := s.err && !v.getLsbD 2
    errCode := if v.getLsbD 2 then 0 else s.errCode
    ign := s.ign && !v.getLsbD 3 }

/-- The level output `irq` (60_exceptions.md R138). -/
def irq (s : State) : Bool := s.irqEn && s.done

end Sys2Proof.Machine
end

