-- ==== Sys2Proof/Machine/Operands.lean ====
section
/-! DEFINITION. Every operand of a command (30_encoding.md R78), the sizes and regions computed from them
(20_memory.md R60), and the checks a command makes before it runs (60_exceptions.md R132). All arithmetic is over Nat, so it
is exact (R12, R66). -/

namespace Sys2Proof.Machine

/-- `alignDown` (40_alignment.md R85), in the remainder form the rule gives (log 24). -/
def alignDown (size align : Nat) : Nat := size - size % align

/-- `alignUp` (R86). -/
def alignUp (size align : Nat) : Nat := alignDown (size + align - 1) align

/-- The row stride of a packed frame of width `w`, in bytes (R87). -/
def stride (w : Nat) : Nat := alignUp (w / 8 * Config.bitWidth) Config.rowAlign

/-- W: the frame width in pixels. -/
def frameW (s : State) : Nat := s.width.toNat
/-- H: the frame height in rows. -/
def frameH (s : State) : Nat := s.height.toNat
/-- S: the stride of the frame. -/
def frameS (s : State) : Nat := stride (frameW s)
/-- Wq: pixels of a preview row (42_preview.md). -/
def previewW (s : State) : Nat := frameW s / 4
/-- Hq: rows of a preview (42_preview.md). -/
def previewH (s : State) : Nat := frameH s / 4
/-- The source base address. -/
def srcBase (s : State) : Nat := s.srcAddr.toNat
/-- The destination base address. -/
def dstBase (s : State) : Nat := s.dstAddr.toNat

/-- The address lies in the region. -/
def Region.contains (r : Region) (a : Nat) : Bool := r.base ≤ a && a < r.base + r.len

/-- The bytes a command needs from its source, none for ZEBRA (20_memory.md R60). -/
def needSrc (i : Instr) (s : State) : Option Nat :=
  match i with
  | .unpack => some (frameS s * frameH s)
  | .preview => some (frameS s * frameH s)
  | .previewz => some (frameS s * frameH s)
  | .lutapply => some (6 * frameW s * frameH s)
  | .zebra => none

/-- The bytes a command needs for its destination (R60). -/
def needDst (i : Instr) (s : State) : Nat :=
  match i with
  | .unpack => 2 * frameW s * frameH s
  | .preview => 3 * previewW s * previewH s
  | .previewz => 3 * previewW s * previewH s
  | .lutapply => 3 * frameW s * frameH s
  | .zebra => 3 * frameW s * frameH s

/-- The source region of a command (R60). -/
def srcRegion (i : Instr) (s : State) : Option Region :=
  match needSrc i s with
  | none => none
  | some n => some { base := srcBase s, len := n }

/-- The destination region of a command (R60). -/
def dstRegion (i : Instr) (s : State) : Region := { base := dstBase s, len := needDst i s }

/-- The commands that read a packed frame and need W mod 8 = 0 (R132). -/
def readsPacked : Instr → Bool
  | .unpack => true
  | .preview => true
  | .previewz => true
  | .lutapply => false
  | .zebra => false

/-- The commands that write a preview and need H mod 4 = 0 (R132). -/
def writesPreview : Instr → Bool
  | .unpack => false
  | .preview => true
  | .previewz => true
  | .lutapply => false
  | .zebra => false

/-- `SRC_LEN < needSrc`; never for ZEBRA. -/
def sourceTooShort (i : Instr) (s : State) : Bool :=
  match needSrc i s with
  | none => false
  | some n => s.srcLen.toNat < n

/-- The region ends above 2^ADDR_W (20_memory.md R67). -/
def Region.outOfRange (b : Build) (r : Region) : Bool := b.memBytes < r.base + r.len

/-- The source region ends above 2^ADDR_W; never for ZEBRA. -/
def sourceOutOfRange (i : Instr) (s : State) : Bool :=
  match srcRegion i s with
  | none => false
  | some r => r.outOfRange s.build

/-- The two regions share a byte. -/
def Region.overlaps (a b : Region) : Bool := a.base < b.base + b.len && b.base < a.base + a.len

/-- The source and the destination region share a byte; never for ZEBRA. -/
def buffersOverlap (i : Instr) (s : State) : Bool :=
  match srcRegion i s with
  | none => false
  | some r => r.overlaps (dstRegion i s)

/-- `checkCommand` of R132 for a decoded command: the first error in the rule's order, or none. The rule's first test,
an Illegal word, is made by the engine's turn, which has no command to check then (R133). -/
def checkCommand (i : Instr) (s : State) : Option CmdError :=
  if frameW s = 0 ∨ frameH s = 0 then some .invalidDimensions
  else if readsPacked i ∧ frameW s % 8 ≠ 0 then some .invalidDimensions
  else if writesPreview i ∧ frameH s % 4 ≠ 0 then some .invalidDimensions
  else if i = .lutapply ∧ s.lutReady = false then some .lutNotReady
  else if sourceTooShort i s then some .sizeMismatch
  else if s.dstLen.toNat < needDst i s then some .dstTooSmall
  else if sourceOutOfRange i s then some .addressRange
  else if (dstRegion i s).outOfRange s.build then some .addressRange
  else if buffersOverlap i s then some .bufferOverlap
  else none

end Sys2Proof.Machine
end

