-- ==== Sys2Proof/Machine/Ops.lean ====
section
/-! DEFINITION. The shared operations: cell lists, memory, the memory port, loops, the LUT RAM, fresh draws, the launch of a
command, and its two ways to end. -/

namespace Sys2Proof.Machine

/-! ### Lists of cells -/

/-- The byte listed at a key. -/
def Cells.get? : List Host.Cell → Nat → Option Byte
  | [], _ => none
  | (a, v) :: rest, k => if a = k then some v else Cells.get? rest k

/-- List a byte at a key, keeping the keys in order. -/
def Cells.put : List Host.Cell → Nat → Byte → List Host.Cell
  | [], k, v => [(k, v)]
  | (a, w) :: rest, k, v =>
    if k < a then (k, v) :: (a, w) :: rest
    else if k = a then (k, v) :: rest
    else (a, w) :: Cells.put rest k v

/-- Drop the entry at a key. -/
def Cells.erase (cells : List Host.Cell) (k : Nat) : List Host.Cell := cells.filter (fun c => c.1 ≠ k)

/-- The keys rise strictly. -/
abbrev Cells.sorted (cells : List Host.Cell) : Prop := cells.Pairwise (fun c d => c.1 < d.1)

/-! ### Memory (00_scope.md R15, 20_memory.md R54, R55, R57, R64) -/

/-- What an address that lists no byte reads as. The spec gives no power-on contents; DESIGN CHOICE, unsafe (log 2). -/
def Memory.unlisted : Byte := 0

/-- `Mem8(a)`. -/
def Memory.read (m : List Host.Cell) (a : Nat) : Byte := (Cells.get? m a).getD Memory.unlisted

/-- Store one byte, keeping the canonical form. -/
def Memory.write (m : List Host.Cell) (a : Nat) (v : Byte) : List Host.Cell :=
  if v = Memory.unlisted then Cells.erase m a else Cells.put m a v

/-- The canonical form: keys rise strictly and no entry equals what an unlisted address reads as. -/
abbrev Memory.wf (m : List Host.Cell) : Prop := Cells.sorted m ∧ ∀ c ∈ m, c.2 ≠ Memory.unlisted

/-- Bytes at consecutive addresses, lowest first. -/
def Memory.readBytes (m : List Host.Cell) (a : Nat) : Nat → List Byte
  | 0 => []
  | n + 1 => Memory.read m a :: Memory.readBytes m (a + 1) n

/-- Store bytes at consecutive addresses, lowest first. -/
def Memory.writeBytes (m : List Host.Cell) (a : Nat) : List Byte → List Host.Cell
  | [] => m
  | v :: rest => Memory.writeBytes (Memory.write m a v) (a + 1) rest

/-! ### The memory port: one byte per access (R64), or an error of the platform (R65) -/

/-- The platform answers an access to this address with an error. -/
def portFails (s : State) (a : Nat) : Bool := s.portErrors.any (fun r => r.contains a)

/-- One byte read by the engine. -/
def portRead (s : State) (m : List Host.Cell) (a : Nat) : Except Fault Byte :=
  if portFails s a then .error .memPortFault else .ok (Memory.read m a)

/-- One byte written by the engine. -/
def portWrite (s : State) (m : List Host.Cell) (a : Nat) (v : Byte) : Except Fault (List Host.Cell) :=
  if portFails s a then .error .memPortFault else .ok (Memory.write m a v)

/-- `MemRead(a, n)`: the little-endian value of `n` bytes (R15, R57). -/
def memRead (s : State) (m : List Host.Cell) (a : Nat) : Nat → Except Fault Nat
  | 0 => .ok 0
  | n + 1 => do
    let low ← portRead s m a
    let high ← memRead s m (a + 1) n
    return low.toNat + 256 * high

/-- `MemWrite(a, n, v)`: the low `n` bytes of `v`, least significant first (R15, R57). -/
def memWrite (s : State) (m : List Host.Cell) (a : Nat) : Nat → Nat → Except Fault (List Host.Cell)
  | 0, _ => .ok m
  | n + 1, v => do
    let m ← portWrite s m a (BitVec.ofNat 8 (v % 256))
    memWrite s m (a + 1) n (v / 256)

/-! ### Loops (00_scope.md R17) -/

/-- `for i in [0, n)` over a memory. -/
def forRange (body : Nat → List Host.Cell → Except Fault (List Host.Cell)) :
    Nat → List Host.Cell → Except Fault (List Host.Cell)
  | 0, m => .ok m
  | n + 1, m => do
    let m ← forRange body n m
    body n m

/-! ### The LUT RAM (10_state.md R42, R45, R52) -/

/-- The key of entry `LUT[c][k]`. -/
def lutKey (b : Build) (c k : Nat) : Nat := c * b.inRange + k

/-- `LUT[c][k]`, or none where the entry has not been written since reset. -/
def lutEntry (s : State) (c k : Nat) : Option Byte := Cells.get? s.lut (lutKey s.build c k)

/-- `lutWritten[c][k]` (R52). -/
def lutWritten (s : State) (c k : Nat) : Bool := (lutEntry s c k).isSome

/-! ### The launch of a command and its two ways to end -/

/-- The effect of a launching CTRL write while IDLE (R24, R28): the word is kept for read-back with bit 31 = 0, DONE, ERR
and ERRCODE are cleared, and the engine becomes BUSY with the word. -/
def launch (v : Word) (s : State) : State :=
  { s with
    ctrl := v &&& 0x7FFFFFFF#32
    done := false
    err := false
    errCode := 0
    engine := .busy v }

/-- A command ends with error `e` (60_exceptions.md R134, failure branch). R136: this is the block's equivalent of trap
entry; no state is saved, no mode changes, memory is as before the launch. -/
def failWith (e : CmdError) (s : State) : State :=
  { s with
    err := true
    errCode := errorCode e
    done := true
    engine := .idle }

/-- A command ends successfully, leaving memory `m` (R134, success branch; every write precedes DONE, R70). -/
def completeWith (m : List Host.Cell) (s : State) : State :=
  { s with
    mem := m
    err := false
    errCode := 0
    done := true
    engine := .idle }

/-- A command in one step (20_memory.md R71; log 6): its checks, all made before the first memory access (R131), then its
pass over memory, then its completion. -/
def runCommand (i : Instr) (pass : State → List Host.Cell → Except Fault (List Host.Cell)) (s : State) :
    Host.Outcome State Fault Refusal :=
  match checkCommand i s with
  | some e => .next (failWith e s)
  | none =>
    match pass s s.mem with
    | .ok m => .next (completeWith m s)
    | .error f => .fault f

end Sys2Proof.Machine
end

