-- ==== Sys2Proof/Machine/LutApply.lean ====
section
/-! DEFINITION. LUTAPPLY, the LUT tone-mapper (44_lut_apply.md). -/

namespace Sys2Proof.Machine

/-- The index clamp (R111). -/
def lutIndex (b : Build) (v : Nat) : Nat := min v (b.inRange - 1)

/-- Sample `3p + c` of the image (R112): read the 16-bit cell, clamp, and write channel `c`'s entry. An entry not written
since reset is the fault of R113 (log 9). -/
def lutSample (s : State) (p c : Nat) (m : List Host.Cell) : Except Fault (List Host.Cell) := do
  let n := 3 * p + c
  let v ← memRead s m (srcBase s + 2 * n) 2
  match lutEntry s c (lutIndex s.build v) with
  | some b => memWrite s m (dstBase s + n) 1 b.toNat
  | none => .error .unwrittenLut

/-- The loops of R112. -/
def lutPass (s : State) (m : List Host.Cell) : Except Fault (List Host.Cell) :=
  forRange (fun p => forRange (fun c => lutSample s p c) Config.channels) (frameW s * frameH s) m

/-- LUTAPPLY (R112). -/
def execLutapply (s : State) : Host.Outcome State Fault Refusal := runCommand .lutapply lutPass s

end Sys2Proof.Machine
end

