-- ==== Sys2Proof/Machine/Zebra.lean ====
section
/-! DEFINITION. ZEBRA, the clipping overlay, and the zebraPass it shares with PREVIEWZ (45_zebra.md). -/

namespace Sys2Proof.Machine

/-- One sample of a visited pixel: a saturated sample becomes 0 (R116). -/
def zebraSample (s : State) (base c : Nat) (k : Nat) (m : List Host.Cell) : Except Fault (List Host.Cell) := do
  let v ← memRead s m (base + c + k) 1
  if v = 255 then memWrite s m (base + c + k) 1 0 else .ok m

/-- The visit of the pixel at samples `c`, `c+1`, `c+2` (R118). -/
def zebraVisit (s : State) (base c : Nat) (m : List Host.Cell) : Except Fault (List Host.Cell) :=
  forRange (zebraSample s base c) Config.channels m

/-- The cursor after `c` in an image whose rows hold `l` samples (R117): nine on, and three more, once, where the advance
changed rows. -/
def zebraNext (l c : Nat) : Nat :=
  if (c + Config.zebraStep) / l ≠ c / l then c + Config.zebraStep + Config.zebraSkip else c + Config.zebraStep

/-- The cursor loop of R117 over an image of `total` samples. Each turn moves the cursor on, so `total` units of fuel are
enough from cursor 0. -/
def zebraLoop (s : State) (base l total : Nat) : Nat → Nat → List Host.Cell → Except Fault (List Host.Cell)
  | 0, _, m => .ok m
  | fuel + 1, c, m =>
    if c < total then do
      let m ← zebraVisit s base c m
      zebraLoop s base l total fuel (zebraNext l c) m
    else .ok m

/-- `zebraPass(base, wz, hz)` (R118). -/
def zebraPass (s : State) (base wz hz : Nat) (m : List Host.Cell) : Except Fault (List Host.Cell) :=
  zebraLoop s base (3 * wz) (3 * wz * hz) (3 * wz * hz) 0 m

/-- The pass of ZEBRA: the image at DST_ADDR, W × H (R119). -/
def zebraFramePass (s : State) (m : List Host.Cell) : Except Fault (List Host.Cell) :=
  zebraPass s (dstBase s) (frameW s) (frameH s) m

/-- ZEBRA (R119). -/
def execZebra (s : State) : Host.Outcome State Fault Refusal := runCommand .zebra zebraFramePass s

end Sys2Proof.Machine
end

