-- ==== Sys2Proof/Machine/Preview.lean ====
section
/-! DEFINITION. PREVIEW and PREVIEWZ, the quarter-resolution preview decimator (42_preview.md). -/

namespace Sys2Proof.Machine

/-- The offset `j` of group `gx` in packed row `4r` (R96). -/
def previewOffset (s : State) (r gx : Nat) : Nat := 4 * r * frameS s + Config.groupBytes * gx

/-- Output pixel (gx, r) (R96–R98): bytes `j`, `j+1` and `j+S+1` into channels 0, 1, 2. -/
def previewPixel (s : State) (r gx : Nat) (m : List Host.Cell) : Except Fault (List Host.Cell) := do
  let j := srcBase s + previewOffset s r gx
  let n := dstBase s + (r * previewW s + gx) * 3
  let v0 ← memRead s m j 1
  let m ← memWrite s m (n + 0) 1 v0
  let v1 ← memRead s m (j + 1) 1
  let m ← memWrite s m (n + 1) 1 v1
  let v2 ← memRead s m (j + frameS s + 1) 1
  memWrite s m (n + 2) 1 v2

/-- `previewPass` (R98). -/
def previewPass (s : State) (m : List Host.Cell) : Except Fault (List Host.Cell) :=
  forRange (fun r => forRange (fun gx => previewPixel s r gx) (previewW s)) (previewH s) m

/-- PREVIEW (R98). -/
def execPreview (s : State) : Host.Outcome State Fault Refusal := runCommand .preview previewPass s

/-- The pass of PREVIEWZ: previewPass, then zebraPass over its output (R99). -/
def previewZebraPass (s : State) (m : List Host.Cell) : Except Fault (List Host.Cell) := do
  let m ← previewPass s m
  zebraPass s (dstBase s) (previewW s) (previewH s) m

/-- PREVIEWZ (R99). -/
def execPreviewz (s : State) : Host.Outcome State Fault Refusal := runCommand .previewz previewZebraPass s

end Sys2Proof.Machine
end

