-- ==== Sys2Proof/Machine/Unpack.lean ====
section
/-! DEFINITION. UNPACK, the RAW10 bit-unpacker (41_unpack.md). -/

namespace Sys2Proof.Machine

/-- Sample `i` of a group from its high byte and the group's low-bits byte (R90). -/
def groupSample (hi lo i : Nat) : Nat := (hi <<< 2) ||| ((lo >>> (2 * i)) &&& 3)

/-- Group `g` of row `y` (R91): five byte reads, then four 16-bit cells. The first cell is `y·W + 4g` (R92; log 24). -/
def unpackGroup (s : State) (y g : Nat) (m : List Host.Cell) : Except Fault (List Host.Cell) := do
  let j := srcBase s + (y * frameS s + Config.groupBytes * g)
  let n := y * frameW s + Config.groupSamples * g
  let hi0 ← memRead s m (j + 0) 1
  let hi1 ← memRead s m (j + 1) 1
  let hi2 ← memRead s m (j + 2) 1
  let hi3 ← memRead s m (j + 3) 1
  let lo ← memRead s m (j + 4) 1
  let m ← memWrite s m (dstBase s + 2 * (n + 0)) 2 (groupSample hi0 lo 0)
  let m ← memWrite s m (dstBase s + 2 * (n + 1)) 2 (groupSample hi1 lo 1)
  let m ← memWrite s m (dstBase s + 2 * (n + 2)) 2 (groupSample hi2 lo 2)
  memWrite s m (dstBase s + 2 * (n + 3)) 2 (groupSample hi3 lo 3)

/-- The loops of R91. -/
def unpackPass (s : State) (m : List Host.Cell) : Except Fault (List Host.Cell) :=
  forRange (fun y => forRange (fun g => unpackGroup s y g) (frameW s / 4)) (frameH s) m

/-- UNPACK (R91). -/
def execUnpack (s : State) : Host.Outcome State Fault Refusal := runCommand .unpack unpackPass s

end Sys2Proof.Machine
end

