-- ==== Sys2Proof/Machine/Dispatch.lean ====
section
/-! DEFINITION. One arm per command: the engine runs it (30_encoding.md R80, 20_memory.md R71). -/

namespace Sys2Proof.Machine

def exec (i : Instr) (s : State) : Host.Outcome State Fault Refusal :=
  match i with
  | .unpack => Sys2Proof.Machine.execUnpack s
  | .preview => Sys2Proof.Machine.execPreview s
  | .previewz => Sys2Proof.Machine.execPreviewz s
  | .lutapply => Sys2Proof.Machine.execLutapply s
  | .zebra => Sys2Proof.Machine.execZebra s

end Sys2Proof.Machine
end

