-- ==== Sys2Proof/Machine/Registers.lean ====
section
/-! DEFINITION. The register port: what a read of each register returns and what a write does (10_state.md R22–R44). -/

namespace Sys2Proof.Machine

/-- PARAM (R44): IN_RANGE in [16:0], ADDR_W in [29:24]. -/
def paramWord (b : Build) : Word :=
  0#2 ++ BitVec.ofNat 6 b.addrW ++ 0#7 ++ BitVec.ofNat 17 b.inRange

/-- LUT_IDX (R40): CH in [17:16], IDX in [15:0]. -/
def lutIdxWord (s : State) : Word := 0#14 ++ s.lutCh ++ s.lutIdx

/-- The entry the LUT pointer names, or none where it has not been written since reset (R42). -/
def pointedEntry (s : State) : Option Byte := lutEntry s s.lutCh.toNat s.lutIdx.toNat

/-- LUT_DATA (R42): the pointed entry, zero-extended; a fresh draw where it has not been written since reset (R46;
log 3). -/
def lutDataWord (s : State) : Word :=
  ((pointedEntry s).getD (Config.freeByte s.draws)).setWidth 32

/-- What a read of a register returns (R22–R44). -/
def readReg (r : Reg) (s : State) : Word :=
  match r with
  | .id => Config.idValue
  | .ctrl => s.ctrl
  | .status => statusWord s
  | .irqEn => (BitVec.ofBool s.irqEn).setWidth 32
  | .width => s.width.setWidth 32
  | .height => s.height.setWidth 32
  | .stride => BitVec.ofNat 32 (frameS s)
  | .srcAddr => s.srcAddr
  | .srcLen => s.srcLen
  | .dstAddr => s.dstAddr
  | .dstLen => s.dstLen
  | .lutCfg => (BitVec.ofBool s.lutReady).setWidth 32
  | .lutIdx => lutIdxWord s
  | .lutData => lutDataWord s
  | .param => paramWord s.build
  | .reserved => 0

/-- A read has no side effect (R30, R42). The model only counts the fresh draw that a read of an unwritten LUT entry
takes (R46; log 3). -/
def afterRead (r : Reg) (s : State) : State :=
  if r = .lutData ∧ (pointedEntry s).isNone then { s with draws := s.draws + 1 } else s

/-- A write that is taken only while the engine is IDLE; while BUSY it is ignored and sets IGN (R30). -/
def whenIdle (s : State) (s' : State) : State := if isBusy s then setIgnored s else s'

/-- A write of CTRL while IDLE (R24): bit 31 launches, and without it nothing happens. -/
def writeCtrl (v : Word) (s : State) : State := if v.getLsbD 31 then launch v s else s

/-- A write of an address register keeps bits [ADDR_W-1:0] (R35, R37). -/
def addressBits (b : Build) (v : Word) : Word := BitVec.ofNat 32 (v.toNat % b.memBytes)

/-- A write of LUT_IDX while IDLE (R40): taken when it names an entry, else ignored whole with IGN. -/
def writeLutIdx (v : Word) (s : State) : State :=
  if (v.extractLsb' 16 2).toNat ≤ 2 ∧ (v.extractLsb' 0 16).toNat < s.build.inRange then
    { s with lutCh := v.extractLsb' 16 2, lutIdx := v.extractLsb' 0 16 }
  else setIgnored s

/-- A write of LUT_DATA while IDLE (R42): the pointed entry takes v[7:0], and the pointer moves on to the next index, or
to index 0 of the next channel. -/
def writeLutData (v : Word) (s : State) : State :=
  let c := s.lutCh.toNat
  let k := s.lutIdx.toNat
  let s := { s with lut := Cells.put s.lut (lutKey s.build c k) (v.extractLsb' 0 8) }
  if k + 1 < s.build.inRange then { s with lutIdx := BitVec.ofNat 16 (k + 1) }
  else { s with lutIdx := 0, lutCh := BitVec.ofNat 2 ((c + 1) % 3) }

/-- What a write of a register does (R22–R44). -/
def writeReg (r : Reg) (v : Word) (s : State) : State :=
  match r with
  | .id => s
  | .ctrl => whenIdle s (writeCtrl v s)
  | .status => writeStatus v s
  | .irqEn => { s with irqEn := v.getLsbD 0 }
  | .width => whenIdle s { s with width := v.extractLsb' 0 16 }
  | .height => whenIdle s { s with height := v.extractLsb' 0 16 }
  | .stride => s
  | .srcAddr => whenIdle s { s with srcAddr := addressBits s.build v }
  | .srcLen => whenIdle s { s with srcLen := v }
  | .dstAddr => whenIdle s { s with dstAddr := addressBits s.build v }
  | .dstLen => whenIdle s { s with dstLen := v }
  | .lutCfg => whenIdle s { s with lutReady := v.getLsbD 0 }
  | .lutIdx => whenIdle s (writeLutIdx v s)
  | .lutData => whenIdle s (writeLutData v s)
  | .param => s
  | .reserved => s

end Sys2Proof.Machine
end

