-- ==== Sys2Proof/Machine/HostPort.lean ====
section
/-! DEFINITION. The host's turn: one statement of its program (30_encoding.md R83), with the race rule of 20_memory.md R68. -/

namespace Sys2Proof.Machine

/-- The command the engine is running, none while IDLE or over an illegal word, which touches no memory (R133). -/
def activeCommand (s : State) : Option Instr :=
  match s.engine with
  | .idle => none
  | .busy w =>
    match decode w with
    | .ok i => some i
    | .error _ => none

/-- A host write of this byte races with the running command: the byte is in its source or destination region (R68;
log 7). -/
def writeRaces (s : State) (a : Nat) : Bool :=
  match activeCommand s with
  | none => false
  | some i => (srcRegion i s).any (fun r => r.contains a) || (dstRegion i s).contains a

/-- A host read of this byte races with the running command: the byte is in its destination region (R68). -/
def readRaces (s : State) (a : Nat) : Bool :=
  match activeCommand s with
  | none => false
  | some i => (dstRegion i s).contains a

/-- One of the `n` addresses from `a` on satisfies the test. -/
def anyFrom (test : Nat → Bool) (a : Nat) : Nat → Bool
  | 0 => false
  | n + 1 => test a || anyFrom test (a + 1) n

/-- The value of a field `[hi:lo]` (00_scope.md R13). -/
def fieldOf (f : Field) (v : Word) : Nat := (v.toNat >>> f.lo) % 2 ^ (f.hi + 1 - f.lo)

/-- Note what a read showed the host. -/
def observe (o : Observation) (s : State) : State := { s with observed := o :: s.observed }

/-- A register read by the host: the value is shown, and a fresh draw it took is counted. -/
def hostRead (r : Reg) (s : State) : State := observe (.reg r (readReg r s)) (afterRead r s)

/-- `MEMW`: host memory writes of bytes at consecutive addresses. -/
def hostMemWrite (a : Nat) (bytes : List Byte) (s : State) : Host.Outcome State Fault Refusal :=
  if s.build.memBytes < a + bytes.length then .fault .noSuchAddress
  else if anyFrom (writeRaces s) a bytes.length then .fault .hostRace
  else .next { s with mem := Memory.writeBytes s.mem a bytes }

/-- `MEMR`: a host memory read. -/
def hostMemRead (a n : Nat) (s : State) : Host.Outcome State Fault Refusal :=
  if s.build.memBytes < a + n then .fault .noSuchAddress
  else if anyFrom (readRaces s) a n then .fault .hostRace
  else .next (observe (.mem a (Memory.readBytes s.mem a n)) s)

/-- One statement of R83, run on a state whose program no longer holds it. A register access that is not aligned and 32
bits wide is the fault of R29 (log 11). A POLL whose field differs goes back to the head of the program (log 5). -/
def runStmt (st : HostStmt) (s : State) : Host.Outcome State Fault Refusal :=
  match st with
  | .wr a v =>
    match decodeAccess a with
    | none => .fault .regAccessFault
    | some r => .next (writeReg r v s)
  | .rd a =>
    match decodeAccess a with
    | none => .fault .regAccessFault
    | some r => .next (hostRead r s)
  | .poll a f v =>
    match decodeAccess a with
    | none => .fault .regAccessFault
    | some r =>
      if fieldOf f (readReg r s) = v then .next (hostRead r s)
      else .next { hostRead r s with program := st :: s.program }
  | .memw a bytes => hostMemWrite a bytes s
  | .memr a n => hostMemRead a n s

/-- The host's turn: its next statement, or nothing where its program has ended. -/
def hostTurn (s : State) : Host.Outcome State Fault Refusal :=
  match s.program with
  | [] => .next s
  | st :: rest => runStmt st { s with program := rest }

end Sys2Proof.Machine
end

