-- ==== Sys2Proof/Machine/Reset.lean ====
section
/-! DEFINITION. Reset at any time (70_reset_and_hazards.md R147, R148). -/

namespace Sys2Proof.Machine

/-- The destination region of a command that reset would abort, cut at the end of the memory; empty where no command is
running (R148; log 8). -/
def abortedRegion (s : State) : Region :=
  match activeCommand s with
  | none => { base := 0, len := 0 }
  | some i =>
    { base := (dstRegion i s).base, len := min (dstRegion i s).len (s.build.memBytes - (dstRegion i s).base) }

/-- Give each of `n` bytes from `a` on a fresh draw, numbered from `d` (R148; log 3). -/
def scramble (m : List Host.Cell) (a d : Nat) : Nat → List Host.Cell
  | 0 => m
  | n + 1 => scramble (Memory.write m a (Config.freeByte d)) (a + 1) (d + 1) n

/-- Reset (R147): the block's registers and engine take the values of 10_state.md R53 and every LUT entry is unspecified
again (R46; log 10). The build, the memory outside an aborted command's destination, and what belongs to the host and the
platform stay. -/
def resetBlock (s : State) : State :=
  { State.reset with
    build := s.build
    mem := scramble s.mem (abortedRegion s).base s.draws (abortedRegion s).len
    portErrors := s.portErrors
    turns := s.turns
    program := s.program
    observed := s.observed
    draws := s.draws + (abortedRegion s).len }

/-- The host's register access during reset (R147): it is ignored, and a read returns 0. A memory statement is no access
to the block and waits (log 19). -/
def dropAccess (s : State) : State :=
  match s.program with
  | [] => s
  | .wr _ _ :: rest => { s with program := rest }
  | .rd a :: rest =>
    match decodeAccess a with
    | none => { s with program := rest }
    | some r => observe (.reg r 0) { s with program := rest }
  | .poll a f v :: rest =>
    match decodeAccess a with
    | none => { s with program := rest }
    | some r => observe (.reg r 0) (if fieldOf f 0 = v then { s with program := rest } else s)
  | .memw _ _ :: _ => s
  | .memr _ _ :: _ => s

end Sys2Proof.Machine
end

