-- ==== Sys2Proof/Machine/EngineTurn.lean ====
section
/-! DEFINITION. The engine's turn, and which agent moves next. -/

namespace Sys2Proof.Machine

/-- The engine's turn: nothing while IDLE; while BUSY the launching word is decoded (30_encoding.md R80) and the command
runs to completion, or ends with ILLEGAL_COMMAND (60_exceptions.md R133). -/
def engineTurn (s : State) : Host.Outcome State Fault Refusal :=
  match s.engine with
  | .idle => .next s
  | .busy w =>
    match decode w with
    | .ok i => exec i s
    | .error _ => .next (failWith .illegalCommand s)

/-- The agent that moves next: the head of `turns`, or, where nothing is listed, the engine while BUSY and else the host
(R153; log 4, log 15). -/
def nextTurn (s : State) : Turn :=
  match s.turns with
  | t :: _ => t
  | [] => if isBusy s then .engine else .host

/-- The head of `turns` is used up. -/
def popTurn (s : State) : State := { s with turns := s.turns.tail }

/-- One turn of the given agent. -/
def takeTurn (t : Turn) (s : State) : Host.Outcome State Fault Refusal :=
  match t with
  | .engine => engineTurn s
  | .host => hostTurn s
  | .reset => .next (resetBlock s)
  | .resetDuringAccess => .next (dropAccess (resetBlock s))

/-- The engine's turn comes next, and it runs the word just launched (log 14). -/
def launchNext (v : Word) (s : State) : State := { launch v s with turns := .engine :: s.turns }

end Sys2Proof.Machine
end

