-- ==== Sys2Proof/Machine/Step.lean ====
section
/-! DEFINITION. One step of the machine: one turn of one agent. -/

namespace Sys2Proof.Machine

/-- One step: the agent whose turn it is moves, and its turn is used up. -/
def step (s : State) : Host.Outcome State Fault Refusal := takeTurn (nextTurn s) (popTurn s)

/-- The command word `w` stands where the next step takes it from: it has just been launched by a CTRL write, and the
engine moves next (log 14). A command word is one 32-bit word (R77), so the number of bits needs no placing. -/
def State.withFetchWord (s : State) (_nbits w : Nat) : State := launchNext (BitVec.ofNat 32 w) s

end Sys2Proof.Machine
end

