-- ==== Sys2Proof/Machine/ToneCurve.lean ====
section
/-! DEFINITION. The tone-curve compiler of 43_tone_curve.md: host software, the reference for the bytes a host loads into the
LUT RAM. No step of the machine uses it (00_scope.md R6). This file computes, exactly, for rational points and a rational gamma;
Machine/ToneCurveReal.lean has the reference for real ones (R102, R108; log 20). -/

namespace Sys2Proof.Machine.ToneCurve

/-- A control point with rational coordinates (R102; log 20). -/
structure Point where
  x : Rat
  y : Rat
  deriving DecidableEq, Repr

/-- `0 ≤ x, y ≤ 255` (R102). -/
abbrev Point.inDomain (p : Point) : Prop := 0 ≤ p.x ∧ p.x ≤ 255 ∧ 0 ≤ p.y ∧ p.y ≤ 255

/-- gamma as a fraction of naturals, for example 11/5 (R102; log 20). -/
structure Gamma where
  num : Nat
  den : Nat
  deriving DecidableEq, Repr

/-- gamma is 2.2 by default (00_scope.md R11, R102). -/
def Gamma.default : Gamma := { num := 11, den := 5 }

/-- `inRange` is 1024 by default (R102), as `IN_RANGE` is (00_scope.md R7). -/
def defaultInRange : Nat := Build.default.inRange

/-- Why the host procedure produces no table (R102, R103). -/
inductive CompileError where
  /-- Fewer than two points, or two points of one x. -/
  | degenerateCurve
  /-- gamma is not a positive number: a precondition of the procedure. -/
  | badGamma
  /-- A coordinate is not in [0, 255]: no input of R102 (log 20). -/
  | badPoint
  deriving DecidableEq, Repr

/-- The test of R103. -/
def degenerate (curve : List Point) : Bool :=
  curve.length < 2 || !decide (curve.map Point.x).Nodup

/-- Both coordinates divided by 256 (R104). -/
def normalise (p : Point) : Point := { x := p.x / 256, y := p.y / 256 }

/-- The factor of point `p`'s term, over the points of another x (R105). -/
def basis (points : List Point) (p : Point) (t : Rat) : Rat :=
  ((points.filter (fun q => q.x ≠ p.x)).map (fun q => (t - q.x) / (p.x - q.x))).prod

/-- The interpolating polynomial in Lagrange form (R105). -/
def interpolate (points : List Point) (t : Rat) : Rat :=
  (points.map (fun p => p.y * basis points p t)).sum

/-- `t_k` (R106). -/
def gridPoint (inRange k : Nat) : Rat := (k : Rat) / (inRange : Rat)

/-- `n ≤ 256 · u^(1/gamma)` for `u ≥ 0`, with both sides raised to gamma and then to its denominator. -/
def scaledAtLeast (g : Gamma) (u : Rat) (n : Nat) : Bool := ((n : Rat) / 256) ^ g.num ≤ u ^ g.den

/-- The greatest number from 1 to `n` that passes the test, or 0. -/
def greatestUpTo (test : Nat → Bool) : Nat → Nat
  | 0 => 0
  | n + 1 => if test (n + 1) then n + 1 else greatestUpTo test n

/-- Clamp below, power, scale, clamp and truncate (R107): `min(255, floor(256 · max(p, 0)^(1/gamma)))`. -/
def quantise (g : Gamma) (p : Rat) : Nat := greatestUpTo (scaledAtLeast g (max p 0)) 255

/-- Entry `k` of the table of one curve (R104–R107). -/
def tableEntry (curve : List Point) (g : Gamma) (inRange k : Nat) : Nat :=
  quantise g (interpolate (curve.map normalise) (gridPoint inRange k))

/-- The table of one curve. -/
def channelTable (curve : List Point) (g : Gamma) (inRange : Nat) : List Byte :=
  (List.range inRange).map (fun k => BitVec.ofNat 8 (tableEntry curve g inRange k))

/-- Every point of the curve is an input of R102. -/
abbrev inDomain (curve : List Point) : Prop := ∀ p ∈ curve, p.inDomain

/-- The compiler: the 3 · inRange bytes in the order LUTLOAD writes them, curve c in channel c, or why there are none
(R102, R103, R110). A degenerate curve is found first, whatever gamma is (R103); the order of the other two refusals is the
model's choice (log 20). -/
def compile (c0 c1 c2 : List Point) (g : Gamma := Gamma.default) (inRange : Nat := defaultInRange) :
    Except CompileError (List Byte) :=
  if degenerate c0 ∨ degenerate c1 ∨ degenerate c2 then .error .degenerateCurve
  else if g.num = 0 ∨ g.den = 0 then .error .badGamma
  else if ¬ (inDomain c0 ∧ inDomain c1 ∧ inDomain c2) then .error .badPoint
  else .ok (channelTable c0 g inRange ++ channelTable c1 g inRange ++ channelTable c2 g inRange)

/-- The compiler as the host of a block must call it: with `inRange = IN_RANGE`, the block's parameter (R102). -/
def compileFor (b : Build) (c0 c1 c2 : List Point) (g : Gamma := Gamma.default) : Except CompileError (List Byte) :=
  compile c0 c1 c2 g b.inRange

end Sys2Proof.Machine.ToneCurve
end

