-- ==== Sys2Proof/Machine/HostPrograms.lean ====
section
/-! DEFINITION. Host programs: the pseudo-instructions of 30_encoding.md R84 and the frame processor of
46_frame_sequence.md, as lists of host statements. -/

namespace Sys2Proof.Machine

/-- `WR <REG>, <value>`. -/
def wr (r : Reg) (v : Word) : HostStmt := .wr (regAccess r) v

/-- `RD <REG>`. -/
def rd (r : Reg) : HostStmt := .rd (regAccess r)

/-- `POLL STATUS.DONE == 1`. -/
def pollDone : HostStmt := .poll (regAccess .status) { hi := 1, lo := 1 } 1

/-- `RUN <command>` (R84). -/
def runPseudo (i : Instr) : List HostStmt := [wr .ctrl (encode i), pollDone]

/-- `CLEAR` (R84). -/
def clearPseudo : List HostStmt := [wr .status 0x0000000E]

/-- `FRAME <W>, <H>` (R84). Each value is written as its low 32 bits: DESIGN CHOICE, the spec is silent on a wider one
(log 27). -/
def framePseudo (w h : Nat) : List HostStmt := [wr .width (BitVec.ofNat 32 w), wr .height (BitVec.ofNat 32 h)]

/-- `BUFS <sa>, <sl>, <da>, <dl>` (R84). Each value is written as its low 32 bits: DESIGN CHOICE, the spec is silent on a wider
one, such as a length 2·W·H or 6·W·H of 2^32 or more, where this can change the error that the command reports (log 27). -/
def bufsPseudo (sa sl da dl : Nat) : List HostStmt :=
  [wr .srcAddr (BitVec.ofNat 32 sa), wr .srcLen (BitVec.ofNat 32 sl), wr .dstAddr (BitVec.ofNat 32 da),
   wr .dstLen (BitVec.ofNat 32 dl)]

/-- `LUTLOAD <t0 …>` (R84). -/
def lutLoadPseudo (table : List Byte) : List HostStmt :=
  wr .lutCfg 0 :: wr .lutIdx 0 :: (table.map (fun t => wr .lutData (t.setWidth 32)) ++ [wr .lutCfg 1])

/-- The buffers the frame processor owns, and its frame size (46_frame_sequence.md R123). -/
structure FrameBuffers where
  w : Nat
  h : Nat
  /-- 2·W·H bytes. -/
  mosaic : Nat
  /-- 6·W·H bytes. -/
  img16 : Nat
  /-- 3·W·H bytes. -/
  img8 : Nat
  deriving DecidableEq, Repr

/-- How a frame ends (46_frame_sequence.md R124): the frame processor fails with an error code, or returns an image, which is
the bytes of a region. -/
inductive FrameOutcome where
  | failed (errCode : BitVec 4)
  | image16 (r : Region)
  | image8 (r : Region)
  deriving DecidableEq, Repr

/-- Configuration (R123): the frame size, and the table where curves are configured. -/
def frameConfigure (b : FrameBuffers) (table : Option (List Byte)) : List HostStmt :=
  framePseudo b.w b.h ++ (table.map lutLoadPseudo).getD []

/-- Configuration from the curves themselves (R123 step 3): the table is compiled for the block's IN_RANGE (R102) and loaded;
where the compiler refuses the curves there is no configuration. -/
def frameConfigureCurves (build : Build) (b : FrameBuffers)
    (curves : Option (List ToneCurve.Point × List ToneCurve.Point × List ToneCurve.Point))
    (g : ToneCurve.Gamma := ToneCurve.Gamma.default) : Except ToneCurve.CompileError (List HostStmt) :=
  match curves with
  | none => .ok (frameConfigure b none)
  | some (c0, c1, c2) => (ToneCurve.compileFor build c0 c1 c2 g).map (fun table => frameConfigure b (some table))

/-- One command of a frame (R124): `BUFS`, `RUN`, and the STATUS read on which the host branches. -/
def frameCommand (i : Instr) (sa sl da dl : Nat) : List HostStmt := bufsPseudo sa sl da dl ++ runPseudo i ++ [rd .status]

/-- What the host takes from that read: STATUS.ERRCODE where STATUS.ERR = 1, and nothing where it is 0 (R124, R127). -/
def statusError (status : Word) : Option (BitVec 4) :=
  if status.getLsbD 2 then some (status.extractLsb' 8 4) else none

/-- One frame up to the first branch of the host (R124): UNPACK the packed buffer into the mosaic, then read STATUS. -/
def frameUnpack (b : FrameBuffers) (packed packedLen : Nat) : List HostStmt :=
  frameCommand .unpack packed packedLen b.mosaic (2 * b.w * b.h)

/-- The frame after its first branch, once the host has read STATUS (R124, R127): nothing after an error; otherwise the external
converter's 16-bit image is written, and tone-mapped where curves are configured, up to the second STATUS read. -/
def frameFinish (b : FrameBuffers) (status : Word) (hasCurves : Bool) (converted : List Byte) : List HostStmt :=
  match statusError status with
  | some _ => []
  | none =>
    .memw b.img16 converted ::
      (if hasCurves then frameCommand .lutapply b.img16 (6 * b.w * b.h) b.img8 (3 * b.w * b.h) else [])

/-- How the frame ends (R124), from the STATUS read after UNPACK and the one after LUTAPPLY: an error of either command fails
the frame with its code; without curves the 16-bit image is returned and there is no second read; else the 8-bit image. -/
def frameOutcome (b : FrameBuffers) (hasCurves : Bool) (afterUnpack afterLut : Word) : FrameOutcome :=
  match statusError afterUnpack with
  | some code => .failed code
  | none =>
    if hasCurves then
      match statusError afterLut with
      | some code => .failed code
      | none => .image8 { base := b.img8, len := 3 * b.w * b.h }
    else .image16 { base := b.img16, len := 6 * b.w * b.h }

end Sys2Proof.Machine
end

