-- ==== Sys2Proof/Machine/ToneCurveReal.lean ====
section
/-! DEFINITION. The reference of 43_tone_curve.md in exact real arithmetic (R108), for real points and a real gamma (R102): which
outcome and which tables the rules R102–R107 give, as relations, and what makes a function an `FP_EVAL`. Nothing here is
computed; Machine/ToneCurve.lean computes the rational case. -/

namespace Sys2Proof.Machine.ToneCurve

/-- A control point (R102). -/
structure RealPoint where
  x : Real
  y : Real

/-- `0 ≤ x, y ≤ 255` (R102). -/
def RealPoint.inDomain (p : RealPoint) : Prop := 0 ≤ p.x ∧ p.x ≤ 255 ∧ 0 ≤ p.y ∧ p.y ≤ 255

/-- A rational point is a real one. -/
def RealPoint.IsCast (p : Point) (q : RealPoint) : Prop := q.x = (p.x : Real) ∧ q.y = (p.y : Real)

/-- The three curves, in channel order (R102). -/
structure Curves where
  ch0 : List RealPoint
  ch1 : List RealPoint
  ch2 : List RealPoint

/-- The curves as a list, curve c at place c. -/
def Curves.all (c : Curves) : List (List RealPoint) := [c.ch0, c.ch1, c.ch2]

/-- The test of R103. -/
def DegenerateCurve (curve : List RealPoint) : Prop := curve.length < 2 ∨ ¬ (curve.map RealPoint.x).Nodup

/-- P is the fit of R105 to the normalised points of R104. -/
def Fits (curve : List RealPoint) (P : Polynomial Real) : Prop :=
  P.natDegree ≤ curve.length - 1 ∧ ∀ p ∈ curve, P.eval (p.x / 256) = p.y / 256

/-- `s` is the scaled value of entry `k` of a curve's table, before it is clamped and truncated (R106, R107). -/
def IsScaled (curve : List RealPoint) (gamma : Real) (inRange k : Nat) (s : Real) : Prop :=
  ∃ P, Fits curve P ∧ s = 256 * (max (P.eval ((k : Real) / (inRange : Real))) 0) ^ (1 / gamma)

/-- `q` is entry `k` of a curve's table: `trunc(clamp(s, 0, 255))` (R107). -/
def IsEntry (curve : List RealPoint) (gamma : Real) (inRange k q : Nat) : Prop :=
  ∃ s, IsScaled curve gamma inRange k s ∧ (q : Int) = ⌊min (max s 0) 255⌋

/-- The table has `inRange` entries a channel, entry `k` of channel `c` at place `c * inRange + k`, each the exact one (R102,
R107, in the order of LUTLOAD). -/
def IsTable (c : Curves) (gamma : Real) (inRange : Nat) (table : List Byte) : Prop :=
  table.length = 3 * inRange ∧
  ∀ ch k, ch < 3 → k < inRange →
    IsEntry (c.all.getD ch []) gamma inRange k (table.getD (ch * inRange + k) 0).toNat

/-- What the compiler answers in exact real arithmetic (R102, R103, R107). A gamma that is no real number is not said here. -/
def Compiles (c : Curves) (gamma : Real) (inRange : Nat) : Except CompileError (List Byte) → Prop
  | .error .degenerateCurve => ∃ curve ∈ c.all, DegenerateCurve curve
  | .error .badGamma => (∀ curve ∈ c.all, ¬ DegenerateCurve curve) ∧ gamma ≤ 0
  | .error .badPoint =>
    (∀ curve ∈ c.all, ¬ DegenerateCurve curve) ∧ 0 < gamma ∧ ∃ curve ∈ c.all, ∃ p ∈ curve, ¬ p.inDomain
  | .ok table =>
    (∀ curve ∈ c.all, ¬ DegenerateCurve curve ∧ ∀ p ∈ curve, p.inDomain) ∧ 0 < gamma ∧ IsTable c gamma inRange table

/-- The scaled value of the entry at a place of the table is within `err` of an integer. -/
def NearInteger (c : Curves) (gamma : Real) (inRange n : Nat) (err : Real) : Prop :=
  ∃ s, IsScaled (c.all.getD (n / inRange) []) gamma inRange (n % inRange) s ∧ ∃ z : Int, |s - (z : Real)| ≤ err

/-- A table agrees with the exact one except by ±1 at the places where `near` holds (R108). -/
def Admissible (near : Nat → Prop) (exact table : List Byte) : Prop :=
  table.length = exact.length ∧
  ∀ n, n < exact.length → table.getD n 0 = exact.getD n 0 ∨
    (near n ∧ (table.getD n 0).toNat ≤ (exact.getD n 0).toNat + 1 ∧ (exact.getD n 0).toNat ≤ (table.getD n 0).toNat + 1)

/-- `f` is an `FP_EVAL` of R108 for an implementation whose rounding error at each place of each table is `err`: a function
of the curves, inRange and gamma whose table agrees with the exact one, except by ±1 where s is within that error of an
integer. The spec leaves both OPEN, so a claim about a compiler is one about every such `f` and `err` (log 20). -/
def IsFpEval (err : Curves → Nat → Real → Nat → Real) (f : Curves → Nat → Real → List Byte) : Prop :=
  ∀ c inRange gamma exact, Compiles c gamma inRange (.ok exact) →
    Admissible (fun n => NearInteger c gamma inRange n (err c inRange gamma n)) exact (f c inRange gamma)

end Sys2Proof.Machine.ToneCurve
end

