-- ==== Sys2Proof/Safety.lean ====
section
/-! DEFINITION. The terms claims are stated in: when a command is accepted, which bytes it touches, when the platform and the
LUT RAM let it finish, which pixels the zebra visits, and the invariant of the machine. -/

namespace Sys2Proof.Machine

/-- A little-endian 16-bit cell of memory (20_memory.md R57). -/
def cell16 (m : List Host.Cell) (a : Nat) : Nat := (Memory.read m a).toNat + 256 * (Memory.read m (a + 1)).toNat

/-- needSrc of the table of 20_memory.md R60, 0 for ZEBRA, which has none. -/
def needSrcBytes (i : Instr) (s : State) : Nat :=
  match i with
  | .unpack => stride s.width.toNat * s.height.toNat
  | .preview => stride s.width.toNat * s.height.toNat
  | .previewz => stride s.width.toNat * s.height.toNat
  | .lutapply => 6 * s.width.toNat * s.height.toNat
  | .zebra => 0

/-- needDst of the table of R60. -/
def needDstBytes (i : Instr) (s : State) : Nat :=
  match i with
  | .unpack => 2 * s.width.toNat * s.height.toNat
  | .preview => 3 * (s.width.toNat / 4) * (s.height.toNat / 4)
  | .previewz => 3 * (s.width.toNat / 4) * (s.height.toNat / 4)
  | .lutapply => 3 * s.width.toNat * s.height.toNat
  | .zebra => 3 * s.width.toNat * s.height.toNat

/-- The dimension conditions of 60_exceptions.md R132. -/
def BadDimensions (i : Instr) (s : State) : Prop :=
  s.width.toNat = 0 ∨ s.height.toNat = 0 ∨
    ((i = .unpack ∨ i = .preview ∨ i = .previewz) ∧ s.width.toNat % 8 ≠ 0) ∨
    ((i = .preview ∨ i = .previewz) ∧ s.height.toNat % 4 ≠ 0)

/-- READY = 0, for LUTAPPLY (R132). -/
def TableNotReady (i : Instr) (s : State) : Prop := i = .lutapply ∧ s.lutReady = false

/-- SRC_LEN < needSrc (R132). -/
def SourceShort (i : Instr) (s : State) : Prop := i ≠ .zebra ∧ s.srcLen.toNat < needSrcBytes i s

/-- DST_LEN < needDst (R132). -/
def DestinationShort (i : Instr) (s : State) : Prop := s.dstLen.toNat < needDstBytes i s

/-- A region ends above 2^ADDR_W (R132). -/
def RegionTooHigh (i : Instr) (s : State) : Prop :=
  (i ≠ .zebra ∧ 2 ^ s.build.addrW < s.srcAddr.toNat + needSrcBytes i s) ∨
    2 ^ s.build.addrW < s.dstAddr.toNat + needDstBytes i s

/-- The regions intersect (R132). -/
def RegionsIntersect (i : Instr) (s : State) : Prop :=
  i ≠ .zebra ∧ s.srcAddr.toNat < s.dstAddr.toNat + needDstBytes i s ∧
    s.dstAddr.toNat < s.srcAddr.toNat + needSrcBytes i s

/-- None of the conditions of 60_exceptions.md R132 holds: the command runs. -/
structure Accepted (i : Instr) (s : State) : Prop where
  width_pos : 0 < frameW s
  height_pos : 0 < frameH s
  width_mod : readsPacked i → frameW s % 8 = 0
  height_mod : writesPreview i → frameH s % 4 = 0
  ready : i = .lutapply → s.lutReady = true
  src_len : ∀ n, needSrc i s = some n → n ≤ s.srcLen.toNat
  dst_len : needDst i s ≤ s.dstLen.toNat
  src_range : ∀ n, needSrc i s = some n → srcBase s + n ≤ 2 ^ s.build.addrW
  dst_range : dstBase s + needDst i s ≤ 2 ^ s.build.addrW
  disjoint : ∀ n, needSrc i s = some n → srcBase s + n ≤ dstBase s ∨ dstBase s + needDst i s ≤ srcBase s

/-- The samples at which the zebra cursor stands, in an image of `l` samples a row and `total` samples in all
(45_zebra.md R117). -/
inductive ZebraVisited (l total : Nat) : Nat → Prop where
  | first : 0 < total → ZebraVisited l total 0
  | within {c : Nat} : ZebraVisited l total c → (c + 9) / l = c / l → c + 9 < total → ZebraVisited l total (c + 9)
  | across {c : Nat} : ZebraVisited l total c → (c + 9) / l ≠ c / l → c + 12 < total → ZebraVisited l total (c + 12)

/-- Sample `d` belongs to a visited pixel. -/
def ZebraSampleVisited (l total d : Nat) : Prop := ∃ c k, ZebraVisited l total c ∧ k < 3 ∧ d = c + k

/-- The source bytes UNPACK reads (41_unpack.md R93). -/
def UnpackReads (s : State) (a : Nat) : Prop :=
  ∃ y g b, y < frameH s ∧ g < frameW s / 4 ∧ b < 5 ∧ a = srcBase s + y * frameS s + 5 * g + b

/-- The source bytes PREVIEW reads (42_preview.md R96, R98). -/
def PreviewReads (s : State) (a : Nat) : Prop :=
  ∃ r gx o, r < frameH s / 4 ∧ gx < frameW s / 4 ∧ (o = 0 ∨ o = 1 ∨ o = frameS s + 1) ∧
    a = srcBase s + 4 * r * frameS s + 5 * gx + o

/-- The bytes at which an accepted command makes a memory-port access (20_memory.md R61). -/
def Touches (i : Instr) (s : State) (a : Nat) : Prop :=
  match i with
  | .unpack => UnpackReads s a ∨ (dstRegion .unpack s).contains a
  | .preview => PreviewReads s a ∨ (dstRegion .preview s).contains a
  | .previewz => PreviewReads s a ∨ (dstRegion .previewz s).contains a
  | .lutapply =>
    (srcBase s ≤ a ∧ a < srcBase s + 6 * frameW s * frameH s) ∨ (dstRegion .lutapply s).contains a
  | .zebra =>
    ∃ d, ZebraSampleVisited (3 * frameW s) (3 * frameW s * frameH s) d ∧ a = dstBase s + d

/-- The platform answers every access of the command (20_memory.md R65). -/
def PortClean (i : Instr) (s : State) : Prop := ∀ a, Touches i s a → portFails s a = false

/-- The table entry that sample `n` of a LUTAPPLY reads (44_lut_apply.md R111, R112). -/
def entryRead (s : State) (n : Nat) : Option Byte :=
  lutEntry s (n % 3) (min (cell16 s.mem (srcBase s + 2 * n)) (s.build.inRange - 1))

/-- LUTAPPLY reads no entry that has not been written since reset (44_lut_apply.md R113). -/
def EntriesWritten (s : State) : Prop := ∀ n, n < 3 * frameW s * frameH s → (entryRead s n).isSome

/-- The command has everything it needs to run to completion. -/
structure Runs (i : Instr) (s : State) : Prop where
  accepted : Accepted i s
  clean : PortClean i s
  written : i = .lutapply → EntriesWritten s

/-- The bytes an accepted command's output depends on. -/
def Reads (i : Instr) (s : State) (a : Nat) : Prop :=
  match i with
  | .unpack => UnpackReads s a
  | .preview => PreviewReads s a
  | .previewz => PreviewReads s a
  | .lutapply => srcBase s ≤ a ∧ a < srcBase s + 6 * frameW s * frameH s
  | .zebra => dstBase s ≤ a ∧ a < dstBase s + 3 * frameW s * frameH s

/-- The first visited column of a row, in the closed form of 45_zebra.md R120. -/
def zebraFirst (wz : Nat) : Nat → Nat
  | 0 => 0
  | y + 1 => zebraFirst wz y + 3 * ((wz - 1 - zebraFirst wz y) / 3) + 4 - wz

/-- The next step is the host's, and it runs statement `st`, with `rest` to follow. -/
def HostDoes (s : State) (st : HostStmt) (rest : List HostStmt) : Prop := nextTurn s = .host ∧ s.program = st :: rest

/-- The next step is the engine's, and it is running the launching word `w`. -/
def EngineDoes (s : State) (w : Word) : Prop := nextTurn s = .engine ∧ s.engine = .busy w

/-- The state once the turn and the statement are taken. -/
def afterStmt (s : State) (rest : List HostStmt) : State := { popTurn s with program := rest }

/-- The facts of the spec that every step keeps. -/
structure Inv (s : State) : Prop where
  /-- R7, R8. -/
  build : s.build.wf
  /-- The canonical form of memory. -/
  mem_wf : Memory.wf s.mem
  /-- The memory holds no address that does not exist (20_memory.md R54). -/
  mem_bound : ∀ c ∈ s.mem, c.1 < 2 ^ s.build.addrW
  /-- The LUT RAM in key order. -/
  lut_sorted : Cells.sorted s.lut
  /-- The LUT RAM holds no entry that does not exist (10_state.md R45). -/
  lut_bound : ∀ c ∈ s.lut, c.1 < 3 * s.build.inRange
  /-- The pointer names an existing entry (10_state.md R40). -/
  ptr_ch : s.lutCh.toNat ≤ 2
  ptr_idx : s.lutIdx.toNat < s.build.inRange
  /-- The address registers hold ADDR_W bits (10_state.md R35, R37). -/
  src_bound : s.srcAddr.toNat < 2 ^ s.build.addrW
  dst_bound : s.dstAddr.toNat < 2 ^ s.build.addrW
  /-- CTRL reads with bit 31 = 0 (10_state.md R24). -/
  ctrl_bit : s.ctrl.getLsbD 31 = false
  /-- ERRCODE is 1 to 7 with ERR, and 0 without it (10_state.md R26, R27, 60_exceptions.md R130). -/
  err_code : s.errCode.toNat ≤ 7
  err_iff : s.err = true ↔ s.errCode ≠ 0
  /-- While BUSY: a launching word, its read-back in CTRL, and the flags its launch cleared (10_state.md R24, R51). -/
  busy : ∀ w, s.engine = .busy w →
    w.getLsbD 31 = true ∧ s.ctrl = w &&& 0x7FFFFFFF#32 ∧ s.done = false ∧ s.err = false

end Sys2Proof.Machine
end

