-- ==== Sys2Proof/Certificates/Slice0/Obligations.lean ====
section
/-! DEFINITION. The statements for the provers, from the numbered rules of spec/. -/

open Sys2Proof Sys2Proof.Machine

/-! ### The command word and its decoder (30_encoding.md) -/

/-- R79: the five launching words, and the reserved command numbers with either ZEB. -/
def Obligations.OpcodeMapDecodes : Prop :=
  decode 0x80000001 = .ok .unpack ∧ decode 0x80000002 = .ok .preview ∧ decode 0x80000012 = .ok .previewz ∧
  decode 0x80000003 = .ok .lutapply ∧ decode 0x80000004 = .ok .zebra ∧
  ∀ w : Word, w.getLsbD 31 = true → (w.toNat % 16 = 0 ∨ 5 ≤ w.toNat % 16) → ∃ r, decode w = .error r

/-- A word decodes to a command exactly when it is the encoder's word of that command: the round trip, and no other word is
a command, since every bit of a launching word is fixed (R79–R82). -/
def Obligations.DecodesExactlyTheEncodedWord : Prop := ∀ (w : Word) (i : Instr), decode w = .ok i ↔ w = encode i

/-- R77: the fields CMD [3:0], ZEB [4], RSVD [30:5] and START [31] of a word, and that they are the whole of it. -/
def Obligations.CommandWordFields : Prop :=
  (∀ w : Word,
    (CommandWord.ofWord w).cmd.toNat = w.toNat % 16 ∧ (CommandWord.ofWord w).zeb.toNat = w.toNat / 16 % 2 ∧
    (CommandWord.ofWord w).rsvd.toNat = w.toNat / 32 % 2 ^ 26 ∧ (CommandWord.ofWord w).start.toNat = w.toNat / 2 ^ 31 ∧
    (CommandWord.ofWord w).toWord = w) ∧
  ∀ c : CommandWord, CommandWord.ofWord c.toWord = c

/-- R82, R133: the illegal launching words complete with ILLEGAL_COMMAND and change STATUS and the engine only. -/
def Obligations.IllegalWordCompletes : Prop :=
  ∀ (s : State) (w : Word), EngineDoes s w → w.getLsbD 31 = true →
    (w.toNat / 32 % 2 ^ 26 ≠ 0 ∨ w.toNat % 16 = 0 ∨ 5 ≤ w.toNat % 16 ∨ (w.toNat / 16 % 2 = 1 ∧ w.toNat % 16 ≠ 2)) →
    step s = .next { popTurn s with err := true, errCode := 3, done := true, engine := .idle }

/-! ### The step -/

/-- The engine's step over a legal launching word is exec of its command, at the state whose turn is used up
(one turn runs the whole command, log 6). -/
def Obligations.StepRunsTheLaunchedCommand : Prop :=
  ∀ (s : State) (w : Word) (i : Instr), EngineDoes s w → decode w = .ok i → step s = exec i (popTurn s)

/-- A launching word placed by withFetchWord is what the next step runs, on the launched state (the placing is the model's,
log 14). -/
def Obligations.PlacedWordRunsNext : Prop :=
  ∀ (s : State) (i : Instr), step (s.withFetchWord 32 (encode i).toNat) = exec i (launch (encode i) s)

/-- Every step keeps the invariant (the conditions are Inv's, each with its rule). -/
def Obligations.StepKeepsInv : Prop := ∀ s t : State, Inv s → step s = .next t → Inv t

/-- The state after reset meets the invariant. -/
def Obligations.ResetMeetsInv : Prop := Inv State.reset

/-- R50: IDLE → BUSY only on a launching CTRL write; BUSY → IDLE only at a command's completion or at reset; the phase
reads as STATUS.BUSY and is IDLE after reset. -/
def Obligations.PhaseChangesOnlyAtLaunchAndCompletion : Prop :=
  (∀ s t : State, step s = .next t → isBusy s = false → isBusy t = true →
    ∃ v rest, HostDoes s (.wr { width := .word, offset := 0x04 } v) rest ∧ v.getLsbD 31 = true ∧
      t.engine = .busy v) ∧
  (∀ s t : State, step s = .next t → isBusy s = true → isBusy t = false →
    (nextTurn s = .engine ∧ t.done = true) ∨ nextTurn s = .reset ∨ nextTurn s = .resetDuringAccess) ∧
  (∀ s : State, (readReg .status s).getLsbD 0 = isBusy s) ∧ State.reset.engine = .idle

/-- R45: only a LUT_DATA write changes the LUT RAM (a reset makes every entry unspecified again, R46); no command does
(held as a list of written entries, log 10). -/
def Obligations.OnlyLutDataWritesChangeTheTable : Prop :=
  ∀ s t : State, step s = .next t → t.lut ≠ s.lut →
    (isBusy s = false ∧ ∃ v rest, HostDoes s (.wr { width := .word, offset := 0x34 } v) rest) ∨
      nextTurn s = .reset ∨ nextTurn s = .resetDuringAccess

/-- R39: only a LUT_CFG write and a reset change READY. -/
def Obligations.OnlyTheHostAndResetChangeReady : Prop :=
  ∀ s t : State, step s = .next t → t.lutReady ≠ s.lutReady →
    (isBusy s = false ∧ ∃ v rest, HostDoes s (.wr { width := .word, offset := 0x2C } v) rest ∧
      t.lutReady = v.getLsbD 0) ∨
      ((nextTurn s = .reset ∨ nextTurn s = .resetDuringAccess) ∧ t.lutReady = false)

/-- No step changes the build parameters (R7, R8) (held in the state, log 1). -/
def Obligations.BuildNeverChanges : Prop := ∀ s t : State, step s = .next t → t.build = s.build

/-- R30, R51: what a running command reads does not change while it runs, whatever the host does, until reset. -/
def Obligations.OperandsStableWhileBusy : Prop :=
  ∀ s t : State, step s = .next t → isBusy s = true → nextTurn s ≠ .reset → nextTurn s ≠ .resetDuringAccess →
    t.ctrl = s.ctrl ∧ t.width = s.width ∧ t.height = s.height ∧ t.srcAddr = s.srcAddr ∧ t.srcLen = s.srcLen ∧
    t.dstAddr = s.dstAddr ∧ t.dstLen = s.dstLen ∧ t.lutReady = s.lutReady ∧ t.lutIdx = s.lutIdx ∧ t.lutCh = s.lutCh ∧
    t.lut = s.lut ∧ (isBusy t = true → t.engine = s.engine)

/-! ### The register port (10_state.md) -/

/-- R23: the register at each offset of the window. -/
def Obligations.RegisterMap : Prop :=
  [0x00, 0x04, 0x08, 0x0C, 0x10, 0x14, 0x18, 0x1C, 0x20, 0x24, 0x28, 0x2C, 0x30, 0x34, 0x38, 0x3C].map
      (fun o => decodeAccess { width := .word, offset := o }) =
    [Reg.id, .ctrl, .status, .irqEn, .width, .height, .stride, .srcAddr, .srcLen, .dstAddr, .dstLen, .lutCfg, .lutIdx,
      .lutData, .param, .reserved].map some

/-- The host's WR is a write of the register at the offset, and its RD shows the register's value
(the host program as data is the model's, log 5 and 25). -/
def Obligations.HostStatementAccessesTheRegister : Prop :=
  (∀ (s : State) (a : RegAccess) (r : Reg) (v : Word) (rest : List HostStmt),
    HostDoes s (.wr a v) rest → decodeAccess a = some r → step s = .next (writeReg r v (afterStmt s rest))) ∧
  ∀ (s : State) (a : RegAccess) (r : Reg) (rest : List HostStmt),
    HostDoes s (.rd a) rest → decodeAccess a = some r →
      ∃ n, step s = .next { afterStmt s rest with observed := .reg r (readReg r s) :: s.observed, draws := n }

/-- R29: an access that is not aligned and 32 bits wide is the model's RegAccessFault, whatever the statement
(the run stops there, log 11). -/
def Obligations.UnalignedAccessFaults : Prop :=
  ∀ (s : State) (a : RegAccess) (rest : List HostStmt), (a.width ≠ .word ∨ a.offset.toNat % 4 ≠ 0) →
    (∀ v, HostDoes s (.wr a v) rest → step s = .fault .regAccessFault) ∧
    (HostDoes s (.rd a) rest → step s = .fault .regAccessFault) ∧
    ∀ f v, HostDoes s (.poll a f v) rest → step s = .fault .regAccessFault

/-- R30: while BUSY the writes of ten registers are ignored and set IGN; STATUS and IRQ_EN writes take effect; writes of
ID, STRIDE, PARAM and the reserved offset are ignored in either phase; reads have no side effect (the model counts a
draw). -/
def Obligations.WritesWhileBusy : Prop :=
  ∀ (s : State) (v : Word),
    (isBusy s = true →
      ∀ r ∈ [Reg.ctrl, .width, .height, .srcAddr, .srcLen, .dstAddr, .dstLen, .lutCfg, .lutIdx, .lutData],
        writeReg r v s = { s with ign := true }) ∧
    (writeReg .irqEn v s = { s with irqEn := v.getLsbD 0 } ∧ (writeReg .status v s).engine = s.engine ∧
      ∀ b ∈ [1, 2, 3], v.getLsbD b = true → (readReg .status (writeReg .status v s)).getLsbD b = false) ∧
    (∀ r ∈ [Reg.id, .stride, .param, .reserved], writeReg r v s = s) ∧
    ∀ r : Reg, ∃ n, afterRead r s = { s with draws := n }

/-- R24, R28: the three cases of a CTRL write, and the read-back. -/
def Obligations.CtrlWriteLaunches : Prop :=
  ∀ (s : State) (v : Word),
    (isBusy s = true → writeReg .ctrl v s = { s with ign := true }) ∧
    (isBusy s = false → v.getLsbD 31 = false → writeReg .ctrl v s = s) ∧
    (isBusy s = false → v.getLsbD 31 = true →
      ∃ c : Word, c.toNat = v.toNat % 2 ^ 31 ∧
        writeReg .ctrl v s = { s with ctrl := c, done := false, err := false, errCode := 0, engine := .busy v }) ∧
    readReg .ctrl s = s.ctrl

/-- R26: the fields of a STATUS read, and its reserved bits. -/
def Obligations.StatusReadFields : Prop :=
  ∀ s : State,
    (readReg .status s).toNat =
      (isBusy s).toNat + 2 * s.done.toNat + 4 * s.err.toNat + 8 * s.ign.toNat + 256 * s.errCode.toNat

/-- A STATUS write clears the flags whose bit is 1, ERRCODE with ERR, and nothing else (R27). -/
def Obligations.StatusWriteClears : Prop :=
  ∀ (s : State) (v : Word),
    writeReg .status v s =
      { s with
        done := if v.getLsbD 1 then false else s.done
        err := if v.getLsbD 2 then false else s.err
        errCode := if v.getLsbD 2 then 0 else s.errCode
        ign := if v.getLsbD 3 then false else s.ign }

/-- R31–R33, R35–R39: an idle write of a plain register changes that register only, and what a read then returns. -/
def Obligations.PlainRegistersReadBack : Prop :=
  ∀ (s : State) (v : Word), isBusy s = false → s.build.wf →
    (writeReg .irqEn v s = { s with irqEn := v.getLsbD 0 } ∧ (readReg .irqEn (writeReg .irqEn v s)).toNat = v.toNat % 2) ∧
    ((∃ x, writeReg .width v s = { s with width := x }) ∧
      (readReg .width (writeReg .width v s)).toNat = v.toNat % 2 ^ 16) ∧
    ((∃ x, writeReg .height v s = { s with height := x }) ∧
      (readReg .height (writeReg .height v s)).toNat = v.toNat % 2 ^ 16) ∧
    ((∃ x, writeReg .srcAddr v s = { s with srcAddr := x }) ∧
      (readReg .srcAddr (writeReg .srcAddr v s)).toNat = v.toNat % 2 ^ s.build.addrW) ∧
    (writeReg .srcLen v s = { s with srcLen := v } ∧ readReg .srcLen (writeReg .srcLen v s) = v) ∧
    ((∃ x, writeReg .dstAddr v s = { s with dstAddr := x }) ∧
      (readReg .dstAddr (writeReg .dstAddr v s)).toNat = v.toNat % 2 ^ s.build.addrW) ∧
    (writeReg .dstLen v s = { s with dstLen := v } ∧ readReg .dstLen (writeReg .dstLen v s) = v) ∧
    (writeReg .lutCfg v s = { s with lutReady := v.getLsbD 0 } ∧
      (readReg .lutCfg (writeReg .lutCfg v s)).toNat = v.toNat % 2)

/-- R22, R44, and the reserved offset of R29: what ID, PARAM in a legal build, and the reserved offset read, and that writes
of them are ignored. -/
def Obligations.ConstantRegisters : Prop :=
  ∀ s : State,
    readReg .id s = 0x56430001 ∧ readReg .reserved s = 0 ∧
    (s.build.wf → (readReg .param s).toNat = s.build.inRange + 2 ^ 24 * s.build.addrW) ∧
    (s.build = { inRange := 1024, addrW := 32 } → readReg .param s = 0x20000400) ∧
    ∀ v : Word, writeReg .id v s = s ∧ writeReg .param v s = s ∧ writeReg .reserved v s = s

/-- R34, R87: STRIDE reads the least multiple of 32 that is at least 10 · (W div 8), at most 81920, as soon as WIDTH is
written. -/
def Obligations.StrideFollowsWidth : Prop :=
  ∀ s : State,
    (readReg .stride s).toNat % 32 = 0 ∧ frameW s / 8 * 10 ≤ (readReg .stride s).toNat ∧
    (readReg .stride s).toNat < frameW s / 8 * 10 + 32 ∧ (readReg .stride s).toNat ≤ 81920 ∧
    ∀ v : Word, isBusy s = false →
      (readReg .stride (writeReg .width v s)).toNat = stride (v.toNat % 2 ^ 16)

/-- R85, R86: the helpers, on a power of two: the mask form, the remainder form, and the nearest multiples. -/
def Obligations.AlignmentHelpers : Prop :=
  ∀ size k : Nat,
    (∀ b, (alignDown size (2 ^ k)).testBit b = (size.testBit b && decide (k ≤ b))) ∧
    alignDown size (2 ^ k) = size - size % 2 ^ k ∧
    (2 ^ k ∣ alignDown size (2 ^ k) ∧ alignDown size (2 ^ k) ≤ size ∧
      ∀ m, 2 ^ k ∣ m → m ≤ size → m ≤ alignDown size (2 ^ k)) ∧
    alignUp size (2 ^ k) = alignDown (size + 2 ^ k - 1) (2 ^ k) ∧
    2 ^ k ∣ alignUp size (2 ^ k) ∧ size ≤ alignUp size (2 ^ k) ∧ ∀ m, 2 ^ k ∣ m → size ≤ m → alignUp size (2 ^ k) ≤ m

/-- R40: an idle write of LUT_IDX is taken when it names an entry, and is otherwise ignored whole with IGN; the pointer keeps
naming an existing entry; a read shows CH and IDX, zero elsewhere; both reset to 0. -/
def Obligations.LutIdxWriteNamesAnEntry : Prop :=
  ∀ (s : State) (v : Word), isBusy s = false →
    (v.toNat / 2 ^ 16 % 4 ≤ 2 ∧ v.toNat % 2 ^ 16 < s.build.inRange →
      ∃ c k, c.toNat = v.toNat / 2 ^ 16 % 4 ∧ k.toNat = v.toNat % 2 ^ 16 ∧
        writeReg .lutIdx v s = { s with lutCh := c, lutIdx := k }) ∧
    (¬ (v.toNat / 2 ^ 16 % 4 ≤ 2 ∧ v.toNat % 2 ^ 16 < s.build.inRange) →
      writeReg .lutIdx v s = { s with ign := true }) ∧
    (s.lutCh.toNat ≤ 2 ∧ s.lutIdx.toNat < s.build.inRange →
      (writeReg .lutIdx v s).lutCh.toNat ≤ 2 ∧ (writeReg .lutIdx v s).lutIdx.toNat < s.build.inRange) ∧
    (readReg .lutIdx s).toNat = 2 ^ 16 * s.lutCh.toNat + s.lutIdx.toNat ∧
    State.reset.lutIdx = 0 ∧ State.reset.lutCh = 0

/-- R42: an idle write of LUT_DATA stores one entry and moves the pointer on; every other entry and everything else stay. A
read of a written entry returns it, zero-extended, and changes nothing. -/
def Obligations.LutDataAccess : Prop :=
  ∀ (s : State) (v : Word), s.build.wf → s.lutCh.toNat ≤ 2 → s.lutIdx.toNat < s.build.inRange →
    (isBusy s = false →
      ∃ l c k, writeReg .lutData v s = { s with lut := l, lutCh := c, lutIdx := k } ∧
        (if s.lutIdx.toNat + 1 < s.build.inRange then c = s.lutCh ∧ k.toNat = s.lutIdx.toNat + 1
          else c.toNat = (s.lutCh.toNat + 1) % 3 ∧ k = 0) ∧
        (lutEntry (writeReg .lutData v s) s.lutCh.toNat s.lutIdx.toNat = some (v.extractLsb' 0 8)) ∧
        ∀ c' k', c' ≤ 2 → k' < s.build.inRange → (c' ≠ s.lutCh.toNat ∨ k' ≠ s.lutIdx.toNat) →
          lutEntry (writeReg .lutData v s) c' k' = lutEntry s c' k') ∧
    ∀ b, lutEntry s s.lutCh.toNat s.lutIdx.toNat = some b →
      (readReg .lutData s).toNat = b.toNat ∧ afterRead .lutData s = s

/-- A host read of an entry not written since reset returns a zero-extended free byte, and the next draw is another one
(R46; the numbering of draws is the model's choice, log 3). -/
def Obligations.UnwrittenEntryReadsAFreshDraw : Prop :=
  ∀ s : State, lutEntry s s.lutCh.toNat s.lutIdx.toNat = none →
    (readReg .lutData s).toNat = (Config.freeByte s.draws).toNat ∧ afterRead .lutData s = { s with draws := s.draws + 1 }

/-- R43: 3 · IN_RANGE writes of LUT_DATA from pointer (0, 0) fill the whole table in order and bring the pointer back. -/
def Obligations.LutLoadFillsTheTable : Prop :=
  ∀ (s : State) (table : List Byte), isBusy s = false → s.build.wf → s.lutCh = 0 → s.lutIdx = 0 →
    table.length = 3 * s.build.inRange →
    (table.foldl (fun t b => writeReg .lutData (b.setWidth 32) t) s).lutCh = 0 ∧
    (table.foldl (fun t b => writeReg .lutData (b.setWidth 32) t) s).lutIdx = 0 ∧
    ∀ c k, c ≤ 2 → k < s.build.inRange →
      lutEntry (table.foldl (fun t b => writeReg .lutData (b.setWidth 32) t) s) c k = table[c * s.build.inRange + k]?

/-- R138: irq is IE AND DONE; what raises it and what drops it. -/
def Obligations.InterruptLevel : Prop :=
  (∀ s : State, irq s = true ↔ s.irqEn = true ∧ s.done = true) ∧
  (∀ (s t : State) (w : Word), EngineDoes s w → step s = .next t → irq t = s.irqEn) ∧
  (∀ s : State, s.done = true → ∀ v : Word, irq (writeReg .irqEn v s) = v.getLsbD 0) ∧
  (∀ (s : State) (v : Word), v.getLsbD 1 = true → irq (writeReg .status v s) = false) ∧
  (∀ (s : State) (v : Word), isBusy s = false → v.getLsbD 31 = true → irq (writeReg .ctrl v s) = false) ∧
  ∀ s t : State, (nextTurn s = .reset ∨ nextTurn s = .resetDuringAccess) → step s = .next t → irq t = false

/-! ### Errors and completion (60_exceptions.md) -/

/-- R132: the first condition in the rule's order is the error found, that error alone is reported, and the command runs when
none holds; an Illegal word is the first condition of all. -/
def Obligations.ErrorPriority : Prop :=
  (∀ (s : State) (w : Word) (r : Reject), EngineDoes s w → decode w = .error r →
    step s = .next { popTurn s with err := true, errCode := 3, done := true, engine := .idle }) ∧
  ∀ (i : Instr) (s : State),
    (BadDimensions i s → checkCommand i s = some .invalidDimensions) ∧
    (¬ BadDimensions i s → TableNotReady i s → checkCommand i s = some .lutNotReady) ∧
    (¬ BadDimensions i s → ¬ TableNotReady i s → SourceShort i s → checkCommand i s = some .sizeMismatch) ∧
    (¬ BadDimensions i s → ¬ TableNotReady i s → ¬ SourceShort i s → DestinationShort i s →
      checkCommand i s = some .dstTooSmall) ∧
    (¬ BadDimensions i s → ¬ TableNotReady i s → ¬ SourceShort i s → ¬ DestinationShort i s → RegionTooHigh i s →
      checkCommand i s = some .addressRange) ∧
    (¬ BadDimensions i s → ¬ TableNotReady i s → ¬ SourceShort i s → ¬ DestinationShort i s → ¬ RegionTooHigh i s →
      RegionsIntersect i s → checkCommand i s = some .bufferOverlap) ∧
    (¬ BadDimensions i s → ¬ TableNotReady i s → ¬ SourceShort i s → ¬ DestinationShort i s → ¬ RegionTooHigh i s →
      ¬ RegionsIntersect i s → checkCommand i s = none) ∧
    ∀ e, checkCommand i s = some e →
      exec i s = .next { s with done := true, err := true, errCode := errorCode e, engine := .idle }

/-- R130, R131, R134: a command that fails its checks sets DONE, ERR and the error's code, becomes IDLE, and changes nothing
else: no memory byte and no other register; it fails so whatever the memory holds and wherever the platform answers with
errors, so it reads none. -/
def Obligations.FailedCommandChangesStatusOnly : Prop :=
  ∀ (i : Instr) (s : State) (e : CmdError), checkCommand i s = some e →
    exec i s = .next { s with done := true, err := true, errCode := errorCode e, engine := .idle } ∧
    (∀ m p, exec i { s with mem := m, portErrors := p } =
      .next { s with mem := m, portErrors := p, done := true, err := true, errCode := errorCode e, engine := .idle }) ∧
    (errorCode e).toNat = match e with
      | .sizeMismatch => 1
      | .invalidDimensions => 2
      | .illegalCommand => 3
      | .lutNotReady => 4
      | .dstTooSmall => 5
      | .addressRange => 6
      | .bufferOverlap => 7

/-- R134: whatever the command, its next state is one of the two completions, by its checks: only STATUS, the engine and, on
success, memory differ. -/
def Obligations.CommandEndsInOneOfTwoWays : Prop :=
  ∀ (i : Instr) (s t : State), exec i s = .next t →
    (checkCommand i s = none ∧ ∃ m, t = { s with mem := m, done := true, err := false, errCode := 0, engine := .idle }) ∨
    (∃ e, checkCommand i s = some e ∧
      t = { s with done := true, err := true, errCode := errorCode e, engine := .idle })

/-- R61: a command writes memory only inside its destination region. -/
def Obligations.WritesStayInsideTheDestination : Prop :=
  ∀ (i : Instr) (s t : State), exec i s = .next t →
    ∀ a, (a < dstBase s ∨ dstBase s + needDst i s ≤ a) → Memory.read t.mem a = Memory.read s.mem a

/-- A command stops with MemPortFault where the platform answers one of its accesses with an error (R65); a LUTAPPLY may
meet an unwritten entry first (which addresses do so is data of the model, log 12). -/
def Obligations.PortErrorFaults : Prop :=
  ∀ (i : Instr) (s : State) (a : Nat), Accepted i s → Touches i s a → portFails s a = true →
    exec i s = .fault .memPortFault ∨ (i = .lutapply ∧ exec i s = .fault .unwrittenLut)

/-- The output of a command depends on nothing but its registers, the LUT RAM and the bytes it reads: not on padding, rows
it skips, or what its destination held (41_unpack.md R93, 42_preview.md R98, 44_lut_apply.md R114). -/
def Obligations.OutputDependsOnBytesRead : Prop :=
  ∀ (i : Instr) (s : State) (m : List Host.Cell), Runs i s →
    (∀ a, Reads i s a → Memory.read m a = Memory.read s.mem a) →
    ∃ t t', exec i s = .next t ∧ exec i { s with mem := m } = .next t' ∧
      ∀ a, dstBase s ≤ a → a < dstBase s + needDst i s → Memory.read t'.mem a = Memory.read t.mem a

/-! ### UNPACK (41_unpack.md) -/

/-- R90–R92: an accepted UNPACK completes; cell y·W + x of the mosaic is the high byte times four plus the two low bits of
sample x mod 4 of its group; nothing else changes. -/
def Obligations.UnpackResult : Prop :=
  ∀ s : State, Accepted .unpack s → PortClean .unpack s →
    ∃ m, exec .unpack s = .next { s with mem := m, done := true, err := false, errCode := 0, engine := .idle } ∧
      (∀ y x, y < frameH s → x < frameW s →
        cell16 m (dstBase s + 2 * (y * frameW s + x)) =
          4 * (Memory.read s.mem (srcBase s + y * frameS s + 5 * (x / 4) + x % 4)).toNat +
          (Memory.read s.mem (srcBase s + y * frameS s + 5 * (x / 4) + 4)).toNat / 4 ^ (x % 4) % 4) ∧
      ∀ a, (a < dstBase s ∨ dstBase s + 2 * frameW s * frameH s ≤ a) → Memory.read m a = Memory.read s.mem a

/-- R95: a frame packed from one value unpacks to that value everywhere. -/
def Obligations.ConstantFrameUnpacksConstant : Prop :=
  ∀ (s : State) (v : Nat), Accepted .unpack s → PortClean .unpack s → v ≤ 1023 →
    (∀ y g, y < frameH s → g < frameW s / 4 →
      (∀ i, i < 4 → (Memory.read s.mem (srcBase s + y * frameS s + 5 * g + i)).toNat = v / 4) ∧
      (Memory.read s.mem (srcBase s + y * frameS s + 5 * g + 4)).toNat = v % 4 * 0x55) →
    ∃ t, exec .unpack s = .next t ∧ ∀ n, n < frameW s * frameH s → cell16 t.mem (dstBase s + 2 * n) = v

/-! ### PREVIEW and PREVIEWZ (42_preview.md) -/

/-- R96–R98: an accepted PREVIEW completes; pixel (gx, r) takes the bytes at j, j + 1 and j + S + 1; nothing else
changes. -/
def Obligations.PreviewResult : Prop :=
  ∀ s : State, Accepted .preview s → PortClean .preview s →
    ∃ m, exec .preview s = .next { s with mem := m, done := true, err := false, errCode := 0, engine := .idle } ∧
      (∀ r gx, r < frameH s / 4 → gx < frameW s / 4 →
        Memory.read m (dstBase s + 3 * (r * (frameW s / 4) + gx)) =
          Memory.read s.mem (srcBase s + 4 * r * frameS s + 5 * gx) ∧
        Memory.read m (dstBase s + 3 * (r * (frameW s / 4) + gx) + 1) =
          Memory.read s.mem (srcBase s + 4 * r * frameS s + 5 * gx + 1) ∧
        Memory.read m (dstBase s + 3 * (r * (frameW s / 4) + gx) + 2) =
          Memory.read s.mem (srcBase s + 4 * r * frameS s + 5 * gx + frameS s + 1)) ∧
      ∀ a, (a < dstBase s ∨ dstBase s + 3 * (frameW s / 4) * (frameH s / 4) ≤ a) →
        Memory.read m a = Memory.read s.mem a

/-- R99: an accepted PREVIEWZ completes with the memory that PREVIEW leaves and ZEBRA, with WIDTH = W/4 and HEIGHT = H/4,
then changes. -/
def Obligations.PreviewzIsPreviewThenZebra : Prop :=
  ∀ s : State, Accepted .previewz s → PortClean .previewz s →
    ∃ t u, exec .preview s = .next t ∧
      exec .zebra { t with width := BitVec.ofNat 16 (frameW s / 4), height := BitVec.ofNat 16 (frameH s / 4) } = .next u ∧
      exec .previewz s = .next { s with mem := u.mem, done := true, err := false, errCode := 0, engine := .idle }

/-! ### LUTAPPLY (44_lut_apply.md) -/

/-- R111, R112: an accepted LUTAPPLY over written entries completes; sample n is entry min(v, IN_RANGE - 1) of table
n mod 3 for the 16-bit input v; nothing else changes. -/
def Obligations.LutapplyResult : Prop :=
  ∀ s : State, Accepted .lutapply s → PortClean .lutapply s → EntriesWritten s →
    ∃ m, exec .lutapply s = .next { s with mem := m, done := true, err := false, errCode := 0, engine := .idle } ∧
      (∀ n, n < 3 * frameW s * frameH s →
        some (Memory.read m (dstBase s + n)) =
          lutEntry s (n % 3) (min (cell16 s.mem (srcBase s + 2 * n)) (s.build.inRange - 1))) ∧
      ∀ a, (a < dstBase s ∨ dstBase s + 3 * frameW s * frameH s ≤ a) → Memory.read m a = Memory.read s.mem a

/-- R113: a LUTAPPLY that reads an entry not written since reset is the model's UnwrittenLut. -/
def Obligations.UnwrittenEntryFaults : Prop :=
  ∀ s : State, Accepted .lutapply s → PortClean .lutapply s →
    (∃ n, n < 3 * frameW s * frameH s ∧
      lutWritten s (n % 3) (min (cell16 s.mem (srcBase s + 2 * n)) (s.build.inRange - 1)) = false) →
    exec .lutapply s = .fault .unwrittenLut

/-- R115: with the table floor(k/4) of 1024 entries in every channel, an image whose samples are four times 8-bit values maps
back to those values. -/
def Obligations.IdentityTableRestoresTheImage : Prop :=
  ∀ (s : State) (u : Nat → Byte), Accepted .lutapply s → PortClean .lutapply s → s.build.inRange = 1024 →
    (∀ c k, c ≤ 2 → k < 1024 → lutEntry s c k = some (BitVec.ofNat 8 (k / 4))) →
    (∀ n, n < 3 * frameW s * frameH s → cell16 s.mem (srcBase s + 2 * n) = 4 * (u n).toNat) →
    ∃ t, exec .lutapply s = .next t ∧ ∀ n, n < 3 * frameW s * frameH s → Memory.read t.mem (dstBase s + n) = u n

/-! ### ZEBRA (45_zebra.md) -/

/-- R116–R119: an accepted ZEBRA completes; the saturated samples of the pixels the cursor visits become 0; nothing else
changes. -/
def Obligations.ZebraResult : Prop :=
  ∀ s : State, Accepted .zebra s → PortClean .zebra s →
    ∃ m, exec .zebra s = .next { s with mem := m, done := true, err := false, errCode := 0, engine := .idle } ∧
      (∀ d, ZebraSampleVisited (3 * frameW s) (3 * frameW s * frameH s) d → Memory.read s.mem (dstBase s + d) = 255 →
        Memory.read m (dstBase s + d) = 0) ∧
      ∀ a, ¬ (∃ d, a = dstBase s + d ∧ ZebraSampleVisited (3 * frameW s) (3 * frameW s * frameH s) d ∧
          Memory.read s.mem a = 255) → Memory.read m a = Memory.read s.mem a

/-- Running ZEBRA twice gives the image of running it once, and it changes nothing of an image with no sample 255
(R119). -/
def Obligations.ZebraIdempotent : Prop :=
  ∀ s : State, Accepted .zebra s → PortClean .zebra s →
    ∃ t u, exec .zebra s = .next t ∧ exec .zebra t = .next u ∧
      (∀ a, Memory.read u.mem a = Memory.read t.mem a) ∧
      ((∀ d, d < 3 * frameW s * frameH s → Memory.read s.mem (dstBase s + d) ≠ 255) →
        ∀ a, Memory.read t.mem a = Memory.read s.mem a)

/-- R120: the visited pixels of an image at least four pixels wide, in closed form. -/
def Obligations.ZebraColumnsClosedForm : Prop :=
  ∀ wz hz : Nat, 4 ≤ wz →
    (∀ y, 1 ≤ zebraFirst wz (y + 1) ∧ zebraFirst wz (y + 1) ≤ 3) ∧
    ∀ y x, y < hz → x < wz →
      (ZebraVisited (3 * wz) (3 * wz * hz) (3 * (y * wz + x)) ↔ zebraFirst wz y ≤ x ∧ (x - zebraFirst wz y) % 3 = 0)

/-- R121: of an all-255 image of two or more pixels, pixel (0, 0) is zeroed and the second pixel in memory (pixel (1, 0), or
(0, 1) where Wz = 1) is not. -/
def Obligations.ZebraZeroesSomeNotAll : Prop :=
  ∀ s : State, Accepted .zebra s → PortClean .zebra s → 2 ≤ frameW s * frameH s →
    (∀ d, d < 3 * frameW s * frameH s → Memory.read s.mem (dstBase s + d) = 255) →
    ∃ t, exec .zebra s = .next t ∧
      (∀ d, d < 3 → Memory.read t.mem (dstBase s + d) = 0) ∧
      ∀ d, 3 ≤ d → d < 6 → Memory.read t.mem (dstBase s + d) = 255

/-! ### The host's memory accesses (20_memory.md) -/

/-- R68: while a command is active, a host write into its source or destination region, or a host read of its destination
region, is HostRace (the regions are R60's even for a command that will fail its checks, log 7). -/
def Obligations.HostRaceFaults : Prop :=
  ∀ (s : State) (w : Word) (i : Instr) (rest : List HostStmt), s.engine = .busy w → decode w = .ok i →
    (∀ a bytes k, HostDoes s (.memw a bytes) rest → a + bytes.length ≤ 2 ^ s.build.addrW → k < bytes.length →
      ((∃ n, needSrc i s = some n ∧ srcBase s ≤ a + k ∧ a + k < srcBase s + n) ∨
        (dstBase s ≤ a + k ∧ a + k < dstBase s + needDst i s)) →
      step s = .fault .hostRace) ∧
    ∀ a n k, HostDoes s (.memr a n) rest → a + n ≤ 2 ^ s.build.addrW → k < n →
      dstBase s ≤ a + k → a + k < dstBase s + needDst i s → step s = .fault .hostRace

/-- A host access that touches no region of an active command, and any access while IDLE, reaches the bytes: MEMW stores
them and leaves every other byte, MEMR shows them (R55, R68, R83) (the model's bounds check, log 13). -/
def Obligations.HostMemoryAccess : Prop :=
  ∀ (s : State) (rest : List HostStmt),
    (∀ a bytes, HostDoes s (.memw a bytes) rest → a + bytes.length ≤ 2 ^ s.build.addrW →
      (∀ w i, s.engine = .busy w → decode w = .ok i → ∀ k, k < bytes.length →
        (∀ n, needSrc i s = some n → a + k < srcBase s ∨ srcBase s + n ≤ a + k) ∧
        (a + k < dstBase s ∨ dstBase s + needDst i s ≤ a + k)) →
      ∃ m, step s = .next { afterStmt s rest with mem := m } ∧
        (∀ k, k < bytes.length → some (Memory.read m (a + k)) = bytes[k]?) ∧
        ∀ b, (b < a ∨ a + bytes.length ≤ b) → Memory.read m b = Memory.read s.mem b) ∧
    ∀ a n, HostDoes s (.memr a n) rest → a + n ≤ 2 ^ s.build.addrW →
      (∀ w i, s.engine = .busy w → decode w = .ok i → ∀ k, k < n →
        a + k < dstBase s ∨ dstBase s + needDst i s ≤ a + k) →
      step s = .next { afterStmt s rest with
        observed := .mem a ((List.range n).map (fun k => Memory.read s.mem (a + k))) :: s.observed }

/-- POLL reads its register again while the field differs, and goes on when it is equal (R83)
(the host program as data is the model's, log 5). -/
def Obligations.PollRepeatsUntilEqual : Prop :=
  ∀ (s : State) (a : RegAccess) (r : Reg) (f : Field) (v : Nat) (rest : List HostStmt),
    HostDoes s (.poll a f v) rest → decodeAccess a = some r →
    ∃ n, step s = .next { popTurn s with
      program := if (readReg r s).toNat / 2 ^ f.lo % 2 ^ (f.hi + 1 - f.lo) = v then rest else s.program
      observed := .reg r (readReg r s) :: s.observed
      draws := n }

/-! ### Reset (70_reset_and_hazards.md) -/

/-- R53, R147: after a reset at any time, with or without a register access in the same turn, the block's registers and engine
have their reset values, no LUT entry is written, and ID and PARAM read their constants. -/
def Obligations.ResetValues : Prop :=
  ∀ s t : State, (nextTurn s = .reset ∨ nextTurn s = .resetDuringAccess) → step s = .next t →
    t.engine = .idle ∧ irq t = false ∧ t.lutIdx = 0 ∧ t.lutCh = 0 ∧ (∀ c k, lutWritten t c k = false) ∧ readReg .id t = 0x56430001 ∧
    readReg .param t = readReg .param s ∧
    ∀ r ∈ [Reg.ctrl, .status, .irqEn, .width, .height, .stride, .srcAddr, .srcLen, .dstAddr, .dstLen, .lutCfg, .lutIdx],
      readReg r t = 0

/-- R148: a reset during a command leaves a fresh draw in every byte of its destination region, and every other byte as it
was; a reset while no command runs leaves memory as it was; so too with a register access in the same turn
(the numbering of draws and the cut at the end of the memory are the model's, log 3 and 8). -/
def Obligations.ResetDuringACommand : Prop :=
  ∀ s t : State, (nextTurn s = .reset ∨ nextTurn s = .resetDuringAccess) → step s = .next t →
    (∀ w i, s.engine = .busy w → decode w = .ok i →
      (∀ a, (a < dstBase s ∨ dstBase s + needDst i s ≤ a) → Memory.read t.mem a = Memory.read s.mem a) ∧
      ∀ k, k < needDst i s → dstBase s + k < 2 ^ s.build.addrW →
        Memory.read t.mem (dstBase s + k) = Config.freeByte (s.draws + k) ∧ s.draws + k < t.draws) ∧
    ((s.engine = .idle ∨ ∃ w r, s.engine = .busy w ∧ decode w = .error r) →
      ∀ a, Memory.read t.mem a = Memory.read s.mem a)

/-- A register access during reset is ignored, and a read, POLL's too, then returns 0 (R147); an access that is not aligned
and 32 bits wide is ignored as well; a memory statement is no register access and waits (the turn, and these forms of it, are
the model's, log 19). -/
def Obligations.AccessDuringResetIsIgnored : Prop :=
  ∀ (s : State) (rest : List HostStmt), nextTurn s = .resetDuringAccess →
    (∀ a r, decodeAccess a = some r →
      (∀ v, s.program = .wr a v :: rest →
        step s = .next { resetBlock (popTurn s) with program := rest }) ∧
      (s.program = .rd a :: rest →
        step s = .next { resetBlock (popTurn s) with program := rest, observed := .reg r 0 :: s.observed }) ∧
      ∀ f v, s.program = .poll a f v :: rest →
        step s = .next { resetBlock (popTurn s) with
          program := if v = 0 then rest else s.program
          observed := .reg r 0 :: s.observed }) ∧
    (∀ a, decodeAccess a = none →
      ((∃ v, s.program = .wr a v :: rest) ∨ s.program = .rd a :: rest ∨ ∃ f v, s.program = .poll a f v :: rest) →
        step s = .next { resetBlock (popTurn s) with program := rest }) ∧
    (s.program = [] ∨ (∃ a bytes, s.program = .memw a bytes :: rest) ∨ (∃ a n, s.program = .memr a n :: rest) →
      step s = .next (resetBlock (popTurn s)))

/-! ### Runs (70_reset_and_hazards.md R152, R153, 60_exceptions.md R139) -/

/-- Every launched command completes: a CTRL write with START = 1 and one turn of the engine bring an idle block back to
IDLE with DONE, where the command has what it needs or fails its checks or is illegal (R133, R134, R153)
(the turns are the model's, log 4 and 15). -/
def Obligations.LaunchedCommandCompletes : Prop :=
  ∀ (s : State) (v : Word) (rest : List HostStmt), s.engine = .idle → s.turns = [] →
    s.program = .wr (regAccess .ctrl) v :: rest → v.getLsbD 31 = true →
    (∀ i, decode v = .ok i → Runs i s ∨ ∃ e, checkCommand i s = some e) →
    ∃ t, Host.Core.run Sys2Proof.core 2 s = .next t ∧ t.engine = .idle ∧ t.done = true ∧ t.program = rest ∧
      t.ctrl.toNat = v.toNat % 2 ^ 31

/-- RUN from IDLE ends with DONE = 1 and the host's next statement to run (R84) (the turns are the model's, log 4). -/
def Obligations.RunPseudoEndsDone : Prop :=
  ∀ (s : State) (i : Instr) (rest : List HostStmt), s.engine = .idle → s.turns = [] →
    s.program = runPseudo i ++ rest → (Runs i s ∨ ∃ e, checkCommand i s = some e) →
    ∃ t, Host.Core.run Sys2Proof.core 3 s = .next t ∧ t.engine = .idle ∧ t.done = true ∧ t.program = rest

/-- R139: a completion and a host write in one cycle, as two steps. Completion, then a STATUS write, clears the new DONE; a
CTRL write, then the completion, is ignored and sets IGN (the turns are the model's, log 4). -/
def Obligations.SimultaneousCompletionAndWrite : Prop :=
  ∀ (s : State) (w : Word) (i : Instr) (v : Word) (rest : List HostStmt), s.engine = .busy w → decode w = .ok i →
    (Runs i s ∨ ∃ e, checkCommand i s = some e) →
    (s.turns = [.engine, .host] → s.program = .wr (regAccess .status) v :: rest → v.getLsbD 1 = true →
      ∃ t, Host.Core.run Sys2Proof.core 2 s = .next t ∧ t.done = false ∧ t.engine = .idle) ∧
    (s.turns = [.host, .engine] → s.program = .wr (regAccess .ctrl) v :: rest →
      ∃ t, Host.Core.run Sys2Proof.core 2 s = .next t ∧ t.done = true ∧ t.engine = .idle ∧ t.ign = true ∧
        t.ctrl = s.ctrl)

/-! ### The tone-curve compiler (43_tone_curve.md) -/

open Sys2Proof.Machine.ToneCurve in
/-- R103: a curve of fewer than two points, or with two points of one x, makes the compiler fail with DegenerateCurve, whatever
gamma is; otherwise a gamma that is not positive, and then a point outside [0, 255] (R102), is refused; and otherwise there is
a table of 3 · inRange bytes, for a block one of 3 · IN_RANGE (rational points and gamma, and the order of the last two
refusals, are the model's, log 20). -/
def Obligations.DegenerateCurveRefused : Prop :=
  ∀ (c0 c1 c2 : List Point) (g : Gamma) (inRange : Nat),
    ((∃ c ∈ [c0, c1, c2], c.length < 2 ∨ ¬ (c.map Point.x).Nodup) →
      compile c0 c1 c2 g inRange = .error .degenerateCurve) ∧
    ((∀ c ∈ [c0, c1, c2], 2 ≤ c.length ∧ (c.map Point.x).Nodup) →
      (g.num = 0 ∨ g.den = 0 → compile c0 c1 c2 g inRange = .error .badGamma) ∧
      (0 < g.num → 0 < g.den →
        ((∃ c ∈ [c0, c1, c2], ∃ p ∈ c, p.x < 0 ∨ 255 < p.x ∨ p.y < 0 ∨ 255 < p.y) →
          compile c0 c1 c2 g inRange = .error .badPoint) ∧
        ((∀ c ∈ [c0, c1, c2], ∀ p ∈ c, 0 ≤ p.x ∧ p.x ≤ 255 ∧ 0 ≤ p.y ∧ p.y ≤ 255) →
          ∃ table, compile c0 c1 c2 g inRange = .ok table ∧ table.length = 3 * inRange))) ∧
    ∀ b : Build, compileFor b c0 c1 c2 g = compile c0 c1 c2 g b.inRange

open Sys2Proof.Machine.ToneCurve in
/-- R105: for n ≥ 2 points of distinct x, the Lagrange form is the one polynomial of degree at most n - 1 that passes
through every point (for rational points, log 20). -/
def Obligations.InterpolantPassesThroughPoints : Prop :=
  ∀ points : List Point, 2 ≤ points.length → (points.map Point.x).Nodup →
    ∃ q : Polynomial Rat, q.natDegree ≤ points.length - 1 ∧ (∀ p ∈ points, q.eval p.x = p.y) ∧
      (∀ t, interpolate points t = q.eval t) ∧
      ∀ q' : Polynomial Rat, q'.natDegree ≤ points.length - 1 → (∀ p ∈ points, q'.eval p.x = p.y) → q' = q

open Sys2Proof.Machine.ToneCurve in
/-- R107: the quantised entry is min(255, floor(256 · max(p, 0)^(1/gamma))), in real arithmetic; and what the compiler answers,
its refusals and its tables, is what the exact real reference of R102–R107 answers for the same curves and gamma (R108)
(for rational points and a rational gamma, log 20). -/
def Obligations.QuantiseIsTheRealFormula : Prop :=
  (∀ (g : Gamma) (p : Rat), 0 < g.num → 0 < g.den →
    (quantise g p : Int) =
      min 255 ⌊256 * (max (p : Real) 0) ^ (1 / ((g.num : Real) / (g.den : Real)))⌋) ∧
  ∀ (c0 c1 c2 : List Point) (g : Gamma) (inRange : Nat) (curves : Curves),
    List.Forall₂ RealPoint.IsCast c0 curves.ch0 → List.Forall₂ RealPoint.IsCast c1 curves.ch1 →
    List.Forall₂ RealPoint.IsCast c2 curves.ch2 →
    Compiles curves ((g.num : Real) / (g.den : Real)) inRange (compile c0 c1 c2 g inRange)

open Sys2Proof.Machine.ToneCurve in
/-- R109: the identity curve with gamma 1 and inRange 1024 gives floor(k/4). -/
def Obligations.IdentityCurveTable : Prop :=
  ∀ k, k < 1024 →
    tableEntry [{ x := 0, y := 0 }, { x := 255, y := 255 }] { num := 1, den := 1 } 1024 k = k / 4

/-! ### The frame processor (46_frame_sequence.md) -/

/-- R124: a command of a frame (BUFS, RUN, RD STATUS) from IDLE shows the host a STATUS without error where the command runs,
and one with its error's code where it fails its checks, memory then being as it was (R127); an error of either command fails the
frame with that code and the host does no more; else the 16-bit image is returned without curves, the 8-bit one with them (the
turns and the host program as data are the model's, log 4 and 5). -/
def Obligations.FrameEndsAsTheBlockReports : Prop :=
  (∀ (s u : State) (i : Instr) (sa sl da dl : Nat) (rest : List HostStmt), s.engine = .idle → s.turns = [] →
    s.program = frameCommand i sa sl da dl ++ rest →
    u = writeReg .dstLen (BitVec.ofNat 32 dl) (writeReg .dstAddr (BitVec.ofNat 32 da)
      (writeReg .srcLen (BitVec.ofNat 32 sl) (writeReg .srcAddr (BitVec.ofNat 32 sa) s))) →
    (Runs i u → ∃ t v seen, Host.Core.run Sys2Proof.core 8 s = .next t ∧ t.engine = .idle ∧ t.program = rest ∧
      t.observed = .reg .status v :: seen ∧ statusError v = none) ∧
    ∀ e, checkCommand i u = some e → ∃ t v seen, Host.Core.run Sys2Proof.core 8 s = .next t ∧ t.engine = .idle ∧
      t.program = rest ∧ t.observed = .reg .status v :: seen ∧ statusError v = some (errorCode e) ∧
      ∀ a, Memory.read t.mem a = Memory.read s.mem a) ∧
  ∀ (b : FrameBuffers) (v w : Word) (converted : List Byte),
    (∀ code, statusError v = some code → ∀ curves,
      frameOutcome b curves v w = .failed code ∧ frameFinish b v curves converted = []) ∧
    (statusError v = none →
      frameOutcome b false v w = .image16 { base := b.img16, len := 6 * b.w * b.h } ∧
      (∀ code, statusError w = some code → frameOutcome b true v w = .failed code) ∧
      (statusError w = none → frameOutcome b true v w = .image8 { base := b.img8, len := 3 * b.w * b.h }))
end

