-- ==== Sys2Proof/Laws/Operands.lean ====
section
/-! SUPPORT. The operands, regions and checks of a command, each said once as arithmetic. -/

namespace Sys2Proof.Machine

theorem Region.contains_iff {r : Region} {a : Nat} : r.contains a = true ↔ r.base ≤ a ∧ a < r.base + r.len := by
  simp [Region.contains]

theorem Region.overlaps_iff {a b : Region} :
    a.overlaps b = true ↔ a.base < b.base + b.len ∧ b.base < a.base + a.len := by
  simp [Region.overlaps]

/-- A source of `n` bytes and the destination share a byte. -/
theorem overlaps_dst_iff {i : Instr} {s : State} {n : Nat} :
    Region.overlaps { base := srcBase s, len := n } (dstRegion i s) = true ↔
      srcBase s < dstBase s + needDst i s ∧ dstBase s < srcBase s + n :=
  Region.overlaps_iff

/-- A byte of a command's destination region, said with its base and length. -/
theorem dst_contains_iff {i : Instr} {s : State} {a : Nat} :
    (dstRegion i s).contains a = true ↔ dstBase s ≤ a ∧ a < dstBase s + needDst i s :=
  Region.contains_iff

theorem stride_ge (w : Nat) : w / 8 * 10 ≤ stride w := by
  unfold stride alignUp alignDown Config.bitWidth Config.rowAlign; omega

/-- The stride of a legal width covers the row's packed groups (40_alignment.md R87). -/
theorem stride_covers {w : Nat} (hw : w % 8 = 0) : 5 * (w / 4) ≤ stride w := by
  have := stride_ge w; omega

/-- The checks of 60_exceptions.md R132 all pass exactly when the command is accepted. -/
theorem checkCommand_none_iff {i : Instr} {s : State} : checkCommand i s = none ↔ Accepted i s := by
  have hpow : s.build.memBytes = 2 ^ s.build.addrW := rfl
  constructor
  · intro h
    unfold checkCommand at h
    split at h; · cases h
    rename_i h1
    split at h; · cases h
    rename_i h2
    split at h; · cases h
    rename_i h3
    split at h; · cases h
    rename_i h4
    split at h; · cases h
    rename_i h5
    split at h; · cases h
    rename_i h6
    split at h; · cases h
    rename_i h7
    split at h; · cases h
    rename_i h8
    split at h; · cases h
    rename_i h9
    simp only [Region.outOfRange, dstRegion, hpow, decide_eq_true_eq] at h8
    refine ⟨by omega, by omega, fun hp => ?_, fun hp => ?_, fun hp => ?_, fun n hn => ?_, by omega, fun n hn => ?_,
      by omega, fun n hn => ?_⟩
    · by_contra hne; exact h2 ⟨hp, hne⟩
    · by_contra hne; exact h3 ⟨hp, hne⟩
    · cases hr : s.lutReady with
      | true => rfl
      | false => exact absurd ⟨hp, hr⟩ h4
    · simp only [sourceTooShort, hn, decide_eq_true_eq] at h5; omega
    · simp only [sourceOutOfRange, srcRegion, hn, Region.outOfRange, hpow, decide_eq_true_eq] at h7; omega
    · simp only [buffersOverlap, srcRegion, hn, overlaps_dst_iff] at h9
      omega
  · intro ha
    have hw := ha.width_pos
    have hh := ha.height_pos
    have h5 : sourceTooShort i s = false := by
      unfold sourceTooShort
      cases hn : needSrc i s with
      | none => rfl
      | some n => have := ha.src_len n hn; simp only [decide_eq_false_iff_not]; omega
    have h7 : sourceOutOfRange i s = false := by
      unfold sourceOutOfRange srcRegion
      cases hn : needSrc i s with
      | none => rfl
      | some n =>
        have := ha.src_range n hn
        simp only [Region.outOfRange, hpow, decide_eq_false_iff_not]; omega
    have h8 : (dstRegion i s).outOfRange s.build = false := by
      have := ha.dst_range
      simp only [Region.outOfRange, dstRegion, hpow, decide_eq_false_iff_not]; omega
    have h9 : buffersOverlap i s = false := by
      unfold buffersOverlap srcRegion
      cases hn : needSrc i s with
      | none => rfl
      | some n =>
        have := ha.disjoint n hn
        simp only [← Bool.not_eq_true, overlaps_dst_iff]; omega
    have h6 := ha.dst_len
    unfold checkCommand
    rw [if_neg (by omega), if_neg (fun h => h.2 (ha.width_mod h.1)), if_neg (fun h => h.2 (ha.height_mod h.1)),
      if_neg (fun h => by rw [ha.ready h.1] at h; exact absurd h.2 (by simp)), if_neg (by simp [h5]),
      if_neg (by omega), if_neg (by simp [h7]), if_neg (by simp [h8]), if_neg (by simp [h9])]

end Sys2Proof.Machine
end

