-- ==== Sys2Proof/Laws/Memory.lean ====
section
/-! SUPPORT. The laws of cell lists and of memory: read after write, and the canonical form kept by every write. -/

namespace Sys2Proof.Machine

@[simp] theorem Cells.get?_put (l : List Host.Cell) (k j : Nat) (v : Byte) :
    Cells.get? (Cells.put l k v) j = if k = j then some v else Cells.get? l j := by
  induction l with
  | nil => simp [Cells.put, Cells.get?]
  | cons c rest ih =>
    obtain ⟨a, w⟩ := c
    simp only [Cells.put]
    split
    · simp [Cells.get?]
    · split
      · rename_i hka; subst hka
        simp only [Cells.get?]; split <;> rfl
      · rename_i hlt hne
        simp only [Cells.get?, ih]
        split
        · rename_i haj; subst haj; simp [hne]
        · rfl

@[simp] theorem Cells.get?_erase (l : List Host.Cell) (k j : Nat) :
    Cells.get? (Cells.erase l k) j = if k = j then none else Cells.get? l j := by
  induction l with
  | nil => simp [Cells.erase, Cells.get?]
  | cons c rest ih =>
    obtain ⟨a, w⟩ := c
    unfold Cells.erase at ih ⊢
    by_cases hak : a = k
    · subst hak
      simp only [List.filter_cons, ne_eq, not_true_eq_false, decide_false, Bool.false_eq_true, if_false, ih,
        Cells.get?]
      split <;> rfl
    · simp only [List.filter_cons, ne_eq, hak, not_false_eq_true, decide_true, if_true, Cells.get?, ih]
      split
      · rename_i haj; subst haj; rw [if_neg (fun h => hak h.symm)]
      · rfl

/-- A listed key was put there or was there before. -/
theorem Cells.mem_put {l : List Host.Cell} {k : Nat} {v : Byte} {c : Host.Cell} (h : c ∈ Cells.put l k v) :
    c = (k, v) ∨ c ∈ l := by
  induction l with
  | nil => simpa [Cells.put] using h
  | cons d rest ih =>
    obtain ⟨a, w⟩ := d
    simp only [Cells.put] at h
    split at h
    · simpa using h
    · split at h
      · rcases List.mem_cons.1 h with h | h
        · exact .inl h
        · exact .inr (List.mem_cons_of_mem _ h)
      · rcases List.mem_cons.1 h with h | h
        · exact .inr (h ▸ List.mem_cons_self)
        · exact (ih h).imp_right (List.mem_cons_of_mem _)

theorem Cells.mem_erase {l : List Host.Cell} {k : Nat} {c : Host.Cell} (h : c ∈ Cells.erase l k) : c ∈ l :=
  List.mem_of_mem_filter h

theorem Cells.sorted_put {l : List Host.Cell} (h : Cells.sorted l) (k : Nat) (v : Byte) :
    Cells.sorted (Cells.put l k v) := by
  induction l with
  | nil => simp [Cells.put]
  | cons d rest ih =>
    obtain ⟨a, w⟩ := d
    have hrest := List.pairwise_cons.1 h
    simp only [Cells.put]
    split
    · rename_i hka
      refine List.pairwise_cons.2 ⟨fun c hc => ?_, h⟩
      rcases List.mem_cons.1 hc with hc | hc
      · subst hc; exact hka
      · exact Nat.lt_trans hka (hrest.1 c hc)
    · split
      · rename_i hka; subst hka
        exact List.pairwise_cons.2 ⟨fun c hc => hrest.1 c hc, hrest.2⟩
      · refine List.pairwise_cons.2 ⟨fun c hc => ?_, ih hrest.2⟩
        rcases Cells.mem_put hc with hc | hc
        · subst hc; simp only; omega
        · exact hrest.1 c hc

theorem Cells.sorted_erase {l : List Host.Cell} (h : Cells.sorted l) (k : Nat) : Cells.sorted (Cells.erase l k) :=
  h.filter _

/-- In key order, equal lookups mean equal lists. -/
theorem Cells.ext_of_sorted {l l' : List Host.Cell} (h : Cells.sorted l) (h' : Cells.sorted l')
    (heq : ∀ k, Cells.get? l k = Cells.get? l' k) : l = l' := by
  have get_none : ∀ {r : List Host.Cell} {k : Nat}, (∀ c ∈ r, k < c.1) → Cells.get? r k = none := by
    intro r k hr
    induction r with
    | nil => rfl
    | cons c rest ih =>
      obtain ⟨a, w⟩ := c
      have : k < a := hr (a, w) List.mem_cons_self
      simp only [Cells.get?]
      rw [if_neg (by omega)]
      exact ih (fun c hc => hr c (List.mem_cons_of_mem _ hc))
  induction l generalizing l' with
  | nil =>
    cases l' with
    | nil => rfl
    | cons d rest' => obtain ⟨b, w⟩ := d; simpa [Cells.get?] using heq b
  | cons c rest ih =>
    obtain ⟨a, v⟩ := c
    cases l' with
    | nil => simpa [Cells.get?] using heq a
    | cons d rest' =>
      obtain ⟨b, w⟩ := d
      have hs := List.pairwise_cons.1 h
      have hs' := List.pairwise_cons.1 h'
      have hab : a = b := by
        rcases Nat.lt_trichotomy a b with hlt | heq' | hlt
        · have h1 := heq a
          simp only [Cells.get?, if_pos] at h1
          rw [if_neg (by omega), get_none (fun c hc => Nat.lt_trans hlt (hs'.1 c hc))] at h1
          cases h1
        · exact heq'
        · have h1 := heq b
          simp only [Cells.get?, if_pos] at h1
          rw [if_neg (by omega), get_none (fun c hc => Nat.lt_trans hlt (hs.1 c hc))] at h1
          cases h1
      subst hab
      have hvw : v = w := by simpa [Cells.get?] using heq a
      subst hvw
      congr 1
      refine ih hs.2 hs'.2 (fun k => ?_)
      by_cases hk : a = k
      · subst hk
        rw [get_none (fun c hc => hs.1 c hc), get_none (fun c hc => hs'.1 c hc)]
      · simpa [Cells.get?, hk] using heq k

/-- A byte reads as it was last written, and no other byte changes. -/
@[simp] theorem Memory.read_write (m : List Host.Cell) (a b : Nat) (v : Byte) :
    Memory.read (Memory.write m a v) b = if a = b then v else Memory.read m b := by
  unfold Memory.read Memory.write
  split
  · rename_i hv
    rw [Cells.get?_erase]
    split
    · simp [hv]
    · rfl
  · rw [Cells.get?_put]
    split <;> simp

theorem Memory.read_write_same (m : List Host.Cell) (a : Nat) (v : Byte) : Memory.read (Memory.write m a v) a = v := by
  simp

theorem Memory.read_write_other (m : List Host.Cell) {a b : Nat} (v : Byte) (h : a ≠ b) :
    Memory.read (Memory.write m a v) b = Memory.read m b := by
  simp [h]

/-- Every write keeps the canonical form. -/
theorem Memory.wf_write {m : List Host.Cell} (h : Memory.wf m) (a : Nat) (v : Byte) :
    Memory.wf (Memory.write m a v) := by
  unfold Memory.write
  split
  · exact ⟨Cells.sorted_erase h.1 a, fun c hc => h.2 c (Cells.mem_erase hc)⟩
  · rename_i hv
    refine ⟨Cells.sorted_put h.1 a v, fun c hc => ?_⟩
    rcases Cells.mem_put hc with hc | hc
    · subst hc; exact hv
    · exact h.2 c hc

/-- A write lists no address but its own. -/
theorem Memory.mem_write {m : List Host.Cell} {a : Nat} {v : Byte} {c : Host.Cell} (h : c ∈ Memory.write m a v) :
    c.1 = a ∨ c ∈ m := by
  unfold Memory.write at h
  split at h
  · exact .inr (Cells.mem_erase h)
  · exact (Cells.mem_put h).imp_left (fun e => by rw [e])

/-- Canonical memories that read alike are the same list. -/
theorem Memory.ext_of_wf {m m' : List Host.Cell} (h : Memory.wf m) (h' : Memory.wf m')
    (heq : ∀ a, Memory.read m a = Memory.read m' a) : m = m' := by
  have listed : ∀ {r : List Host.Cell} {k : Nat} {v : Byte}, Memory.wf r → Cells.get? r k = some v →
      v ≠ Memory.unlisted := by
    intro r k v hr hg
    have hmem : (k, v) ∈ r := by
      have hsub := hr.1; clear hsub
      induction r with
      | nil => cases hg
      | cons c rest ih =>
        obtain ⟨a, w⟩ := c
        simp only [Cells.get?] at hg
        split at hg
        · rename_i hak; subst hak; injection hg with hg; subst hg; exact List.mem_cons_self
        · exact List.mem_cons_of_mem _ (ih ⟨(List.pairwise_cons.1 hr.1).2,
            fun c hc => hr.2 c (List.mem_cons_of_mem _ hc)⟩ hg)
    exact hr.2 _ hmem
  refine Cells.ext_of_sorted h.1 h'.1 (fun k => ?_)
  have hk := heq k
  unfold Memory.read at hk
  cases h1 : Cells.get? m k with
  | none =>
    cases h2 : Cells.get? m' k with
    | none => rfl
    | some w => rw [h1, h2] at hk; exact absurd hk.symm (listed h' h2)
  | some v =>
    cases h2 : Cells.get? m' k with
    | none => rw [h1, h2] at hk; exact absurd hk (listed h h1)
    | some w => rw [h1, h2] at hk; simpa using hk

/-- What a run of bytes stores. -/
theorem Memory.read_writeBytes (bytes : List Byte) (m : List Host.Cell) (a b : Nat) :
    Memory.read (Memory.writeBytes m a bytes) b =
      if a ≤ b ∧ b < a + bytes.length then bytes.getD (b - a) 0 else Memory.read m b := by
  induction bytes generalizing m a with
  | nil => simp [Memory.writeBytes]
  | cons v rest ih =>
    simp only [Memory.writeBytes, ih, Memory.read_write, List.length_cons]
    by_cases hab : a = b
    · subst hab; simp
    · by_cases hin : a + 1 ≤ b ∧ b < a + 1 + rest.length
      · have hsub : b - a = (b - (a + 1)) + 1 := by omega
        rw [if_pos hin, if_pos (by omega), hsub]; simp
      · rw [if_neg hin, if_neg hab, if_neg (by omega)]

theorem Memory.wf_writeBytes {m : List Host.Cell} (h : Memory.wf m) (a : Nat) (bytes : List Byte) :
    Memory.wf (Memory.writeBytes m a bytes) := by
  induction bytes generalizing m a with
  | nil => exact h
  | cons v rest ih => exact ih (Memory.wf_write h a v) (a + 1)

theorem Memory.mem_writeBytes {bytes : List Byte} {m : List Host.Cell} {a : Nat} {c : Host.Cell}
    (h : c ∈ Memory.writeBytes m a bytes) : (a ≤ c.1 ∧ c.1 < a + bytes.length) ∨ c ∈ m := by
  induction bytes generalizing m a with
  | nil => exact .inr h
  | cons v rest ih =>
    rcases ih h with h | h
    · left; simp only [List.length_cons]; omega
    · rcases Memory.mem_write h with h | h
      · left; simp only [List.length_cons]; omega
      · exact .inr h

/-- What a run of bytes reads. -/
theorem Memory.readBytes_eq (m : List Host.Cell) (a n : Nat) :
    Memory.readBytes m a n = (List.range n).map (fun k => Memory.read m (a + k)) := by
  induction n generalizing a with
  | zero => rfl
  | succ n ih =>
    rw [List.range_succ_eq_map, List.map_cons, List.map_map]
    simp only [Memory.readBytes, ih, Nat.add_zero]
    congr 1
    refine List.map_congr_left (fun k _ => ?_)
    simp only [Function.comp, Nat.succ_eq_add_one]
    congr 1; omega

end Sys2Proof.Machine
end

