-- ==== Sys2Proof/Laws/Port.lean ====
section
/-! SUPPORT. What the memory-port accesses and the loops can do, said once for the passes of every command. -/

namespace Sys2Proof.Machine

/-! ### One byte and two bytes -/

theorem portRead_ok {s : State} {a : Nat} (m : List Host.Cell) (h : portFails s a = false) :
    portRead s m a = .ok (Memory.read m a) := by
  simp [portRead, h]

theorem portWrite_ok {s : State} {a : Nat} (m : List Host.Cell) (v : Byte) (h : portFails s a = false) :
    portWrite s m a v = .ok (Memory.write m a v) := by
  simp [portWrite, h]

theorem memRead_one {s : State} {a : Nat} (m : List Host.Cell) (h : portFails s a = false) :
    memRead s m a 1 = .ok (Memory.read m a).toNat := by
  simp [memRead, portRead_ok m h, bind, Except.bind, pure, Except.pure]

/-- A 16-bit cell is little-endian (20_memory.md R57). -/
theorem memRead_two {s : State} {a : Nat} (m : List Host.Cell) (h : portFails s a = false)
    (h' : portFails s (a + 1) = false) :
    memRead s m a 2 = .ok ((Memory.read m a).toNat + 256 * (Memory.read m (a + 1)).toNat) := by
  simp [memRead, portRead_ok m h, portRead_ok m h', bind, Except.bind, pure, Except.pure]

theorem memWrite_one {s : State} {a : Nat} (m : List Host.Cell) (v : Nat) (h : portFails s a = false) :
    memWrite s m a 1 v = .ok (Memory.write m a (BitVec.ofNat 8 (v % 256))) := by
  simp [memWrite, portWrite_ok m _ h, bind, Except.bind]

theorem memWrite_two {s : State} {a : Nat} (m : List Host.Cell) (v : Nat) (h : portFails s a = false)
    (h' : portFails s (a + 1) = false) :
    memWrite s m a 2 v =
      .ok (Memory.write (Memory.write m a (BitVec.ofNat 8 (v % 256))) (a + 1) (BitVec.ofNat 8 (v / 256 % 256))) := by
  simp [memWrite, portWrite_ok _ _ h, portWrite_ok _ _ h', bind, Except.bind]

/-- A one-byte access at a failing address is the fault of R65. -/
theorem memRead_one_fault {s : State} {a : Nat} (m : List Host.Cell) (h : portFails s a = true) :
    memRead s m a 1 = .error .memPortFault := by
  simp [memRead, portRead, h, bind, Except.bind]

theorem memWrite_one_fault {s : State} {a : Nat} (m : List Host.Cell) (v : Nat) (h : portFails s a = true) :
    memWrite s m a 1 v = .error .memPortFault := by
  simp [memWrite, portWrite, h, bind, Except.bind]

/-! ### What holds of every access, whether or not it answers -/

/-- A write that answers keeps the canonical form and lists no address outside the bytes it stores. -/
theorem memWrite_keeps {s : State} {m m' : List Host.Cell} {a n v : Nat} (h : memWrite s m a n v = .ok m') :
    (Memory.wf m → Memory.wf m') ∧ (∀ c ∈ m', (a ≤ c.1 ∧ c.1 < a + n) ∨ c ∈ m) ∧
      (∀ b, (b < a ∨ a + n ≤ b) → Memory.read m' b = Memory.read m b) := by
  induction n generalizing m a v with
  | zero => cases h; exact ⟨id, fun c hc => .inr hc, fun _ _ => rfl⟩
  | succ n ih =>
    simp only [memWrite, portWrite, bind, Except.bind] at h
    split at h
    · cases h
    · rename_i m1 hm1
      split at hm1
      · cases hm1
      · cases hm1
        obtain ⟨h1, h2, h3⟩ := ih h
        refine ⟨fun hm => h1 (Memory.wf_write hm _ _), fun c hc => ?_, fun b hb => ?_⟩
        · rcases h2 c hc with hc | hc
          · left; omega
          · rcases Memory.mem_write hc with hc | hc
            · left; omega
            · exact .inr hc
        · rw [h3 b (by omega), Memory.read_write, if_neg (by omega)]

/-- The only error of a port read or write is the fault of R65. -/
theorem memRead_error {s : State} {m : List Host.Cell} {a n : Nat} {f : Fault} (h : memRead s m a n = .error f) :
    f = .memPortFault := by
  induction n generalizing a f with
  | zero => cases h
  | succ n ih =>
    simp only [memRead, portRead, bind, Except.bind] at h
    split at h
    · rename_i hp
      split at hp
      · cases hp; cases h; rfl
      · cases hp
    · split at h
      · rename_i hr; cases h; exact ih hr
      · cases h

theorem memWrite_error {s : State} {m : List Host.Cell} {a n v : Nat} {f : Fault}
    (h : memWrite s m a n v = .error f) : f = .memPortFault := by
  induction n generalizing m a v with
  | zero => cases h
  | succ n ih =>
    simp only [memWrite, portWrite, bind, Except.bind] at h
    split at h
    · rename_i hp
      split at hp
      · cases hp; cases h; rfl
      · cases hp
    · exact ih h

/-! ### Loops -/

section Loops

variable {body : Nat → List Host.Cell → Except Fault (List Host.Cell)} {n : Nat} {m : List Host.Cell}

@[simp] theorem forRange_zero : forRange body 0 m = .ok m := rfl

theorem forRange_succ : forRange body (n + 1) m = (forRange body n m).bind (body n) := rfl

/-- A loop whose body answers and carries an invariant from `k` to `k + 1` answers, and ends with the invariant at `n`. -/
theorem forRange_ok (P : Nat → List Host.Cell → Prop) (h0 : P 0 m)
    (hstep : ∀ k, k < n → ∀ m, P k m → ∃ m', body k m = .ok m' ∧ P (k + 1) m') :
    ∃ m', forRange body n m = .ok m' ∧ P n m' := by
  induction n with
  | zero => exact ⟨m, rfl, h0⟩
  | succ n ih =>
    obtain ⟨m1, h1, hp⟩ := ih (fun k hk => hstep k (by omega))
    obtain ⟨m2, h2, hp2⟩ := hstep n (by omega) m1 hp
    exact ⟨m2, by simp [forRange_succ, h1, h2, Except.bind], hp2⟩

/-- What every turn of a loop keeps, the loop keeps. -/
theorem forRange_keeps (P : List Host.Cell → Prop) (h0 : P m) {m' : List Host.Cell}
    (hstep : ∀ k, k < n → ∀ m m', body k m = .ok m' → P m → P m') (h : forRange body n m = .ok m') : P m' := by
  induction n generalizing m' with
  | zero => cases h; exact h0
  | succ n ih =>
    rw [forRange_succ] at h
    cases h1 : forRange body n m with
    | error f => rw [h1] at h; cases h
    | ok m1 =>
      rw [h1] at h
      exact hstep n (by omega) m1 m' h (ih (fun k hk => hstep k (by omega)) h1)

/-- A loop that stops was stopped by one of its turns. -/
theorem forRange_error {f : Fault} (h : forRange body n m = .error f) :
    ∃ k, k < n ∧ ∃ m1, forRange body k m = .ok m1 ∧ body k m1 = .error f := by
  induction n with
  | zero => cases h
  | succ n ih =>
    rw [forRange_succ] at h
    cases h1 : forRange body n m with
    | error f' =>
      rw [h1] at h; cases h
      obtain ⟨k, hk, rest⟩ := ih h1
      exact ⟨k, by omega, rest⟩
    | ok m1 => rw [h1] at h; exact ⟨n, by omega, m1, h1, h⟩

/-- A loop that answers was answered by each of its turns. -/
theorem forRange_turns {m' : List Host.Cell} (h : forRange body n m = .ok m') {k : Nat} (hk : k < n) :
    ∃ m1 m2, forRange body k m = .ok m1 ∧ body k m1 = .ok m2 := by
  induction n generalizing m' with
  | zero => omega
  | succ n ih =>
    rw [forRange_succ] at h
    cases h1 : forRange body n m with
    | error f => rw [h1] at h; cases h
    | ok m1 =>
      rw [h1] at h
      by_cases hkn : k = n
      · subst hkn; exact ⟨m1, m', h1, h⟩
      · exact ih h1 (by omega)

end Loops

/-! ### Buffers filled in address order -/

/-- Memory `m` is `m0` with the first `n` bytes from `dst` on replaced by `out 0 … out (n-1)`. -/
def Filled (m0 : List Host.Cell) (dst : Nat) (out : Nat → Byte) (n : Nat) (m : List Host.Cell) : Prop :=
  ∀ a, Memory.read m a = if dst ≤ a ∧ a < dst + n then out (a - dst) else Memory.read m0 a

theorem Filled_zero (m0 : List Host.Cell) (dst : Nat) (out : Nat → Byte) : Filled m0 dst out 0 m0 := by
  intro a; rw [if_neg (by omega)]

theorem Filled_write {m0 m : List Host.Cell} {dst n : Nat} {out : Nat → Byte} {v : Byte} (h : Filled m0 dst out n m)
    (hv : out n = v) : Filled m0 dst out (n + 1) (Memory.write m (dst + n) v) := by
  intro a
  rw [Memory.read_write]
  by_cases ha : dst + n = a
  · subst ha; rw [if_pos rfl, if_pos (by omega)]; simp [hv]
  · rw [if_neg ha, h a]
    by_cases hin : dst ≤ a ∧ a < dst + n
    · rw [if_pos hin, if_pos (by omega)]
    · rw [if_neg hin, if_neg (by omega)]

/-- Outside the buffer, a memory being filled reads as at the start. -/
theorem Filled_outside {m0 m : List Host.Cell} {dst n : Nat} {out : Nat → Byte} (h : Filled m0 dst out n m) {a : Nat}
    (ha : a < dst ∨ dst + n ≤ a) : Memory.read m a = Memory.read m0 a := by
  rw [h a, if_neg (by omega)]

end Sys2Proof.Machine
end

