-- ==== Sys2Proof/Laws/State.lean ====
section
/-! SUPPORT. What each update of the state leaves in each field. -/

namespace Sys2Proof.Machine

/-! ### failWith -/

@[simp] theorem failWith_build (e : CmdError) (s : State) : (failWith e s).build = s.build := rfl
@[simp] theorem failWith_ctrl (e : CmdError) (s : State) : (failWith e s).ctrl = s.ctrl := rfl
@[simp] theorem failWith_done (e : CmdError) (s : State) : (failWith e s).done = true := rfl
@[simp] theorem failWith_err (e : CmdError) (s : State) : (failWith e s).err = true := rfl
@[simp] theorem failWith_ign (e : CmdError) (s : State) : (failWith e s).ign = s.ign := rfl
@[simp] theorem failWith_errCode (e : CmdError) (s : State) : (failWith e s).errCode = errorCode e := rfl
@[simp] theorem failWith_irqEn (e : CmdError) (s : State) : (failWith e s).irqEn = s.irqEn := rfl
@[simp] theorem failWith_width (e : CmdError) (s : State) : (failWith e s).width = s.width := rfl
@[simp] theorem failWith_height (e : CmdError) (s : State) : (failWith e s).height = s.height := rfl
@[simp] theorem failWith_srcAddr (e : CmdError) (s : State) : (failWith e s).srcAddr = s.srcAddr := rfl
@[simp] theorem failWith_srcLen (e : CmdError) (s : State) : (failWith e s).srcLen = s.srcLen := rfl
@[simp] theorem failWith_dstAddr (e : CmdError) (s : State) : (failWith e s).dstAddr = s.dstAddr := rfl
@[simp] theorem failWith_dstLen (e : CmdError) (s : State) : (failWith e s).dstLen = s.dstLen := rfl
@[simp] theorem failWith_lutReady (e : CmdError) (s : State) : (failWith e s).lutReady = s.lutReady := rfl
@[simp] theorem failWith_lutIdx (e : CmdError) (s : State) : (failWith e s).lutIdx = s.lutIdx := rfl
@[simp] theorem failWith_lutCh (e : CmdError) (s : State) : (failWith e s).lutCh = s.lutCh := rfl
@[simp] theorem failWith_lut (e : CmdError) (s : State) : (failWith e s).lut = s.lut := rfl
@[simp] theorem failWith_engine (e : CmdError) (s : State) : (failWith e s).engine = .idle := rfl
@[simp] theorem failWith_mem (e : CmdError) (s : State) : (failWith e s).mem = s.mem := rfl
@[simp] theorem failWith_portErrors (e : CmdError) (s : State) : (failWith e s).portErrors = s.portErrors := rfl
@[simp] theorem failWith_turns (e : CmdError) (s : State) : (failWith e s).turns = s.turns := rfl
@[simp] theorem failWith_program (e : CmdError) (s : State) : (failWith e s).program = s.program := rfl
@[simp] theorem failWith_observed (e : CmdError) (s : State) : (failWith e s).observed = s.observed := rfl
@[simp] theorem failWith_draws (e : CmdError) (s : State) : (failWith e s).draws = s.draws := rfl

/-! ### completeWith -/

@[simp] theorem completeWith_build (m : List Host.Cell) (s : State) : (completeWith m s).build = s.build := rfl
@[simp] theorem completeWith_ctrl (m : List Host.Cell) (s : State) : (completeWith m s).ctrl = s.ctrl := rfl
@[simp] theorem completeWith_done (m : List Host.Cell) (s : State) : (completeWith m s).done = true := rfl
@[simp] theorem completeWith_err (m : List Host.Cell) (s : State) : (completeWith m s).err = false := rfl
@[simp] theorem completeWith_ign (m : List Host.Cell) (s : State) : (completeWith m s).ign = s.ign := rfl
@[simp] theorem completeWith_errCode (m : List Host.Cell) (s : State) : (completeWith m s).errCode = 0 := rfl
@[simp] theorem completeWith_irqEn (m : List Host.Cell) (s : State) : (completeWith m s).irqEn = s.irqEn := rfl
@[simp] theorem completeWith_width (m : List Host.Cell) (s : State) : (completeWith m s).width = s.width := rfl
@[simp] theorem completeWith_height (m : List Host.Cell) (s : State) : (completeWith m s).height = s.height := rfl
@[simp] theorem completeWith_srcAddr (m : List Host.Cell) (s : State) : (completeWith m s).srcAddr = s.srcAddr := rfl
@[simp] theorem completeWith_srcLen (m : List Host.Cell) (s : State) : (completeWith m s).srcLen = s.srcLen := rfl
@[simp] theorem completeWith_dstAddr (m : List Host.Cell) (s : State) : (completeWith m s).dstAddr = s.dstAddr := rfl
@[simp] theorem completeWith_dstLen (m : List Host.Cell) (s : State) : (completeWith m s).dstLen = s.dstLen := rfl
@[simp] theorem completeWith_lutReady (m : List Host.Cell) (s : State) : (completeWith m s).lutReady = s.lutReady := rfl
@[simp] theorem completeWith_lutIdx (m : List Host.Cell) (s : State) : (completeWith m s).lutIdx = s.lutIdx := rfl
@[simp] theorem completeWith_lutCh (m : List Host.Cell) (s : State) : (completeWith m s).lutCh = s.lutCh := rfl
@[simp] theorem completeWith_lut (m : List Host.Cell) (s : State) : (completeWith m s).lut = s.lut := rfl
@[simp] theorem completeWith_engine (m : List Host.Cell) (s : State) : (completeWith m s).engine = .idle := rfl
@[simp] theorem completeWith_mem (m : List Host.Cell) (s : State) : (completeWith m s).mem = m := rfl
@[simp] theorem completeWith_portErrors (m : List Host.Cell) (s : State) : (completeWith m s).portErrors = s.portErrors := rfl
@[simp] theorem completeWith_turns (m : List Host.Cell) (s : State) : (completeWith m s).turns = s.turns := rfl
@[simp] theorem completeWith_program (m : List Host.Cell) (s : State) : (completeWith m s).program = s.program := rfl
@[simp] theorem completeWith_observed (m : List Host.Cell) (s : State) : (completeWith m s).observed = s.observed := rfl
@[simp] theorem completeWith_draws (m : List Host.Cell) (s : State) : (completeWith m s).draws = s.draws := rfl

/-! ### launch -/

@[simp] theorem launch_build (v : Word) (s : State) : (launch v s).build = s.build := rfl
@[simp] theorem launch_ctrl (v : Word) (s : State) : (launch v s).ctrl = v &&& 0x7FFFFFFF#32 := rfl
@[simp] theorem launch_done (v : Word) (s : State) : (launch v s).done = false := rfl
@[simp] theorem launch_err (v : Word) (s : State) : (launch v s).err = false := rfl
@[simp] theorem launch_ign (v : Word) (s : State) : (launch v s).ign = s.ign := rfl
@[simp] theorem launch_errCode (v : Word) (s : State) : (launch v s).errCode = 0 := rfl
@[simp] theorem launch_irqEn (v : Word) (s : State) : (launch v s).irqEn = s.irqEn := rfl
@[simp] theorem launch_width (v : Word) (s : State) : (launch v s).width = s.width := rfl
@[simp] theorem launch_height (v : Word) (s : State) : (launch v s).height = s.height := rfl
@[simp] theorem launch_srcAddr (v : Word) (s : State) : (launch v s).srcAddr = s.srcAddr := rfl
@[simp] theorem launch_srcLen (v : Word) (s : State) : (launch v s).srcLen = s.srcLen := rfl
@[simp] theorem launch_dstAddr (v : Word) (s : State) : (launch v s).dstAddr = s.dstAddr := rfl
@[simp] theorem launch_dstLen (v : Word) (s : State) : (launch v s).dstLen = s.dstLen := rfl
@[simp] theorem launch_lutReady (v : Word) (s : State) : (launch v s).lutReady = s.lutReady := rfl
@[simp] theorem launch_lutIdx (v : Word) (s : State) : (launch v s).lutIdx = s.lutIdx := rfl
@[simp] theorem launch_lutCh (v : Word) (s : State) : (launch v s).lutCh = s.lutCh := rfl
@[simp] theorem launch_lut (v : Word) (s : State) : (launch v s).lut = s.lut := rfl
@[simp] theorem launch_engine (v : Word) (s : State) : (launch v s).engine = .busy v := rfl
@[simp] theorem launch_mem (v : Word) (s : State) : (launch v s).mem = s.mem := rfl
@[simp] theorem launch_portErrors (v : Word) (s : State) : (launch v s).portErrors = s.portErrors := rfl
@[simp] theorem launch_turns (v : Word) (s : State) : (launch v s).turns = s.turns := rfl
@[simp] theorem launch_program (v : Word) (s : State) : (launch v s).program = s.program := rfl
@[simp] theorem launch_observed (v : Word) (s : State) : (launch v s).observed = s.observed := rfl
@[simp] theorem launch_draws (v : Word) (s : State) : (launch v s).draws = s.draws := rfl

/-! ### setIgnored -/

@[simp] theorem setIgnored_build (s : State) : (setIgnored s).build = s.build := rfl
@[simp] theorem setIgnored_ctrl (s : State) : (setIgnored s).ctrl = s.ctrl := rfl
@[simp] theorem setIgnored_done (s : State) : (setIgnored s).done = s.done := rfl
@[simp] theorem setIgnored_err (s : State) : (setIgnored s).err = s.err := rfl
@[simp] theorem setIgnored_ign (s : State) : (setIgnored s).ign = true := rfl
@[simp] theorem setIgnored_errCode (s : State) : (setIgnored s).errCode = s.errCode := rfl
@[simp] theorem setIgnored_irqEn (s : State) : (setIgnored s).irqEn = s.irqEn := rfl
@[simp] theorem setIgnored_width (s : State) : (setIgnored s).width = s.width := rfl
@[simp] theorem setIgnored_height (s : State) : (setIgnored s).height = s.height := rfl
@[simp] theorem setIgnored_srcAddr (s : State) : (setIgnored s).srcAddr = s.srcAddr := rfl
@[simp] theorem setIgnored_srcLen (s : State) : (setIgnored s).srcLen = s.srcLen := rfl
@[simp] theorem setIgnored_dstAddr (s : State) : (setIgnored s).dstAddr = s.dstAddr := rfl
@[simp] theorem setIgnored_dstLen (s : State) : (setIgnored s).dstLen = s.dstLen := rfl
@[simp] theorem setIgnored_lutReady (s : State) : (setIgnored s).lutReady = s.lutReady := rfl
@[simp] theorem setIgnored_lutIdx (s : State) : (setIgnored s).lutIdx = s.lutIdx := rfl
@[simp] theorem setIgnored_lutCh (s : State) : (setIgnored s).lutCh = s.lutCh := rfl
@[simp] theorem setIgnored_lut (s : State) : (setIgnored s).lut = s.lut := rfl
@[simp] theorem setIgnored_engine (s : State) : (setIgnored s).engine = s.engine := rfl
@[simp] theorem setIgnored_mem (s : State) : (setIgnored s).mem = s.mem := rfl
@[simp] theorem setIgnored_portErrors (s : State) : (setIgnored s).portErrors = s.portErrors := rfl
@[simp] theorem setIgnored_turns (s : State) : (setIgnored s).turns = s.turns := rfl
@[simp] theorem setIgnored_program (s : State) : (setIgnored s).program = s.program := rfl
@[simp] theorem setIgnored_observed (s : State) : (setIgnored s).observed = s.observed := rfl
@[simp] theorem setIgnored_draws (s : State) : (setIgnored s).draws = s.draws := rfl

/-! ### popTurn -/

@[simp] theorem popTurn_build (s : State) : (popTurn s).build = s.build := rfl
@[simp] theorem popTurn_ctrl (s : State) : (popTurn s).ctrl = s.ctrl := rfl
@[simp] theorem popTurn_done (s : State) : (popTurn s).done = s.done := rfl
@[simp] theorem popTurn_err (s : State) : (popTurn s).err = s.err := rfl
@[simp] theorem popTurn_ign (s : State) : (popTurn s).ign = s.ign := rfl
@[simp] theorem popTurn_errCode (s : State) : (popTurn s).errCode = s.errCode := rfl
@[simp] theorem popTurn_irqEn (s : State) : (popTurn s).irqEn = s.irqEn := rfl
@[simp] theorem popTurn_width (s : State) : (popTurn s).width = s.width := rfl
@[simp] theorem popTurn_height (s : State) : (popTurn s).height = s.height := rfl
@[simp] theorem popTurn_srcAddr (s : State) : (popTurn s).srcAddr = s.srcAddr := rfl
@[simp] theorem popTurn_srcLen (s : State) : (popTurn s).srcLen = s.srcLen := rfl
@[simp] theorem popTurn_dstAddr (s : State) : (popTurn s).dstAddr = s.dstAddr := rfl
@[simp] theorem popTurn_dstLen (s : State) : (popTurn s).dstLen = s.dstLen := rfl
@[simp] theorem popTurn_lutReady (s : State) : (popTurn s).lutReady = s.lutReady := rfl
@[simp] theorem popTurn_lutIdx (s : State) : (popTurn s).lutIdx = s.lutIdx := rfl
@[simp] theorem popTurn_lutCh (s : State) : (popTurn s).lutCh = s.lutCh := rfl
@[simp] theorem popTurn_lut (s : State) : (popTurn s).lut = s.lut := rfl
@[simp] theorem popTurn_engine (s : State) : (popTurn s).engine = s.engine := rfl
@[simp] theorem popTurn_mem (s : State) : (popTurn s).mem = s.mem := rfl
@[simp] theorem popTurn_portErrors (s : State) : (popTurn s).portErrors = s.portErrors := rfl
@[simp] theorem popTurn_turns (s : State) : (popTurn s).turns = s.turns.tail := rfl
@[simp] theorem popTurn_program (s : State) : (popTurn s).program = s.program := rfl
@[simp] theorem popTurn_observed (s : State) : (popTurn s).observed = s.observed := rfl
@[simp] theorem popTurn_draws (s : State) : (popTurn s).draws = s.draws := rfl

/-! ### observe -/

@[simp] theorem observe_build (o : Observation) (s : State) : (observe o s).build = s.build := rfl
@[simp] theorem observe_ctrl (o : Observation) (s : State) : (observe o s).ctrl = s.ctrl := rfl
@[simp] theorem observe_done (o : Observation) (s : State) : (observe o s).done = s.done := rfl
@[simp] theorem observe_err (o : Observation) (s : State) : (observe o s).err = s.err := rfl
@[simp] theorem observe_ign (o : Observation) (s : State) : (observe o s).ign = s.ign := rfl
@[simp] theorem observe_errCode (o : Observation) (s : State) : (observe o s).errCode = s.errCode := rfl
@[simp] theorem observe_irqEn (o : Observation) (s : State) : (observe o s).irqEn = s.irqEn := rfl
@[simp] theorem observe_width (o : Observation) (s : State) : (observe o s).width = s.width := rfl
@[simp] theorem observe_height (o : Observation) (s : State) : (observe o s).height = s.height := rfl
@[simp] theorem observe_srcAddr (o : Observation) (s : State) : (observe o s).srcAddr = s.srcAddr := rfl
@[simp] theorem observe_srcLen (o : Observation) (s : State) : (observe o s).srcLen = s.srcLen := rfl
@[simp] theorem observe_dstAddr (o : Observation) (s : State) : (observe o s).dstAddr = s.dstAddr := rfl
@[simp] theorem observe_dstLen (o : Observation) (s : State) : (observe o s).dstLen = s.dstLen := rfl
@[simp] theorem observe_lutReady (o : Observation) (s : State) : (observe o s).lutReady = s.lutReady := rfl
@[simp] theorem observe_lutIdx (o : Observation) (s : State) : (observe o s).lutIdx = s.lutIdx := rfl
@[simp] theorem observe_lutCh (o : Observation) (s : State) : (observe o s).lutCh = s.lutCh := rfl
@[simp] theorem observe_lut (o : Observation) (s : State) : (observe o s).lut = s.lut := rfl
@[simp] theorem observe_engine (o : Observation) (s : State) : (observe o s).engine = s.engine := rfl
@[simp] theorem observe_mem (o : Observation) (s : State) : (observe o s).mem = s.mem := rfl
@[simp] theorem observe_portErrors (o : Observation) (s : State) : (observe o s).portErrors = s.portErrors := rfl
@[simp] theorem observe_turns (o : Observation) (s : State) : (observe o s).turns = s.turns := rfl
@[simp] theorem observe_program (o : Observation) (s : State) : (observe o s).program = s.program := rfl
@[simp] theorem observe_observed (o : Observation) (s : State) : (observe o s).observed = o :: s.observed := rfl
@[simp] theorem observe_draws (o : Observation) (s : State) : (observe o s).draws = s.draws := rfl

/-! ### writeStatus -/

@[simp] theorem writeStatus_build (v : Word) (s : State) : (writeStatus v s).build = s.build := rfl
@[simp] theorem writeStatus_ctrl (v : Word) (s : State) : (writeStatus v s).ctrl = s.ctrl := rfl
@[simp] theorem writeStatus_done (v : Word) (s : State) : (writeStatus v s).done = (s.done && !v.getLsbD 1) := rfl
@[simp] theorem writeStatus_err (v : Word) (s : State) : (writeStatus v s).err = (s.err && !v.getLsbD 2) := rfl
@[simp] theorem writeStatus_ign (v : Word) (s : State) : (writeStatus v s).ign = (s.ign && !v.getLsbD 3) := rfl
@[simp] theorem writeStatus_errCode (v : Word) (s : State) : (writeStatus v s).errCode = (if v.getLsbD 2 then 0 else s.errCode) := rfl
@[simp] theorem writeStatus_irqEn (v : Word) (s : State) : (writeStatus v s).irqEn = s.irqEn := rfl
@[simp] theorem writeStatus_width (v : Word) (s : State) : (writeStatus v s).width = s.width := rfl
@[simp] theorem writeStatus_height (v : Word) (s : State) : (writeStatus v s).height = s.height := rfl
@[simp] theorem writeStatus_srcAddr (v : Word) (s : State) : (writeStatus v s).srcAddr = s.srcAddr := rfl
@[simp] theorem writeStatus_srcLen (v : Word) (s : State) : (writeStatus v s).srcLen = s.srcLen := rfl
@[simp] theorem writeStatus_dstAddr (v : Word) (s : State) : (writeStatus v s).dstAddr = s.dstAddr := rfl
@[simp] theorem writeStatus_dstLen (v : Word) (s : State) : (writeStatus v s).dstLen = s.dstLen := rfl
@[simp] theorem writeStatus_lutReady (v : Word) (s : State) : (writeStatus v s).lutReady = s.lutReady := rfl
@[simp] theorem writeStatus_lutIdx (v : Word) (s : State) : (writeStatus v s).lutIdx = s.lutIdx := rfl
@[simp] theorem writeStatus_lutCh (v : Word) (s : State) : (writeStatus v s).lutCh = s.lutCh := rfl
@[simp] theorem writeStatus_lut (v : Word) (s : State) : (writeStatus v s).lut = s.lut := rfl
@[simp] theorem writeStatus_engine (v : Word) (s : State) : (writeStatus v s).engine = s.engine := rfl
@[simp] theorem writeStatus_mem (v : Word) (s : State) : (writeStatus v s).mem = s.mem := rfl
@[simp] theorem writeStatus_portErrors (v : Word) (s : State) : (writeStatus v s).portErrors = s.portErrors := rfl
@[simp] theorem writeStatus_turns (v : Word) (s : State) : (writeStatus v s).turns = s.turns := rfl
@[simp] theorem writeStatus_program (v : Word) (s : State) : (writeStatus v s).program = s.program := rfl
@[simp] theorem writeStatus_observed (v : Word) (s : State) : (writeStatus v s).observed = s.observed := rfl
@[simp] theorem writeStatus_draws (v : Word) (s : State) : (writeStatus v s).draws = s.draws := rfl
end Sys2Proof.Machine
end

