-- ==== Sys2Proof/Laws/Passes.lean ====
section
/-! SUPPORT. What each command's pass over memory does, once: it answers on a clean port, it fills its destination with the
bytes its rule gives, and it changes nothing else. -/

namespace Sys2Proof.Machine

/-! ### Shared arithmetic -/

theorem div_row {w y x : Nat} (hx : x < w) : (y * w + x) / w = y := by
  rw [Nat.add_comm, Nat.mul_comm, Nat.add_mul_div_left _ _ (by omega), Nat.div_eq_of_lt hx, Nat.zero_add]

theorem mod_row {w y x : Nat} (hx : x < w) : (y * w + x) % w = x := by
  rw [Nat.add_comm, Nat.mul_comm, Nat.add_mul_mod_self_left, Nat.mod_eq_of_lt hx]

/-- Element `x` of row `y` lies before the end of `h` rows of `w`. -/
theorem row_lt {w h y x : Nat} (hx : x < w) (hy : y < h) : y * w + x < w * h := by
  have h1 : (y + 1) * w ≤ h * w := Nat.mul_le_mul_right w hy
  rw [Nat.add_mul, Nat.one_mul] at h1
  rw [Nat.mul_comm w h]; omega

/-- A packed byte of a legal frame lies in the source region (41_unpack.md R93). -/
theorem packed_lt {s : State} (hw : frameW s % 8 = 0) {y g b : Nat} (hy : y < frameH s) (hg : g < frameW s / 4)
    (hb : b < 5) : y * frameS s + 5 * g + b < frameS s * frameH s := by
  have h1 : 5 * g + b < frameS s := Nat.lt_of_lt_of_le (by omega) (stride_covers hw)
  have := row_lt h1 hy
  omega

/-! ### UNPACK -/

/-- The value of cell `n` of the mosaic (41_unpack.md R90–R92), read from memory `m`. -/
def unpackCell (s : State) (m : List Host.Cell) (n : Nat) : Nat :=
  let y := n / frameW s
  let x := n % frameW s
  let j := srcBase s + (y * frameS s + 5 * (x / 4))
  groupSample (Memory.read m (j + x % 4)).toNat (Memory.read m (j + 4)).toNat (x % 4)

/-- Byte `d` of the mosaic. -/
def unpackByte (s : State) (m : List Host.Cell) (d : Nat) : Byte :=
  if d % 2 = 0 then BitVec.ofNat 8 (unpackCell s m (d / 2) % 256)
  else BitVec.ofNat 8 (unpackCell s m (d / 2) / 256 % 256)

theorem unpackByte_low (s : State) (m : List Host.Cell) (n : Nat) :
    unpackByte s m (2 * n) = BitVec.ofNat 8 (unpackCell s m n % 256) := by
  simp [unpackByte]

theorem unpackByte_high (s : State) (m : List Host.Cell) (n : Nat) :
    unpackByte s m (2 * n + 1) = BitVec.ofNat 8 (unpackCell s m n / 256 % 256) := by
  have h2 : (2 * n + 1) / 2 = n := by omega
  simp [unpackByte, h2]

/-- Storing cell `n` moves the filled part on by its two bytes. -/
theorem Filled_cell {s : State} {m0 m : List Host.Cell} {dst n v : Nat}
    (h : Filled m0 dst (unpackByte s m0) (2 * n) m) (hv : unpackCell s m0 n = v)
    (hc : ∀ a, dst ≤ a → a < dst + 2 * (n + 1) → portFails s a = false) :
    ∃ m', memWrite s m (dst + 2 * n) 2 v = .ok m' ∧ Filled m0 dst (unpackByte s m0) (2 * (n + 1)) m' := by
  refine ⟨_, memWrite_two m v (hc _ (by omega) (by omega)) (hc _ (by omega) (by omega)), ?_⟩
  have h1 := Filled_write h (unpackByte_low s m0 n)
  have h2 := Filled_write h1 (unpackByte_high s m0 n)
  rw [hv] at h2
  exact h2

theorem unpackCell_group {s : State} (m : List Host.Cell) {y g i : Nat} (hw : frameW s % 8 = 0) (hg : g < frameW s / 4)
    (hi : i < 4) :
    unpackCell s m (y * frameW s + 4 * g + i) =
      groupSample (Memory.read m (srcBase s + (y * frameS s + 5 * g) + i)).toNat
        (Memory.read m (srcBase s + (y * frameS s + 5 * g) + 4)).toNat i := by
  have hx : 4 * g + i < frameW s := by omega
  have e1 : y * frameW s + 4 * g + i = y * frameW s + (4 * g + i) := by omega
  simp only [unpackCell, e1, div_row hx, mod_row hx]
  have e2 : (4 * g + i) / 4 = g := by omega
  have e3 : (4 * g + i) % 4 = i := by omega
  rw [e2, e3]

theorem unpackGroup_ok {s : State} {m0 m : List Host.Cell} {y g : Nat} (ha : Accepted .unpack s)
    (hc : PortClean .unpack s) (hy : y < frameH s) (hg : g < frameW s / 4)
    (h : Filled m0 (dstBase s) (unpackByte s m0) (2 * (y * frameW s + 4 * g)) m) :
    ∃ m', unpackGroup s y g m = .ok m' ∧
      Filled m0 (dstBase s) (unpackByte s m0) (2 * (y * frameW s + 4 * (g + 1))) m' := by
  have hw : frameW s % 8 = 0 := ha.width_mod rfl
  have hbound : y * frameW s + 4 * g + 4 ≤ frameW s * frameH s := by
    have := row_lt (w := frameW s) (x := 4 * g + 3) (by omega) hy
    omega
  have hneed : needDst .unpack s = 2 * frameW s * frameH s := rfl
  have hmul : 2 * frameW s * frameH s = 2 * (frameW s * frameH s) := Nat.mul_assoc ..
  have hdst : ∀ a, dstBase s ≤ a → a < dstBase s + 2 * (y * frameW s + 4 * g + 4) → portFails s a = false := by
    intro a h1 h2
    refine hc a (.inr ?_)
    rw [dst_contains_iff, hneed, hmul]; omega
  have hsrc : ∀ b, b < 5 →
      portFails s (srcBase s + (y * frameS s + 5 * g) + b) = false ∧
      Memory.read m (srcBase s + (y * frameS s + 5 * g) + b) =
        Memory.read m0 (srcBase s + (y * frameS s + 5 * g) + b) := by
    intro b hb
    refine ⟨hc _ (.inl ⟨y, g, b, hy, hg, hb, by omega⟩), Filled_outside h ?_⟩
    have h1 := packed_lt hw hy hg hb
    have h2 := ha.disjoint _ rfl
    rw [hneed, hmul] at h2
    omega
  have hr : ∀ b, b < 5 → memRead s m (srcBase s + (y * frameS s + 5 * g) + b) 1 =
      .ok (Memory.read m0 (srcBase s + (y * frameS s + 5 * g) + b)).toNat := by
    intro b hb
    rw [memRead_one m (hsrc b hb).1, (hsrc b hb).2]
  have hcell : ∀ i, i < 4 → unpackCell s m0 (y * frameW s + 4 * g + i) = groupSample
      (Memory.read m0 (srcBase s + (y * frameS s + 5 * g) + i)).toNat
      (Memory.read m0 (srcBase s + (y * frameS s + 5 * g) + 4)).toNat i :=
    fun i hi => unpackCell_group m0 hw hg hi
  obtain ⟨m1, e1, f1⟩ := Filled_cell (n := y * frameW s + 4 * g + 0) h (hcell 0 (by omega))
    (fun a h1 h2 => hdst a h1 (by omega))
  obtain ⟨m2, e2, f2⟩ := Filled_cell (n := y * frameW s + 4 * g + 1) f1 (hcell 1 (by omega))
    (fun a h1 h2 => hdst a h1 (by omega))
  obtain ⟨m3, e3, f3⟩ := Filled_cell (n := y * frameW s + 4 * g + 2) f2 (hcell 2 (by omega))
    (fun a h1 h2 => hdst a h1 (by omega))
  obtain ⟨m4, e4, f4⟩ := Filled_cell (n := y * frameW s + 4 * g + 3) f3 (hcell 3 (by omega))
    (fun a h1 h2 => hdst a h1 (by omega))
  refine ⟨m4, ?_, f4⟩
  simp only [unpackGroup, Config.groupBytes, Config.groupSamples, hr 0 (by omega), hr 1 (by omega), hr 2 (by omega),
    hr 3 (by omega), hr 4 (by omega), bind, Except.bind, e1, e2, e3, e4]

/-- UNPACK's pass on a clean port fills the mosaic and nothing else (41_unpack.md R91, R92). -/
theorem unpackPass_ok {s : State} (m0 : List Host.Cell) (ha : Accepted .unpack s) (hc : PortClean .unpack s) :
    ∃ m', unpackPass s m0 = .ok m' ∧
      Filled m0 (dstBase s) (unpackByte s m0) (2 * (frameW s * frameH s)) m' := by
  have hw : frameW s % 8 = 0 := ha.width_mod rfl
  obtain ⟨m', h, hf⟩ := forRange_ok (m := m0) (n := frameH s)
    (body := fun y => forRange (fun g => unpackGroup s y g) (frameW s / 4))
    (fun y m => Filled m0 (dstBase s) (unpackByte s m0) (2 * (y * frameW s)) m)
    (by simpa using Filled_zero m0 (dstBase s) (unpackByte s m0))
    (fun y hy m hm => by
      obtain ⟨m2, h2, hf2⟩ := forRange_ok (m := m) (n := frameW s / 4) (body := fun g => unpackGroup s y g)
        (fun g m => Filled m0 (dstBase s) (unpackByte s m0) (2 * (y * frameW s + 4 * g)) m)
        (by simpa using hm) (fun g hg m hm => unpackGroup_ok ha hc hy hg hm)
      refine ⟨m2, h2, ?_⟩
      have : y * frameW s + 4 * (frameW s / 4) = (y + 1) * frameW s := by
        rw [Nat.add_mul, Nat.one_mul]; omega
      simpa only [this] using hf2)
  exact ⟨m', h, by rwa [Nat.mul_comm (frameW s)]⟩

/-! ### PREVIEW -/

/-- Byte `d` of the preview (42_preview.md R96, R97), read from memory `m`. -/
def previewByte (s : State) (m : List Host.Cell) (d : Nat) : Byte :=
  let j := srcBase s + (4 * (d / 3 / previewW s) * frameS s + 5 * (d / 3 % previewW s))
  if d % 3 = 0 then Memory.read m j
  else if d % 3 = 1 then Memory.read m (j + 1)
  else Memory.read m (j + frameS s + 1)

theorem byte_ofNat_toNat (b : Byte) : BitVec.ofNat 8 (b.toNat % 256) = b := by
  rw [Nat.mod_eq_of_lt b.isLt, BitVec.ofNat_toNat, BitVec.setWidth_eq]

/-- Storing the next byte of a buffer moves its filled part on by one. -/
theorem Filled_byte {s : State} {m0 m : List Host.Cell} {dst n v : Nat} {out : Nat → Byte} (h : Filled m0 dst out n m)
    (hv : out n = BitVec.ofNat 8 (v % 256)) (hc : portFails s (dst + n) = false) :
    ∃ m', memWrite s m (dst + n) 1 v = .ok m' ∧ Filled m0 dst out (n + 1) m' :=
  ⟨_, memWrite_one m v hc, Filled_write h hv⟩

theorem previewByte_pixel {s : State} (m : List Host.Cell) {r gx ch : Nat} (hg : gx < previewW s) (hch : ch < 3) :
    previewByte s m (3 * (r * previewW s + gx) + ch) =
      if ch = 0 then Memory.read m (srcBase s + (4 * r * frameS s + 5 * gx))
      else if ch = 1 then Memory.read m (srcBase s + (4 * r * frameS s + 5 * gx) + 1)
      else Memory.read m (srcBase s + (4 * r * frameS s + 5 * gx) + frameS s + 1) := by
  have e1 : (3 * (r * previewW s + gx) + ch) / 3 = r * previewW s + gx := by omega
  have e2 : (3 * (r * previewW s + gx) + ch) % 3 = ch := by omega
  simp only [previewByte, e1, e2, div_row hg, mod_row hg]

/-- The three bytes of a preview pixel lie in the source region (R98). -/
theorem preview_lt {s : State} (hw : frameW s % 8 = 0) (hh : frameH s % 4 = 0) {r gx : Nat} (hr : r < frameH s / 4)
    (hg : gx < frameW s / 4) : 4 * r * frameS s + 5 * gx + frameS s + 1 < frameS s * frameH s := by
  have h1 := packed_lt (s := s) hw (y := 4 * r + 1) (g := gx) (b := 1) (by omega) hg (by omega)
  rw [Nat.add_mul, Nat.one_mul] at h1
  omega

theorem previewPixel_ok {s : State} {m0 m : List Host.Cell} {r gx : Nat} (ha : Accepted .preview s)
    (hc : PortClean .preview s) (hr : r < previewH s) (hg : gx < previewW s)
    (h : Filled m0 (dstBase s) (previewByte s m0) (3 * (r * previewW s + gx)) m) :
    ∃ m', previewPixel s r gx m = .ok m' ∧
      Filled m0 (dstBase s) (previewByte s m0) (3 * (r * previewW s + (gx + 1))) m' := by
  have hw : frameW s % 8 = 0 := ha.width_mod rfl
  have hh : frameH s % 4 = 0 := ha.height_mod rfl
  have hneed : needDst .preview s = 3 * (previewW s * previewH s) := Nat.mul_assoc ..
  have hrow := row_lt hg hr
  have hdst : ∀ n, n ≤ 2 → portFails s (dstBase s + (3 * (r * previewW s + gx) + n)) = false := by
    intro n hn
    refine hc _ (.inr ?_)
    rw [dst_contains_iff, hneed]; omega
  have hlt := preview_lt hw hh hr hg
  have hdis := ha.disjoint _ rfl
  rw [hneed] at hdis
  have hread : ∀ o, o = 0 ∨ o = 1 ∨ o = frameS s + 1 → ∀ {n : Nat} {m : List Host.Cell}, n ≤ 2 →
      Filled m0 (dstBase s) (previewByte s m0) (3 * (r * previewW s + gx) + n) m →
      memRead s m (srcBase s + (4 * r * frameS s + 5 * gx) + o) 1 =
        .ok (Memory.read m0 (srcBase s + (4 * r * frameS s + 5 * gx) + o)).toNat := by
    intro o ho n m hn hf
    rw [memRead_one m (hc _ (.inl ⟨r, gx, o, hr, hg, ho, by omega⟩)), Filled_outside hf (by omega)]
  have hb : ∀ ch, ch < 3 → previewByte s m0 (3 * (r * previewW s + gx) + ch) = _ :=
    fun ch hch => previewByte_pixel m0 hg hch
  have h0 : Filled m0 (dstBase s) (previewByte s m0) (3 * (r * previewW s + gx) + 0) m := h
  obtain ⟨m1, e1, f1⟩ := Filled_byte h0
    (by rw [hb 0 (by omega), if_pos rfl]; exact (byte_ofNat_toNat _).symm) (hdst 0 (by omega))
  obtain ⟨m2, e2, f2⟩ := Filled_byte f1
    (by rw [hb 1 (by omega), if_neg (by omega), if_pos rfl]; exact (byte_ofNat_toNat _).symm) (hdst 1 (by omega))
  obtain ⟨m3, e3, f3⟩ := Filled_byte f2
    (by rw [hb 2 (by omega), if_neg (by omega), if_neg (by omega)]; exact (byte_ofNat_toNat _).symm)
    (hdst 2 (by omega))
  refine ⟨m3, ?_, f3⟩
  have r0 := hread 0 (.inl rfl) (n := 0) (by omega) h0
  have r1 := hread 1 (.inr (.inl rfl)) (n := 1) (by omega) f1
  have r2 := hread (frameS s + 1) (.inr (.inr rfl)) (n := 2) (by omega) f2
  have c0 : ∀ n, dstBase s + (r * previewW s + gx) * 3 + n = dstBase s + (3 * (r * previewW s + gx) + n) := by
    intro n; omega
  simp only [Nat.add_zero] at r0
  rw [← Nat.add_assoc _ (frameS s) 1] at r2
  simp only [previewPixel, previewOffset, Config.groupBytes, bind, Except.bind, c0, r0, e1, r1, e2, r2]
  exact e3

/-- PREVIEW's pass on a clean port fills the preview and nothing else (42_preview.md R98). -/
theorem previewPass_ok {s : State} (m0 : List Host.Cell) (ha : Accepted .preview s) (hc : PortClean .preview s) :
    ∃ m', previewPass s m0 = .ok m' ∧
      Filled m0 (dstBase s) (previewByte s m0) (3 * (previewW s * previewH s)) m' := by
  obtain ⟨m', h, hf⟩ := forRange_ok (m := m0) (n := previewH s)
    (body := fun r => forRange (fun gx => previewPixel s r gx) (previewW s))
    (fun r m => Filled m0 (dstBase s) (previewByte s m0) (3 * (r * previewW s)) m)
    (by simpa using Filled_zero m0 (dstBase s) (previewByte s m0))
    (fun r hr m hm => by
      obtain ⟨m2, h2, hf2⟩ := forRange_ok (m := m) (n := previewW s) (body := fun gx => previewPixel s r gx)
        (fun gx m => Filled m0 (dstBase s) (previewByte s m0) (3 * (r * previewW s + gx)) m)
        (by simpa using hm) (fun gx hg m hm => previewPixel_ok ha hc hr hg hm)
      refine ⟨m2, h2, ?_⟩
      rw [Nat.add_mul, Nat.one_mul]; exact hf2)
  exact ⟨m', h, by rwa [Nat.mul_comm (previewW s)]⟩

/-! ### LUTAPPLY -/

/-- Byte `n` of the tone-mapped image (44_lut_apply.md R112), read from memory `m`. -/
def lutByte (s : State) (m : List Host.Cell) (n : Nat) : Byte :=
  (lutEntry s (n % 3) (min (cell16 m (srcBase s + 2 * n)) (s.build.inRange - 1))).getD 0

/-- Sample `n` of the image reads a written entry. -/
def entryIn (s : State) (m : List Host.Cell) (n : Nat) : Bool :=
  (lutEntry s (n % 3) (min (cell16 m (srcBase s + 2 * n)) (s.build.inRange - 1))).isSome

/-- What one sample of LUTAPPLY does on a clean port: it fills the next byte, or it stops at an unwritten entry. -/
theorem lutSample_cases {s : State} {m0 m : List Host.Cell} {p c : Nat} (ha : Accepted .lutapply s)
    (hc : PortClean .lutapply s) (hp : p < frameW s * frameH s) (hch : c < 3)
    (h : Filled m0 (dstBase s) (lutByte s m0) (3 * p + c) m) :
    if entryIn s m0 (3 * p + c) then
      ∃ m', lutSample s p c m = .ok m' ∧ Filled m0 (dstBase s) (lutByte s m0) (3 * p + c + 1) m'
    else lutSample s p c m = .error .unwrittenLut := by
  have hneed : needDst .lutapply s = 3 * (frameW s * frameH s) := Nat.mul_assoc ..
  have hsix : 6 * frameW s * frameH s = 6 * (frameW s * frameH s) := Nat.mul_assoc ..
  have hdis := ha.disjoint _ rfl
  rw [hneed, hsix] at hdis
  have hmod : (3 * p + c) % 3 = c := by omega
  have hport : ∀ b, b < 2 → portFails s (srcBase s + 2 * (3 * p + c) + b) = false := by
    intro b hb
    refine hc _ (.inl ⟨by omega, ?_⟩)
    rw [hsix]; omega
  have hread : memRead s m (srcBase s + 2 * (3 * p + c)) 2 = .ok (cell16 m0 (srcBase s + 2 * (3 * p + c))) := by
    rw [memRead_two (a := srcBase s + 2 * (3 * p + c)) m (hport 0 (by omega)) (hport 1 (by omega)), Filled_outside h (by omega),
      Filled_outside h (by omega)]
    rfl
  have hdst : portFails s (dstBase s + (3 * p + c)) = false := by
    refine hc _ (.inr ?_)
    rw [dst_contains_iff, hneed]; omega
  simp only [lutSample, bind, Except.bind, hread, entryIn, hmod, lutIndex]
  cases he : lutEntry s c (min (cell16 m0 (srcBase s + 2 * (3 * p + c))) (s.build.inRange - 1)) with
  | none => rfl
  | some b =>
    refine Filled_byte h ?_ hdst
    simp only [lutByte, hmod, he, Option.getD_some]
    exact (byte_ofNat_toNat b).symm

/-- LUTAPPLY's pass on a clean port, over written entries, fills the image and nothing else (R112). -/
theorem lutPass_ok {s : State} (m0 : List Host.Cell) (ha : Accepted .lutapply s) (hc : PortClean .lutapply s)
    (hw : ∀ n, n < 3 * (frameW s * frameH s) → entryIn s m0 n = true) :
    ∃ m', lutPass s m0 = .ok m' ∧
      Filled m0 (dstBase s) (lutByte s m0) (3 * (frameW s * frameH s)) m' :=
  forRange_ok (m := m0) (n := frameW s * frameH s)
    (body := fun p => forRange (fun c => lutSample s p c) Config.channels)
    (fun p m => Filled m0 (dstBase s) (lutByte s m0) (3 * p) m)
    (Filled_zero m0 (dstBase s) (lutByte s m0))
    (fun p hp m hm => forRange_ok (m := m) (n := 3) (body := fun c => lutSample s p c)
      (fun c m => Filled m0 (dstBase s) (lutByte s m0) (3 * p + c) m) hm
      (fun c hch m hm => by
        have h := lutSample_cases ha hc hp hch hm
        rwa [if_pos (hw _ (by omega))] at h))

end Sys2Proof.Machine
end

