-- ==== Sys2Proof/Laws/ZebraPass.lean ====
section
/-! SUPPORT. The zebra cursor and its pass (45_zebra.md R116–R122): the visited samples come in rising order, and the pass
zeroes exactly the saturated ones. -/

namespace Sys2Proof.Machine

/-! ### The cursor -/

theorem zebraNext_cases (l c : Nat) :
    (zebraNext l c = c + 9 ∧ (c + 9) / l = c / l) ∨ (zebraNext l c = c + 12 ∧ (c + 9) / l ≠ c / l) := by
  unfold zebraNext Config.zebraStep Config.zebraSkip
  split
  · exact .inr ⟨rfl, ‹_›⟩
  · rename_i h; exact .inl ⟨rfl, by simpa using h⟩

theorem zebraNext_gt (l c : Nat) : c + 9 ≤ zebraNext l c := by
  rcases zebraNext_cases l c with h | h <;> omega

/-- The cursor after `k` moves. -/
def zebraAt (l : Nat) : Nat → Nat
  | 0 => 0
  | k + 1 => zebraNext l (zebraAt l k)

theorem zebraAt_lt {l i j : Nat} (h : i < j) : zebraAt l i + 9 ≤ zebraAt l j := by
  induction j with
  | zero => omega
  | succ j ih =>
    have := zebraNext_gt l (zebraAt l j)
    by_cases hij : i = j
    · subst hij; exact this
    · have := ih (by omega); simp only [zebraAt]; omega

theorem zebraAt_mod (l k : Nat) : zebraAt l k % 3 = 0 := by
  induction k with
  | zero => rfl
  | succ k ih =>
    have := zebraNext_cases l (zebraAt l k)
    simp only [zebraAt]; omega

/-- The visited cursors are those the moves reach below the image's end. -/
theorem visited_iff {l total c : Nat} : ZebraVisited l total c ↔ c < total ∧ ∃ k, c = zebraAt l k := by
  constructor
  · intro h
    induction h with
    | first h => exact ⟨h, 0, rfl⟩
    | within _ hd ht ih =>
      obtain ⟨-, k, rfl⟩ := ih
      refine ⟨ht, k + 1, ?_⟩
      rcases zebraNext_cases l (zebraAt l k) with h | h
      · exact h.1.symm
      · exact absurd hd h.2
    | across _ hd ht ih =>
      obtain ⟨-, k, rfl⟩ := ih
      refine ⟨ht, k + 1, ?_⟩
      rcases zebraNext_cases l (zebraAt l k) with h | h
      · exact absurd h.2 hd
      · exact h.1.symm
  · rintro ⟨ht, k, rfl⟩
    induction k with
    | zero => exact .first ht
    | succ k ih =>
      have hlt := zebraNext_gt l (zebraAt l k)
      simp only [zebraAt] at ht ⊢
      have hv := ih (by omega)
      rcases zebraNext_cases l (zebraAt l k) with h | h
      · rw [h.1] at ht ⊢; exact .within hv h.2 ht
      · rw [h.1] at ht ⊢; exact .across hv h.2 ht

/-- A visited cursor stands on a pixel boundary. -/
theorem visited_mod {l total c : Nat} (h : ZebraVisited l total c) : c % 3 = 0 := by
  obtain ⟨-, k, rfl⟩ := visited_iff.1 h
  exact zebraAt_mod l k

/-- Between a visited cursor's pixel and the next cursor no sample is visited. -/
theorem sample_gap {l total k d : Nat} (hd : zebraAt l k + 3 ≤ d) (hd' : d < zebraAt l (k + 1)) :
    ¬ ZebraSampleVisited l total d := by
  rintro ⟨c, o, hc, ho, rfl⟩
  obtain ⟨-, j, rfl⟩ := visited_iff.1 hc
  rcases Nat.lt_trichotomy j k with h | h | h
  · have := zebraAt_lt (l := l) h; omega
  · subst h; omega
  · by_cases hk : j = k + 1
    · subst hk; omega
    · have := zebraAt_lt (l := l) (show k + 1 < j by omega); omega

theorem sample_lt {l total d : Nat} (ht : total % 3 = 0) (h : ZebraSampleVisited l total d) : d < total := by
  obtain ⟨c, o, hc, ho, rfl⟩ := h
  have h1 := visited_mod hc
  have h2 := (visited_iff.1 hc).1
  omega

/-! ### The pass -/

/-- Memory `m` is the image of `m0` at `base` with the visited saturated samples below `n` zeroed. -/
def Zebraed (m0 : List Host.Cell) (base l total n : Nat) (m : List Host.Cell) : Prop :=
  ∀ a, ((base ≤ a ∧ a < base + n ∧ ZebraSampleVisited l total (a - base) ∧ Memory.read m0 a = 255) →
      Memory.read m a = 0) ∧
    (¬ (base ≤ a ∧ a < base + n ∧ ZebraSampleVisited l total (a - base) ∧ Memory.read m0 a = 255) →
      Memory.read m a = Memory.read m0 a)

theorem Zebraed_zero (m0 : List Host.Cell) (base l total : Nat) : Zebraed m0 base l total 0 m0 :=
  fun a => ⟨fun h => by omega, fun _ => rfl⟩

/-- Samples the cursor does not visit leave the image as it is. -/
theorem Zebraed_skip {m0 m : List Host.Cell} {base l total n n' : Nat} (h : Zebraed m0 base l total n m)
    (hn : n ≤ n') (hgap : ∀ d, n ≤ d → d < n' → ¬ ZebraSampleVisited l total d) : Zebraed m0 base l total n' m := by
  intro a
  refine ⟨fun ⟨h1, h2, h3, h4⟩ => (h a).1 ⟨h1, ?_, h3, h4⟩, fun hno => (h a).2 fun ⟨h1, h2, h3, h4⟩ => hno ⟨h1, by omega, h3, h4⟩⟩
  by_contra hlt
  exact hgap (a - base) (by omega) (by omega) h3

theorem zebraSample_ok {s : State} {m0 m : List Host.Cell} {base l total n c k : Nat}
    (h : Zebraed m0 base l total n m) (hn : n = c + k) (hv : ZebraSampleVisited l total n)
    (hc : portFails s (base + n) = false) :
    ∃ m', zebraSample s base c k m = .ok m' ∧ Zebraed m0 base l total (n + 1) m' := by
  have ha : base + c + k = base + n := by omega
  have hsame : Memory.read m (base + n) = Memory.read m0 (base + n) := (h _).2 (by omega)
  have hread : memRead s m (base + n) 1 = .ok (Memory.read m0 (base + n)).toNat := by rw [memRead_one m hc, hsame]
  simp only [zebraSample, ha, hread, bind, Except.bind]
  by_cases hsat : Memory.read m0 (base + n) = 255
  · rw [if_pos (by rw [hsat]; rfl)]
    refine ⟨_, memWrite_one m 0 hc, fun a => ?_⟩
    rw [Memory.read_write]
    by_cases haa : base + n = a
    · subst haa
      rw [if_pos rfl]
      refine ⟨fun _ => rfl, fun hno => absurd ⟨by omega, by omega, ?_, hsat⟩ hno⟩
      simpa using hv
    · rw [if_neg haa]
      exact ⟨fun ⟨h1, h2, h3, h4⟩ => (h a).1 ⟨h1, by omega, h3, h4⟩,
        fun hno => (h a).2 fun ⟨h1, h2, h3, h4⟩ => hno ⟨h1, by omega, h3, h4⟩⟩
  · rw [if_neg (fun hn : (Memory.read m0 (base + n)).toNat = 255 => hsat (BitVec.eq_of_toNat_eq hn))]
    refine ⟨m, rfl, fun a => ?_⟩
    by_cases haa : base + n = a
    · subst haa
      exact ⟨fun ⟨_, _, _, h4⟩ => absurd h4 hsat, fun _ => hsame⟩
    · exact ⟨fun ⟨h1, h2, h3, h4⟩ => (h a).1 ⟨h1, by omega, h3, h4⟩,
        fun hno => (h a).2 fun ⟨h1, h2, h3, h4⟩ => hno ⟨h1, by omega, h3, h4⟩⟩

theorem zebraVisit_ok {s : State} {m0 m : List Host.Cell} {base l total c : Nat} (h : Zebraed m0 base l total c m)
    (hv : ZebraVisited l total c)
    (hc : ∀ d, ZebraSampleVisited l total d → portFails s (base + d) = false) :
    ∃ m', zebraVisit s base c m = .ok m' ∧ Zebraed m0 base l total (c + 3) m' :=
  forRange_ok (m := m) (n := 3) (body := zebraSample s base c)
    (fun k m => Zebraed m0 base l total (c + k) m) h
    (fun k hk _ hm =>
      have hs : ZebraSampleVisited l total (c + k) := ⟨c, k, hv, hk, rfl⟩
      zebraSample_ok hm rfl hs (hc _ hs))

theorem zebraLoop_ok {s : State} {m0 : List Host.Cell} {base l total : Nat}
    (hc : ∀ d, ZebraSampleVisited l total d → portFails s (base + d) = false) (ht : total % 3 = 0) :
    ∀ (fuel k : Nat) (m : List Host.Cell), total ≤ fuel + zebraAt l k → Zebraed m0 base l total (zebraAt l k) m →
      ∃ m', zebraLoop s base l total fuel (zebraAt l k) m = .ok m' ∧ Zebraed m0 base l total total m' := by
  have hend : ∀ (k : Nat) (m : List Host.Cell), total ≤ zebraAt l k → Zebraed m0 base l total (zebraAt l k) m →
      Zebraed m0 base l total total m := fun k m hle h a =>
    ⟨fun ⟨h1, h2, h3, h4⟩ => (h a).1 ⟨h1, by omega, h3, h4⟩, fun hno => (h a).2 fun ⟨h1, h2, h3, h4⟩ =>
      hno ⟨h1, by have := sample_lt ht h3; omega, h3, h4⟩⟩
  intro fuel
  induction fuel with
  | zero => intro k m hf h; exact ⟨m, rfl, hend k m (by omega) h⟩
  | succ fuel ih =>
    intro k m hf h
    simp only [zebraLoop]
    split
    · rename_i hlt
      obtain ⟨m1, e1, h1⟩ := zebraVisit_ok h (visited_iff.2 ⟨hlt, k, rfl⟩) hc
      have hgt : zebraAt l k + 9 ≤ zebraAt l (k + 1) := zebraNext_gt l (zebraAt l k)
      have h2 := Zebraed_skip h1 (n' := zebraAt l (k + 1)) (by omega) (fun d hd hd' => sample_gap hd hd')
      simp only [bind, Except.bind, e1]
      exact ih (k + 1) m1 (by omega) h2
    · exact ⟨m, rfl, hend k m (by omega) h⟩

/-- zebraPass on a clean port zeroes exactly the visited saturated samples (45_zebra.md R118). -/
theorem zebraPass_ok {s : State} (m0 : List Host.Cell) {base wz hz : Nat}
    (hc : ∀ d, ZebraSampleVisited (3 * wz) (3 * wz * hz) d → portFails s (base + d) = false) :
    ∃ m', zebraPass s base wz hz m0 = .ok m' ∧ Zebraed m0 base (3 * wz) (3 * wz * hz) (3 * wz * hz) m' :=
  zebraLoop_ok hc (by rw [Nat.mul_assoc]; omega) _ 0 m0 (by omega) (Zebraed_zero m0 base _ _)

end Sys2Proof.Machine
end

