-- ==== Sys2Proof/Laws/Commands.lean ====
section
/-! SUPPORT. What running a command can do, said once: it fails its checks, or its pass answers, or its pass stops. -/

namespace Sys2Proof.Machine

/-- The pass of each command. -/
def passOf : Instr → State → List Host.Cell → Except Fault (List Host.Cell)
  | .unpack => unpackPass
  | .preview => previewPass
  | .previewz => previewZebraPass
  | .lutapply => lutPass
  | .zebra => zebraFramePass

theorem exec_eq (i : Instr) (s : State) : exec i s = runCommand i (passOf i) s := by cases i <;> rfl

/-- A command whose checks fail changes STATUS and the engine only (60_exceptions.md R131, R134). -/
theorem exec_of_check_some {i : Instr} {s : State} {e : CmdError} (h : checkCommand i s = some e) :
    exec i s = .next (failWith e s) := by
  simp [exec_eq, runCommand, h]

/-- An accepted command is its pass and a completion. -/
theorem exec_of_accepted {i : Instr} {s : State} (h : Accepted i s) :
    exec i s = match passOf i s s.mem with
      | .ok m => .next (completeWith m s)
      | .error f => .fault f := by
  cases hp : passOf i s s.mem <;> simp [exec_eq, runCommand, checkCommand_none_iff.2 h, hp]

/-- Every way a command can end. -/
theorem exec_cases (i : Instr) (s : State) :
    (∃ e, checkCommand i s = some e ∧ exec i s = .next (failWith e s)) ∨
    (Accepted i s ∧ ∃ m, passOf i s s.mem = .ok m ∧ exec i s = .next (completeWith m s)) ∨
    (Accepted i s ∧ ∃ f, passOf i s s.mem = .error f ∧ exec i s = .fault f) := by
  cases hc : checkCommand i s with
  | some e => exact .inl ⟨e, rfl, exec_of_check_some hc⟩
  | none =>
    have ha := checkCommand_none_iff.1 hc
    have he := exec_of_accepted ha
    cases hp : passOf i s s.mem with
    | ok m => rw [hp] at he; exact .inr (.inl ⟨ha, m, rfl, he⟩)
    | error f => rw [hp] at he; exact .inr (.inr ⟨ha, f, rfl, he⟩)

/-- The next state of a command, in its two forms. -/
theorem exec_next {i : Instr} {s t : State} (h : exec i s = .next t) :
    (∃ e, checkCommand i s = some e ∧ t = failWith e s) ∨
    (Accepted i s ∧ ∃ m, passOf i s s.mem = .ok m ∧ t = completeWith m s) := by
  rcases exec_cases i s with ⟨e, hc, he⟩ | ⟨ha, m, hp, he⟩ | ⟨_, f, _, he⟩
  · rw [he] at h; cases h; exact .inl ⟨e, hc, rfl⟩
  · rw [he] at h; cases h; exact .inr ⟨ha, m, hp, rfl⟩
  · rw [he] at h; cases h

/-- No command is refused. -/
theorem exec_not_refused (i : Instr) (s : State) (r : Refusal) : exec i s ≠ .refused r := by
  intro h
  rcases exec_cases i s with ⟨_, _, he⟩ | ⟨_, _, _, he⟩ | ⟨_, _, _, he⟩ <;> rw [he] at h <;> cases h

end Sys2Proof.Machine
end

