-- ==== Sys2Proof/Laws/Encoding.lean ====
section
/-! SUPPORT. The decoder's case split, said once over the fields of a word. -/

namespace Sys2Proof

/-- The fields that decode to a command are those of its row (30_encoding.md R79, R80). -/
theorem command_ok_iff {c : CommandWord} {i : Instr} : c.command = .ok i ↔ c = i.commandWord := by
  constructor
  · intro h
    obtain ⟨cmd, zeb, rsvd, start⟩ := c
    unfold CommandWord.command at h
    split at h
    · cases h
    · rename_i hs
      split at h
      · cases h
      · rename_i hr
        simp only at hs hr h
        have hs : start = 1#1 := by
          have := start.isLt
          apply BitVec.eq_of_toNat_eq
          have h0 : start.toNat ≠ 0 := fun h0 => hs (BitVec.eq_of_toNat_eq h0)
          simp; omega
        have hr : rsvd = 0#26 := not_not.1 hr
        subst hs hr
        split at h <;> cases h <;> rename_i hc hz <;>
          simp only [Instr.commandWord, CommandWord.mk.injEq] <;>
          exact ⟨BitVec.eq_of_toNat_eq hc, BitVec.eq_of_toNat_eq hz, rfl, rfl⟩
  · rintro rfl; cases i <;> rfl

/-- A word is no command exactly when its fields are no row's. -/
theorem command_error_iff {c : CommandWord} : (∃ r, c.command = .error r) ↔ ∀ i : Instr, c ≠ i.commandWord := by
  cases h : c.command with
  | ok i =>
    refine ⟨fun he => ?_, fun hall => absurd (command_ok_iff.1 h) (hall i)⟩
    obtain ⟨r, hr⟩ := he
    cases hr
  | error r =>
    refine ⟨fun _ i hi => ?_, fun _ => ⟨r, rfl⟩⟩
    rw [command_ok_iff.2 hi] at h; cases h

end Sys2Proof
end

