-- ==== Sys2Proof/Laws/Registers.lean ====
section
/-! SUPPORT. What the register port can do, said once. -/

namespace Sys2Proof.Machine

@[simp] theorem isBusy_idle {s : State} (h : s.engine = .idle) : isBusy s = false := by simp [isBusy, h]

@[simp] theorem isBusy_busy {s : State} {w : Word} (h : s.engine = .busy w) : isBusy s = true := by simp [isBusy, h]

theorem isBusy_iff {s : State} : isBusy s = true ↔ ∃ w, s.engine = .busy w := by
  unfold isBusy
  cases s.engine <;> simp

theorem not_busy_iff {s : State} : isBusy s = false ↔ s.engine = .idle := by
  unfold isBusy
  cases s.engine <;> simp

theorem whenIdle_busy {s s' : State} (h : isBusy s = true) : whenIdle s s' = setIgnored s := by simp [whenIdle, h]

theorem whenIdle_idle {s s' : State} (h : isBusy s = false) : whenIdle s s' = s' := by simp [whenIdle, h]

/-- A read changes nothing but the count of draws. -/
theorem afterRead_eq (r : Reg) (s : State) : afterRead r s = { s with draws := (afterRead r s).draws } := by
  unfold afterRead; split <;> rfl

/-- What a write of LUT_IDX can do (10_state.md R40). -/
theorem writeLutIdx_cases (v : Word) (s : State) :
    (writeLutIdx v s = setIgnored s) ∨
    (∃ c k, c.toNat ≤ 2 ∧ k.toNat < s.build.inRange ∧ writeLutIdx v s = { s with lutCh := c, lutIdx := k }) := by
  unfold writeLutIdx
  split
  · rename_i h; exact .inr ⟨_, _, h.1, h.2, rfl⟩
  · exact .inl rfl

/-- What a write of LUT_DATA does: one entry, and the pointer (10_state.md R42). -/
theorem writeLutData_eq (v : Word) (s : State) :
    writeLutData v s = { s with
      lut := Cells.put s.lut (lutKey s.build s.lutCh.toNat s.lutIdx.toNat) (v.extractLsb' 0 8)
      lutIdx := if s.lutIdx.toNat + 1 < s.build.inRange then BitVec.ofNat 16 (s.lutIdx.toNat + 1) else 0
      lutCh := if s.lutIdx.toNat + 1 < s.build.inRange then s.lutCh else BitVec.ofNat 2 ((s.lutCh.toNat + 1) % 3) } := by
  unfold writeLutData
  by_cases h : s.lutIdx.toNat + 1 < s.build.inRange <;> simp [h]

/-- While BUSY a register write changes at most IGN, the flags a STATUS write clears, and IE (10_state.md R30). -/
theorem writeReg_busy {s : State} (h : isBusy s = true) (r : Reg) (v : Word) :
    writeReg r v s = s ∨ writeReg r v s = setIgnored s ∨ (r = .status ∧ writeReg r v s = writeStatus v s) ∨
      (r = .irqEn ∧ writeReg r v s = { s with irqEn := v.getLsbD 0 }) := by
  cases r <;> simp [writeReg, whenIdle_busy h]

/-- What a register write does in either phase. -/
theorem writeReg_cases (r : Reg) (v : Word) (s : State) :
    writeReg r v s = s ∨ writeReg r v s = setIgnored s ∨ writeReg r v s = writeStatus v s ∨
    writeReg r v s = { s with irqEn := v.getLsbD 0 } ∨
    (isBusy s = false ∧
      ((r = .ctrl ∧ v.getLsbD 31 = true ∧ writeReg r v s = launch v s) ∨
       writeReg r v s = { s with width := v.extractLsb' 0 16 } ∨
       writeReg r v s = { s with height := v.extractLsb' 0 16 } ∨
       writeReg r v s = { s with srcAddr := addressBits s.build v } ∨
       writeReg r v s = { s with srcLen := v } ∨
       writeReg r v s = { s with dstAddr := addressBits s.build v } ∨
       writeReg r v s = { s with dstLen := v } ∨
       (r = .lutCfg ∧ writeReg r v s = { s with lutReady := v.getLsbD 0 }) ∨
       (∃ c k, c.toNat ≤ 2 ∧ k.toNat < s.build.inRange ∧ writeReg r v s = { s with lutCh := c, lutIdx := k }) ∨
       (r = .lutData ∧ writeReg r v s = writeLutData v s))) := by
  cases hb : isBusy s with
  | true =>
    rcases writeReg_busy hb r v with h | h | h | h
    · exact .inl h
    · exact .inr (.inl h)
    · exact .inr (.inr (.inl h.2))
    · exact .inr (.inr (.inr (.inl h.2)))
  | false =>
    cases r with
    | id => exact .inl rfl
    | ctrl =>
      cases hv : v.getLsbD 31 with
      | true => exact .inr (.inr (.inr (.inr ⟨rfl, .inl ⟨rfl, rfl, by simp only [writeReg, whenIdle_idle hb, writeCtrl, hv, if_true]⟩⟩)))
      | false => exact .inl (by simp only [writeReg, whenIdle_idle hb, writeCtrl, hv, Bool.false_eq_true, if_false])
    | status => exact .inr (.inr (.inl rfl))
    | irqEn => exact .inr (.inr (.inr (.inl rfl)))
    | width => right; right; right; right; refine ⟨rfl, ?_⟩; right; left; exact whenIdle_idle hb
    | height => right; right; right; right; refine ⟨rfl, ?_⟩; right; right; left; exact whenIdle_idle hb
    | stride => exact .inl rfl
    | srcAddr =>
      right; right; right; right; refine ⟨rfl, ?_⟩; right; right; right; left; exact whenIdle_idle hb
    | srcLen =>
      right; right; right; right; refine ⟨rfl, ?_⟩; right; right; right; right; left; exact whenIdle_idle hb
    | dstAddr =>
      right; right; right; right; refine ⟨rfl, ?_⟩; right; right; right; right; right; left
      exact whenIdle_idle hb
    | dstLen =>
      right; right; right; right; refine ⟨rfl, ?_⟩; right; right; right; right; right; right; left
      exact whenIdle_idle hb
    | lutCfg =>
      right; right; right; right; refine ⟨rfl, ?_⟩; right; right; right; right; right; right; right; left
      exact ⟨rfl, whenIdle_idle hb⟩
    | lutIdx =>
      rcases writeLutIdx_cases v s with h | ⟨c, k, hc, hk, h⟩
      · exact .inr (.inl (by simp [writeReg, whenIdle_idle hb, h]))
      · right; right; right; right; refine ⟨rfl, ?_⟩
        right; right; right; right; right; right; right; right; left
        exact ⟨c, k, hc, hk, by simp [writeReg, whenIdle_idle hb, h]⟩
    | lutData =>
      right; right; right; right; refine ⟨rfl, ?_⟩
      right; right; right; right; right; right; right; right; right
      exact ⟨rfl, whenIdle_idle hb⟩
    | param => exact .inl rfl
    | reserved => exact .inl rfl

end Sys2Proof.Machine
end

