-- ==== Sys2Proof/Laws/Step.lean ====
section
/-! SUPPORT. What one step can do, said once, agent by agent. -/

namespace Sys2Proof.Machine

/-- The engine's turn, by its three cases. -/
theorem engineTurn_cases {s t : State} (h : engineTurn s = .next t) :
    (s.engine = .idle ∧ t = s) ∨
    (∃ w r, s.engine = .busy w ∧ decode w = .error r ∧ t = failWith .illegalCommand s) ∨
    (∃ w i, s.engine = .busy w ∧ decode w = .ok i ∧ exec i s = .next t) := by
  unfold engineTurn at h
  cases he : s.engine with
  | idle => rw [he] at h; cases h; exact .inl ⟨rfl, rfl⟩
  | busy w =>
    rw [he] at h
    cases hd : decode w with
    | ok i => simp only [hd] at h; exact .inr (.inr ⟨w, i, rfl, hd, h⟩)
    | error r => simp only [hd] at h; cases h; exact .inr (.inl ⟨w, r, rfl, hd, rfl⟩)

/-- A statement of the host that answers: a register write, a register read with the program as given, or a memory
access. -/
theorem runStmt_cases {st : HostStmt} {s t : State} (h : runStmt st s = .next t) :
    (∃ a r v, st = .wr a v ∧ decodeAccess a = some r ∧ t = writeReg r v s) ∨
    (∃ r p, t = { hostRead r s with program := p }) ∨
    (∃ a bytes, st = .memw a bytes ∧ a + bytes.length ≤ s.build.memBytes ∧
      anyFrom (writeRaces s) a bytes.length = false ∧ t = { s with mem := Memory.writeBytes s.mem a bytes }) ∨
    (∃ a n, st = .memr a n ∧ a + n ≤ s.build.memBytes ∧ anyFrom (readRaces s) a n = false ∧
      t = observe (.mem a (Memory.readBytes s.mem a n)) s) := by
  cases st with
  | wr a v =>
    cases hr : decodeAccess a with
    | none => simp [runStmt, hr] at h
    | some r => simp only [runStmt, hr] at h; cases h; exact .inl ⟨a, r, v, rfl, hr, rfl⟩
  | rd a =>
    cases hr : decodeAccess a with
    | none => simp [runStmt, hr] at h
    | some r => simp only [runStmt, hr] at h; cases h; exact .inr (.inl ⟨r, _, rfl⟩)
  | poll a f v =>
    cases hr : decodeAccess a with
    | none => simp [runStmt, hr] at h
    | some r =>
      simp only [runStmt, hr] at h
      split at h <;> cases h <;> exact .inr (.inl ⟨r, _, rfl⟩)
  | memw a bytes =>
    simp only [runStmt, hostMemWrite] at h
    split at h
    · cases h
    · split at h
      · cases h
      · rename_i h1 h2
        cases h
        exact .inr (.inr (.inl ⟨a, bytes, rfl, by omega, by simpa using h2, rfl⟩))
  | memr a n =>
    simp only [runStmt, hostMemRead] at h
    split at h
    · cases h
    · split at h
      · cases h
      · rename_i h1 h2
        cases h
        exact .inr (.inr (.inr ⟨a, n, rfl, by omega, by simpa using h2, rfl⟩))

/-- One step is one turn of the agent that moves next. -/
theorem step_cases {s t : State} (h : step s = .next t) :
    (nextTurn s = .engine ∧ engineTurn (popTurn s) = .next t) ∨
    (nextTurn s = .host ∧ s.program = [] ∧ t = popTurn s) ∨
    (nextTurn s = .host ∧ ∃ st rest, s.program = st :: rest ∧
      runStmt st { popTurn s with program := rest } = .next t) ∨
    (nextTurn s = .reset ∧ t = resetBlock (popTurn s)) ∨
    (nextTurn s = .resetDuringAccess ∧ t = dropAccess (resetBlock (popTurn s))) := by
  unfold step takeTurn at h
  cases hn : nextTurn s with
  | engine => rw [hn] at h; exact .inl ⟨rfl, h⟩
  | host =>
    rw [hn] at h
    simp only [hostTurn, popTurn_program] at h
    cases hp : s.program with
    | nil => rw [hp] at h; cases h; exact .inr (.inl ⟨rfl, rfl, rfl⟩)
    | cons st rest => rw [hp] at h; exact .inr (.inr (.inl ⟨rfl, st, rest, rfl, h⟩))
  | reset => rw [hn] at h; cases h; exact .inr (.inr (.inr (.inl ⟨rfl, rfl⟩)))
  | resetDuringAccess => rw [hn] at h; cases h; exact .inr (.inr (.inr (.inr ⟨rfl, rfl⟩)))

/-- No step is refused. -/
theorem step_not_refused (s : State) (r : Refusal) : step s ≠ .refused r := by
  intro h
  unfold step takeTurn at h
  cases hn : nextTurn s with
  | engine =>
    rw [hn] at h
    simp only [engineTurn] at h
    split at h
    · cases h
    · split at h
      · exact exec_not_refused _ _ _ h
      · cases h
  | host =>
    rw [hn] at h
    simp only [hostTurn] at h
    split at h
    · cases h
    · rename_i st rest _
      cases st <;> simp only [runStmt, hostMemWrite, hostMemRead] at h <;> split at h <;>
        first | cases h | (split at h <;> cases h)
  | reset => rw [hn] at h; cases h
  | resetDuringAccess => rw [hn] at h; cases h

/-- One of the addresses satisfies the test. -/
theorem anyFrom_iff {test : Nat → Bool} {a n : Nat} : anyFrom test a n = true ↔ ∃ k, k < n ∧ test (a + k) = true := by
  induction n generalizing a with
  | zero => simp [anyFrom]
  | succ n ih =>
    simp only [anyFrom, Bool.or_eq_true, ih]
    constructor
    · rintro (h | ⟨k, hk, h⟩)
      · exact ⟨0, by omega, h⟩
      · exact ⟨k + 1, by omega, by rwa [show a + (k + 1) = a + 1 + k by omega]⟩
    · rintro ⟨k, hk, h⟩
      cases k with
      | zero => exact .inl h
      | succ k => exact .inr ⟨k, by omega, by rwa [show a + 1 + k = a + (k + 1) by omega]⟩

/-- What reset leaves in the bytes it scrambles, and in the others (70_reset_and_hazards.md R148). -/
theorem read_scramble (m : List Host.Cell) (a d n b : Nat) :
    Memory.read (scramble m a d n) b =
      if a ≤ b ∧ b < a + n then Config.freeByte (d + (b - a)) else Memory.read m b := by
  induction n generalizing m a d with
  | zero => rw [if_neg (by omega)]; rfl
  | succ n ih =>
    simp only [scramble, ih, Memory.read_write]
    by_cases hab : a = b
    · subst hab; rw [if_neg (by omega), if_pos rfl, if_pos (by omega)]; simp
    · by_cases hin : a + 1 ≤ b ∧ b < a + 1 + n
      · rw [if_pos hin, if_pos (by omega), show d + 1 + (b - (a + 1)) = d + (b - a) by omega]
      · rw [if_neg hin, if_neg hab, if_neg (by omega)]

theorem wf_scramble {m : List Host.Cell} (h : Memory.wf m) (a d n : Nat) : Memory.wf (scramble m a d n) := by
  induction n generalizing m a d with
  | zero => exact h
  | succ n ih => exact ih (Memory.wf_write h a _) _ _

theorem mem_scramble {m : List Host.Cell} {a d n : Nat} {c : Host.Cell} (h : c ∈ scramble m a d n) :
    (a ≤ c.1 ∧ c.1 < a + n) ∨ c ∈ m := by
  induction n generalizing m a d with
  | zero => exact .inr h
  | succ n ih =>
    rcases ih h with h | h
    · left; omega
    · rcases Memory.mem_write h with h | h
      · left; omega
      · exact .inr h

end Sys2Proof.Machine
end

