-- ==== Sys2Proof/Laws/HostRuns.lean ====
section
/-! SUPPORT. The steps of a host program from IDLE with no turn listed, and how steps make a run; what a STATUS read tells the
host; a reset with a host access in the same turn. -/

namespace Sys2Proof.Machine

/-- A run's first step. -/
theorem run_succ {s t : State} (k : Nat) (h : step s = .next t) :
    Host.Core.run Sys2Proof.core (k + 1) s = Host.Core.run Sys2Proof.core k t := by
  simp only [Host.Core.run]
  rw [show Sys2Proof.core.step s = .next t from h]

/-- The offset of a register is decoded to it (10_state.md R23). -/
theorem decodeAccess_regAccess (r : Reg) : decodeAccess (regAccess r) = some r := by cases r <;> decide

theorem launches_encode (i : Instr) : (encode i).getLsbD 31 = true := by cases i <;> rfl

/-- From IDLE with no turn listed, the host runs its next statement. -/
theorem step_idle {s : State} {st : HostStmt} {rest : List HostStmt} (he : s.engine = .idle) (ht : s.turns = [])
    (hp : s.program = st :: rest) : step s = runStmt st { s with program := rest } := by
  have hn : nextTurn s = .host := by simp [nextTurn, ht, isBusy, he]
  have hs : ({ popTurn s with program := rest } : State) = { s with program := rest } := by simp [popTurn, ht]
  unfold step takeTurn
  rw [hn]
  simp only [hostTurn, popTurn_program, hp, hs]

theorem step_wr {s : State} {r : Reg} {v : Word} {rest : List HostStmt} (he : s.engine = .idle) (ht : s.turns = [])
    (hp : s.program = wr r v :: rest) : step s = .next (writeReg r v { s with program := rest }) := by
  rw [step_idle he ht hp]; simp only [wr, runStmt, decodeAccess_regAccess]

theorem step_rd {s : State} {r : Reg} {rest : List HostStmt} (he : s.engine = .idle) (ht : s.turns = [])
    (hp : s.program = rd r :: rest) : step s = .next (hostRead r { s with program := rest }) := by
  rw [step_idle he ht hp]; simp only [rd, runStmt, decodeAccess_regAccess]

/-- The DONE bit of a STATUS read. -/
theorem done_of_status (s : State) : fieldOf { hi := 1, lo := 1 } (readReg .status s) = s.done.toNat := by
  have h1 : (statusWord s).getLsbD 1 = s.done := by
    unfold statusWord
    rw [BitVec.getLsbD_append, BitVec.getLsbD_append]
    simp
  show ((statusWord s).toNat >>> 1) % 2 = _
  rw [← h1, BitVec.getLsbD, Nat.testBit_eq_decide_div_mod_eq, Nat.shiftRight_eq_div_pow]
  rcases Nat.mod_two_eq_zero_or_one ((statusWord s).toNat / 2 ^ 1) with h | h <;> rw [h] <;> rfl

theorem step_pollDone {s : State} {rest : List HostStmt} (he : s.engine = .idle) (ht : s.turns = []) (hd : s.done = true)
    (hp : s.program = pollDone :: rest) : step s = .next (hostRead .status { s with program := rest }) := by
  rw [step_idle he ht hp]
  simp only [pollDone, runStmt, decodeAccess_regAccess, done_of_status, hd, Bool.toNat_true, if_true]

/-- With the engine's turn next, a launched command is run. -/
theorem step_launched {s : State} {i : Instr} (ht : s.turns = []) :
    step (launch (encode i) s) = exec i (launch (encode i) s) := by
  have hn : nextTurn (launch (encode i) s) = .engine := by simp [nextTurn, launch, ht, isBusy]
  have hs : popTurn (launch (encode i) s) = launch (encode i) s := by simp [popTurn, launch, ht]
  have hd : decode (encode i) = .ok i := by cases i <;> rfl
  unfold step takeTurn
  rw [hn, hs]
  simp only [engineTurn, launch, hd]

/-- What the host takes from a STATUS read (46_frame_sequence.md R124). -/
theorem statusError_status (s : State) : statusError (readReg .status s) = if s.err then some s.errCode else none := by
  have h2 : (statusWord s).getLsbD 2 = s.err := by
    unfold statusWord
    rw [BitVec.getLsbD_append, BitVec.getLsbD_append, BitVec.getLsbD_append]
    simp
  have h8 : (statusWord s).extractLsb' 8 4 = s.errCode := by
    ext i hi
    have h4 : i < 4 := hi
    have e1 : ¬ 8 + i - 1 - 1 - 1 - 1 < 4 := by omega
    simp only [statusWord, BitVec.getElem_extractLsb', BitVec.getLsbD_append]
    rw [if_neg (by omega), if_neg (by omega), if_neg (by omega), if_neg (by omega), if_neg e1, if_pos (by omega),
      show 8 + i - 1 - 1 - 1 - 1 - 4 = i by omega]
    exact BitVec.getLsbD_eq_getElem h4
  show statusError (statusWord s) = _
  rw [statusError, h2, h8]

/-- The access that a reset drops changes only the host's own program and what it has seen (70_reset_and_hazards.md R147). -/
theorem dropAccess_eq (s : State) :
    dropAccess s = { s with program := (dropAccess s).program, observed := (dropAccess s).observed } := by
  unfold dropAccess
  split
  · rfl
  · rfl
  · split <;> rfl
  · split
    · rfl
    · split <;> rfl
  · rfl
  · rfl

end Sys2Proof.Machine
end

