-- ==== Sys2Proof/Laws/PassKeeps.lean ====
section
/-! SUPPORT. What every pass keeps, whether or not the port is clean: the canonical form of memory, and every byte outside
the destination region (20_memory.md R61). -/

namespace Sys2Proof.Machine

/-- From `m` to `m'` only bytes of `[dst, dst + len)` changed, and the canonical form was kept. -/
structure Keeps (dst len : Nat) (m m' : List Host.Cell) : Prop where
  wf : Memory.wf m → Memory.wf m'
  listed : ∀ c ∈ m', (dst ≤ c.1 ∧ c.1 < dst + len) ∨ c ∈ m
  outside : ∀ b, (b < dst ∨ dst + len ≤ b) → Memory.read m' b = Memory.read m b

theorem Keeps_refl (dst len : Nat) (m : List Host.Cell) : Keeps dst len m m :=
  ⟨id, fun _ h => .inr h, fun _ _ => rfl⟩

theorem Keeps_trans {dst len : Nat} {m m' m'' : List Host.Cell} (h : Keeps dst len m m') (h' : Keeps dst len m' m'') :
    Keeps dst len m m'' :=
  ⟨fun w => h'.wf (h.wf w), fun c hc => (h'.listed c hc).elim .inl (h.listed c),
    fun b hb => (h'.outside b hb).trans (h.outside b hb)⟩

theorem Keeps_memWrite {s : State} {m m' : List Host.Cell} {a n v dst len : Nat} (h : memWrite s m a n v = .ok m')
    (hlo : dst ≤ a) (hhi : a + n ≤ dst + len) : Keeps dst len m m' := by
  obtain ⟨h1, h2, h3⟩ := memWrite_keeps h
  exact ⟨h1, fun c hc => (h2 c hc).imp_left (fun _ => by omega), fun b hb => h3 b (by omega)⟩

theorem Keeps_forRange {body : Nat → List Host.Cell → Except Fault (List Host.Cell)} {n dst len : Nat}
    {m m' : List Host.Cell} (hstep : ∀ k, k < n → ∀ m m', body k m = .ok m' → Keeps dst len m m')
    (h : forRange body n m = .ok m') : Keeps dst len m m' :=
  forRange_keeps (fun m1 => Keeps dst len m m1) (Keeps_refl dst len m)
    (fun k hk m1 m2 hb hm => Keeps_trans hm (hstep k hk m1 m2 hb)) h

/-- What answers after a first action is the second action on its answer. -/
theorem bind_ok {α β : Type} {x : Except Fault α} {f : α → Except Fault β} {b : β} (h : (x >>= f) = .ok b) :
    ∃ a, x = .ok a ∧ f a = .ok b := by
  cases x with
  | error e => cases h
  | ok a => exact ⟨a, rfl, h⟩

theorem unpackPass_keeps {s : State} {m m' : List Host.Cell} (h : unpackPass s m = .ok m')
    (hw : frameW s % 8 = 0) : Keeps (dstBase s) (needDst .unpack s) m m' := by
  have hneed : needDst .unpack s = 2 * (frameW s * frameH s) := Nat.mul_assoc ..
  refine Keeps_forRange (fun y hy m1 m2 h => Keeps_forRange (fun g hg m1 m2 h => ?_) h) h
  have hb := row_lt (w := frameW s) (x := 4 * g + 3) (by omega) hy
  obtain ⟨_, _, h⟩ := bind_ok h
  obtain ⟨_, _, h⟩ := bind_ok h
  obtain ⟨_, _, h⟩ := bind_ok h
  obtain ⟨_, _, h⟩ := bind_ok h
  obtain ⟨_, _, h⟩ := bind_ok h
  obtain ⟨_, e1, h⟩ := bind_ok h
  obtain ⟨_, e2, h⟩ := bind_ok h
  obtain ⟨_, e3, e4⟩ := bind_ok h
  simp only [Config.groupSamples] at e1 e2 e3 e4
  exact Keeps_trans (Keeps_trans (Keeps_trans (Keeps_memWrite e1 (by omega) (by omega))
    (Keeps_memWrite e2 (by omega) (by omega))) (Keeps_memWrite e3 (by omega) (by omega)))
    (Keeps_memWrite e4 (by omega) (by omega))

theorem previewPass_keeps {s : State} {m m' : List Host.Cell} (h : previewPass s m = .ok m') :
    Keeps (dstBase s) (needDst .preview s) m m' := by
  have hneed : needDst .preview s = 3 * (previewW s * previewH s) := Nat.mul_assoc ..
  refine Keeps_forRange (fun r hr m1 m2 h => Keeps_forRange (fun gx hg m1 m2 h => ?_) h) h
  have hb := row_lt hg hr
  obtain ⟨_, _, h⟩ := bind_ok h
  obtain ⟨_, e1, h⟩ := bind_ok h
  obtain ⟨_, _, h⟩ := bind_ok h
  obtain ⟨_, e2, h⟩ := bind_ok h
  obtain ⟨_, _, e3⟩ := bind_ok h
  exact Keeps_trans (Keeps_trans (Keeps_memWrite e1 (by omega) (by omega))
    (Keeps_memWrite e2 (by omega) (by omega))) (Keeps_memWrite e3 (by omega) (by omega))

theorem lutPass_keeps {s : State} {m m' : List Host.Cell} (h : lutPass s m = .ok m') :
    Keeps (dstBase s) (needDst .lutapply s) m m' := by
  have hneed : needDst .lutapply s = 3 * (frameW s * frameH s) := Nat.mul_assoc ..
  refine Keeps_forRange (fun p hp m1 m2 h => Keeps_forRange (fun c hc m1 m2 h => ?_) h) h
  have hc3 : c < 3 := hc
  obtain ⟨_, _, h⟩ := bind_ok h
  split at h
  · exact Keeps_memWrite h (by omega) (by omega)
  · cases h

theorem zebraLoop_keeps {s : State} {base l total : Nat} (ht : total % 3 = 0) :
    ∀ (fuel k : Nat) (m m' : List Host.Cell), zebraLoop s base l total fuel (zebraAt l k) m = .ok m' →
      Keeps base total m m' := by
  intro fuel
  induction fuel with
  | zero => intro k m m' h; cases h; exact Keeps_refl ..
  | succ fuel ih =>
    intro k m m' h
    simp only [zebraLoop] at h
    split at h
    · rename_i hlt
      have hmod := zebraAt_mod l k
      obtain ⟨m1, e1, h⟩ := bind_ok h
      refine Keeps_trans (Keeps_forRange (fun j hj m1 m2 h => ?_) e1) (ih (k + 1) m1 m' h)
      have hj3 : j < 3 := hj
      obtain ⟨v, _, h⟩ := bind_ok h
      split at h
      · exact Keeps_memWrite h (by omega) (by omega)
      · cases h; exact Keeps_refl ..
    · cases h; exact Keeps_refl ..

theorem zebraPass_keeps {s : State} {base wz hz : Nat} {m m' : List Host.Cell} (h : zebraPass s base wz hz m = .ok m') :
    Keeps base (3 * wz * hz) m m' :=
  zebraLoop_keeps (by rw [Nat.mul_assoc]; omega) _ 0 m m' h

/-- Every pass of an accepted command keeps every byte outside its destination region. -/
theorem pass_keeps {i : Instr} {s : State} {m m' : List Host.Cell} (ha : Accepted i s) (h : passOf i s m = .ok m') :
    Keeps (dstBase s) (needDst i s) m m' := by
  cases i with
  | unpack => exact unpackPass_keeps h (ha.width_mod rfl)
  | preview => exact previewPass_keeps h
  | previewz =>
    obtain ⟨m1, h1, h2⟩ := bind_ok h
    exact Keeps_trans (previewPass_keeps h1) (zebraPass_keeps h2)
  | lutapply => exact lutPass_keeps h
  | zebra => exact zebraPass_keeps h

end Sys2Proof.Machine
end

