-- ==== Sys2Proof/Laws/PerInstr.lean ====
section
/-! SUPPORT. The per-instruction family TableWord: each command is well formed, its fields are legal, and its word is the one
of the table of 30_encoding.md R79. -/

namespace Sys2Proof.Laws.TableWord

/-- The full launching word of each command, as R79 writes it. -/
def word : Instr → Word
  | .unpack => 0x80000001
  | .preview => 0x80000002
  | .previewz => 0x80000012
  | .lutapply => 0x80000003
  | .zebra => 0x80000004

def Statement (i : Instr) : Prop :=
  i.wellFormed = true ∧ i.commandWord.wellFormed = true ∧ encode i = word i

theorem unpack : Statement .unpack := ⟨rfl, rfl, rfl⟩
theorem preview : Statement .preview := ⟨rfl, rfl, rfl⟩
theorem previewz : Statement .previewz := ⟨rfl, rfl, rfl⟩
theorem lutapply : Statement .lutapply := ⟨rfl, rfl, rfl⟩
theorem zebra : Statement .zebra := ⟨rfl, rfl, rfl⟩

end Sys2Proof.Laws.TableWord
end

