-- ==== Sys2Proof/Laws/ToneCurve.lean ====
section
/-! SUPPORT. What the tone-curve compiler can answer, and what the quantiser's search finds, said once. -/

namespace Sys2Proof.Machine.ToneCurve

/-- The search answers the greatest number that passes, or 0 where none from 1 to `m` does. -/
theorem greatestUpTo_spec (test : Nat → Bool) (m : Nat) :
    greatestUpTo test m ≤ m ∧ (0 < greatestUpTo test m → test (greatestUpTo test m) = true) ∧
    ∀ n, greatestUpTo test m < n → n ≤ m → test n = false := by
  induction m with
  | zero => simp only [greatestUpTo]; exact ⟨le_refl _, fun h => absurd h (lt_irrefl _), fun n h1 h2 => by omega⟩
  | succ m ih =>
    simp only [greatestUpTo]
    split
    · rename_i h
      exact ⟨le_refl _, fun _ => h, fun n h1 h2 => by omega⟩
    · rename_i h
      refine ⟨by omega, ih.2.1, fun n h1 h2 => ?_⟩
      by_cases hn : n = m + 1
      · subst hn; simpa using h
      · exact ih.2.2 n h1 (by omega)

theorem tableEntry_le (curve : List Point) (g : Gamma) (inRange k : Nat) : tableEntry curve g inRange k ≤ 255 :=
  (greatestUpTo_spec _ 255).1

@[simp] theorem length_channelTable (curve : List Point) (g : Gamma) (inRange : Nat) :
    (channelTable curve g inRange).length = inRange := by simp [channelTable]

/-- The byte of an entry is its value. -/
theorem getD_channelTable (curve : List Point) (g : Gamma) {inRange k : Nat} (hk : k < inRange) :
    ((channelTable curve g inRange).getD k 0).toNat = tableEntry curve g inRange k := by
  have := tableEntry_le curve g inRange k
  simp [channelTable, List.getD, hk]
  omega

/-- Every way the compiler can answer. -/
theorem compile_cases (c0 c1 c2 : List Point) (g : Gamma) (inRange : Nat) :
    (∃ c ∈ [c0, c1, c2], degenerate c = true ∧ compile c0 c1 c2 g inRange = .error .degenerateCurve) ∨
    ((∀ c ∈ [c0, c1, c2], degenerate c = false) ∧
      ((¬ (0 < g.num ∧ 0 < g.den) ∧ compile c0 c1 c2 g inRange = .error .badGamma) ∨
       (0 < g.num ∧ 0 < g.den ∧
        (((∃ c ∈ [c0, c1, c2], ¬ inDomain c) ∧ compile c0 c1 c2 g inRange = .error .badPoint) ∨
         ((∀ c ∈ [c0, c1, c2], inDomain c) ∧ compile c0 c1 c2 g inRange =
           .ok (channelTable c0 g inRange ++ channelTable c1 g inRange ++ channelTable c2 g inRange)))))) := by
  unfold compile
  simp only [List.mem_cons, List.not_mem_nil, or_false, exists_eq_or_imp, exists_eq_left, forall_eq_or_imp, forall_eq]
  by_cases hd : degenerate c0 = true ∨ degenerate c1 = true ∨ degenerate c2 = true
  · rw [if_pos hd]; left; tauto
  · rw [if_neg hd]; right
    have h : degenerate c0 = false ∧ degenerate c1 = false ∧ degenerate c2 = false := by simpa using hd
    refine ⟨h, ?_⟩
    by_cases hg : g.num = 0 ∨ g.den = 0
    · rw [if_pos hg]; left; exact ⟨by omega, rfl⟩
    · rw [if_neg hg]; right
      refine ⟨by omega, by omega, ?_⟩
      by_cases hp : inDomain c0 ∧ inDomain c1 ∧ inDomain c2
      · rw [if_neg (not_not.2 hp)]; exact .inr ⟨hp, rfl⟩
      · rw [if_pos hp]; left; exact ⟨by tauto, rfl⟩

end Sys2Proof.Machine.ToneCurve
end

