-- ==== Sys2Proof/Tests/Slice0.lean ====
section
/-! SUPPORT. The model's own tests: values from 95_test_vectors.md (named V-… there), ill-formed terms, words written from the
encoding table, and the witnesses of the statements' hypotheses. -/

namespace Sys2Proof.Tests

open Sys2Proof.Machine

/-! ### Helpers -/

/-- Reset, with a frame and its buffers configured. -/
def framed (w h sa sl da dl : Nat) (m : List Host.Cell) : State :=
  { State.reset with
    width := BitVec.ofNat 16 w, height := BitVec.ofNat 16 h
    srcAddr := BitVec.ofNat 32 sa, srcLen := BitVec.ofNat 32 sl
    dstAddr := BitVec.ofNat 32 da, dstLen := BitVec.ofNat 32 dl, mem := m }

/-- The bytes at an address in the next state. -/
def bytesAfter (o : Host.Outcome State Fault Refusal) (a n : Nat) : Option (List Byte) :=
  match o with
  | .next t => some (Memory.readBytes t.mem a n)
  | .fault _ => none
  | .refused _ => none

/-- A register's value in the next state. -/
def regAfter (o : Host.Outcome State Fault Refusal) (r : Reg) : Option Word :=
  match o with
  | .next t => some (readReg r t)
  | .fault _ => none
  | .refused _ => none

def faultOf (o : Host.Outcome State Fault Refusal) : Option Fault :=
  match o with
  | .next _ => none
  | .fault f => some f
  | .refused _ => none

/-! ### Encoding -/

/-- R79, bit by bit: START 1, RSVD 26 zeros, ZEB, CMD. -/
theorem test_unpack_word : decode 0b1_00000000000000000000000000_0_0001#32 = .ok .unpack := rfl
theorem test_preview_word : decode 0b1_00000000000000000000000000_0_0010#32 = .ok .preview := rfl
theorem test_previewz_word : decode 0b1_00000000000000000000000000_1_0010#32 = .ok .previewz := rfl
theorem test_lutapply_word : decode 0b1_00000000000000000000000000_0_0011#32 = .ok .lutapply := rfl
theorem test_zebra_word : decode 0b1_00000000000000000000000000_0_0100#32 = .ok .zebra := rfl

/-- V-E22 to V-E27, each rejected by name. -/
theorem test_rejected_words :
    decode 0x80000021 = .error .reservedBits ∧ decode 0x80000000 = .error .reservedCommand ∧
    decode 0x80000011 = .error .zebWithoutPreview ∧ decode 0x80000005 = .error .reservedCommand ∧
    decode 0x80000014 = .error .zebWithoutPreview ∧ decode 0x00000001 = .error .notLaunching := ⟨rfl, rfl, rfl, rfl, rfl, rfl⟩

theorem test_table_word : decodeTableWord 32 0x80000012 = some .previewz ∧ decodeTableWord 32 0x12 = none :=
  ⟨rfl, rfl⟩

/-! ### Well-formedness: an ill-formed term for each check -/

theorem smoke_word_launches :
    (CommandWord.mk 1 0 0 0).wellFormed = false ∧ (CommandWord.mk 1 0 0 1).wellFormed = true := by decide
theorem smoke_word_reserved : (CommandWord.mk 1 0 1 1).wellFormed = false := by decide
theorem smoke_word_command :
    (CommandWord.mk 0 0 0 1).wellFormed = false ∧ (CommandWord.mk 5 0 0 1).wellFormed = false := by decide
theorem smoke_word_zeb :
    (CommandWord.mk 1 1 0 1).wellFormed = false ∧ (CommandWord.mk 2 1 0 1).wellFormed = true := by decide
theorem smoke_access_width : (RegAccess.mk .byte 4).wellFormed = false := by decide
theorem smoke_access_offset : (RegAccess.mk .word 5).wellFormed = false := by decide
theorem smoke_field : (Field.mk 0 1).wellFormed = false ∧ (Field.mk 32 0).wellFormed = false := by decide
theorem smoke_statement :
    (HostStmt.memw 65535 [1, 2]).wellFormed { inRange := 1024, addrW := 16 } = false ∧
    (HostStmt.memr 65535 1).wellFormed { inRange := 1024, addrW := 16 } = true ∧
    (HostStmt.wr (RegAccess.mk .half 4) 0).wellFormed Build.default = false ∧
    (HostStmt.rd (RegAccess.mk .word 6)).wellFormed Build.default = false ∧
    (HostStmt.poll (RegAccess.mk .word 8) (Field.mk 0 1) 0).wellFormed Build.default = false := by decide

/-! ### The commands -/

/-- V-U8. -/
theorem test_unpack_frame :
    bytesAfter (exec .unpack (framed 8 1 0 32 0x100 16
      [(4, 0xFF), (5, 0xFF), (6, 0xFF), (7, 0xFF), (8, 0xFF)])) 0x100 16 =
      some [3, 0, 3, 0, 3, 0, 3, 0, 0xFC, 3, 0xFC, 3, 0xFC, 3, 0xFC, 3] := by decide +kernel

/-- V-U1 and V-U7, at an odd destination. -/
theorem test_unpack_samples :
    bytesAfter (exec .unpack (framed 8 1 0 32 0x101 16
      [(0, 0xFF), (2, 0x80), (3, 1), (4, 0xE4), (5, 0x40), (6, 0x41), (7, 0x42), (8, 0x43), (9, 0x1B)])) 0x101 16 =
      some [0xFC, 3, 1, 0, 2, 2, 7, 0, 3, 1, 6, 1, 9, 1, 0x0C, 1] := by decide +kernel

/-- V-P1: the source byte at offset i is i (the bytes no pixel takes are left zero). -/
theorem test_preview_bytes :
    bytesAfter (exec .preview (framed 8 4 0 128 0x200 6 [(1, 1), (5, 5), (6, 6), (33, 33), (38, 38)])) 0x200 6 =
      some [0, 1, 33, 5, 6, 38] := by decide +kernel

/-- V-P4, with 0xFF in the bytes that a pixel takes. -/
theorem test_previewz_all_white :
    bytesAfter (exec .previewz (framed 16 8 0 256 0x300 24 ([0, 1, 5, 6, 10, 11, 15, 16, 33, 38, 43, 48, 128, 129, 133,
      134, 138, 139, 143, 144, 161, 166, 171, 176].map (fun a => (a, 0xFF))))) 0x300 24 =
      some [0, 0, 0, 255, 255, 255, 255, 255, 255, 0, 0, 0, 255, 255, 255, 255, 255, 255, 255, 255, 255, 0, 0, 0] := by
  decide +kernel

/-- V-L1: inputs 0, 3, 4 and 1023, 1024, 65535 through the table floor(k/4) (the entries they read). -/
def lutImage : State :=
  { framed 2 1 0 12 0x40 6 [(2, 3), (4, 4), (6, 0xFF), (7, 3), (9, 4), (10, 0xFF), (11, 0xFF)] with
    lutReady := true
    lut := [(0, 0), (1023, 255), (1024 + 3, 0), (1024 + 1023, 255), (2048 + 4, 1), (2048 + 1023, 255)] }

theorem test_lutapply_clamps : bytesAfter (exec .lutapply lutImage) 0x40 6 = some [0, 0, 1, 255, 255, 255] := by
  decide +kernel

/-- V-L5. -/
theorem test_lutapply_unwritten : faultOf (exec .lutapply { lutImage with lut := [] }) = some .unwrittenLut := by
  decide +kernel

/-- V-Z10. -/
theorem test_zebra_mixed :
    bytesAfter (exec .zebra (framed 4 2 0 0 0x10 24 (Memory.writeBytes [] 0x10
      [255, 255, 255, 255, 0, 255, 10, 20, 30, 255, 254, 255, 1, 2, 3, 4, 5, 6, 7, 8, 9, 255, 100, 255]))) 0x10 24 =
      some [0, 0, 0, 255, 0, 255, 10, 20, 30, 0, 254, 0, 1, 2, 3, 4, 5, 6, 7, 8, 9, 0, 100, 0] := by decide +kernel

/-- V-Z4: 1 × 9 visits rows 0, 4 and 8. -/
theorem test_zebra_narrow :
    bytesAfter (exec .zebra (framed 1 9 0 0 0x10 27 (Memory.writeBytes [] 0x10 (List.replicate 27 255)))) 0x10 27 =
      some ([0, 0, 0] ++ List.replicate 9 255 ++ [0, 0, 0] ++ List.replicate 9 255 ++ [0, 0, 0]) := by decide +kernel

/-! ### Errors (V-E) -/

/-- V-E1, V-E2, V-E3, V-E5 to V-E8, V-E12, V-E15 to V-E19. -/
theorem test_error_priority :
    checkCommand .unpack (framed 16 4 0 128 0x100 128 []) = none ∧
    checkCommand .unpack (framed 16 4 0 127 0x100 128 []) = some .sizeMismatch ∧
    checkCommand .unpack (framed 12 4 0 0 0 0 []) = some .invalidDimensions ∧
    checkCommand .unpack (framed 16 4 0 128 0x100 127 []) = some .dstTooSmall ∧
    checkCommand .unpack (framed 16 4 0 127 0x100 0 []) = some .sizeMismatch ∧
    checkCommand .unpack (framed 16 4 0 128 127 128 []) = some .bufferOverlap ∧
    checkCommand .unpack (framed 16 4 0 128 128 128 []) = none ∧
    checkCommand .preview (framed 16 6 0 1000 0 100 []) = some .invalidDimensions ∧
    checkCommand .lutapply (framed 3 1 0 0 0 0 []) = some .lutNotReady ∧
    checkCommand .lutapply (framed 0 1 0 0 0 0 []) = some .invalidDimensions ∧
    checkCommand .lutapply { framed 3 1 0 17 18 9 [] with lutReady := true } = some .sizeMismatch ∧
    checkCommand .zebra (framed 5 3 0 0 0 45 []) = none ∧
    checkCommand .zebra (framed 5 3 0 0 0 44 []) = some .dstTooSmall := by decide +kernel

/-- V-E9 to V-E11, with ADDR_W 16. -/
theorem test_address_range :
    checkCommand .unpack { framed 16 4 0 128 0xFF80 128 [] with build := { inRange := 1024, addrW := 16 } } = none ∧
    checkCommand .unpack { framed 16 4 0 128 0xFF81 128 [] with build := { inRange := 1024, addrW := 16 } } =
      some .addressRange ∧
    checkCommand .unpack { framed 16 4 0xFFC0 128 0x100 128 [] with build := { inRange := 1024, addrW := 16 } } =
      some .addressRange := by decide +kernel

/-- V-E26: STATUS and CTRL after an illegal word. -/
theorem test_illegal_word :
    regAfter (step (launch 0x80000014 State.reset)) .status = some 0x00000306 ∧
    regAfter (step (launch 0x80000014 State.reset)) .ctrl = some 0x00000014 := by decide +kernel

/-- The first step after reset over a placed word: UNPACK of a 0 × 0 frame fails with code 2. -/
theorem test_first_step :
    regAfter (step (State.reset.withFetchWord 32 0x80000001)) .status = some 0x00000206 := by decide +kernel

/-! ### Registers (V-R), alignment (V-S) -/

/-- V-R1. -/
theorem test_reset_registers :
    readReg .id State.reset = 0x56430001 ∧ readReg .param State.reset = 0x20000400 ∧
    [Reg.ctrl, .status, .irqEn, .width, .height, .stride, .srcAddr, .srcLen, .dstAddr, .dstLen, .lutCfg, .lutIdx,
      .reserved].all (fun r => readReg r State.reset == 0) = true ∧ irq State.reset = false := by decide +kernel

/-- V-R2 to V-R4. -/
theorem test_lut_pointer :
    readReg .status (writeReg .lutIdx 0x00030000 State.reset) = 8 ∧
    readReg .lutIdx (writeReg .lutIdx 0x00000400 State.reset) = 0 ∧
    (lutEntry (writeReg .lutData 0x1234 (writeReg .lutIdx 0x000203FF State.reset)) 2 1023 = some 0x34) ∧
    readReg .lutIdx (writeReg .lutData 0x1234 (writeReg .lutIdx 0x000203FF State.reset)) = 0 := by decide +kernel

/-- V-R8. -/
theorem test_status_clear :
    readReg .status (writeReg .status 4 { State.reset with done := true, err := true, ign := true, errCode := 1 }) =
      0x0000000A := by decide +kernel

/-- V-R7: a WIDTH write before the completion. -/
theorem test_write_while_busy :
    readReg .status (writeReg .width 8 (launch 0x80000001 State.reset)) = 9 ∧
    readReg .width (writeReg .width 8 (launch 0x80000001 State.reset)) = 0 := by decide +kernel

/-- V-S4 and V-S6. -/
theorem test_stride :
    [8, 16, 24, 32, 64, 128, 640, 1920, 4056, 65528, 12].map stride =
      [32, 32, 32, 64, 96, 160, 800, 2400, 5088, 81920, 32] ∧
    readReg .stride (writeReg .width 0x00012345 State.reset) = 0x2C20 := by decide +kernel

/-- V-R14, away from the destination: a byte outside keeps its value, and STATUS reads 0. -/
theorem test_reset_during_unpack :
    readReg .status (resetBlock (launch 0x80000001 (framed 16 4 0 128 0x2000 128 []))) = 0 ∧
    (abortedRegion (launch 0x80000001 (framed 16 4 0 128 0x2000 128 []))) = { base := 0x2000, len := 128 } := by
  decide +kernel

/-! ### The tone-curve compiler (V-T) -/

open ToneCurve

/-- V-T1 and V-T2, with gamma 1 and 11/5. -/
theorem test_identity_curve :
    [0, 3, 4, 256, 512, 1000, 1023].map (tableEntry [⟨0, 0⟩, ⟨255, 255⟩] ⟨1, 1⟩ 1024) = [0, 0, 1, 64, 128, 250, 255] ∧
    [0, 1, 4, 256, 512, 1020].map (tableEntry [⟨0, 0⟩, ⟨255, 255⟩] ⟨11, 5⟩ 1024) = [0, 10, 20, 136, 186, 255] := by
  decide +kernel

/-- V-T3 and V-T5. -/
theorem test_curves :
    [1, 256, 512, 768, 1023].map (tableEntry [⟨0, 0⟩, ⟨128, 192⟩, ⟨255, 255⟩] ⟨1, 1⟩ 1024) = [0, 112, 192, 239, 254] ∧
    [100, 300, 512, 600, 1023].map (tableEntry [⟨0, 0⟩, ⟨64, 128⟩, ⟨128, 0⟩, ⟨255, 255⟩] ⟨1, 1⟩ 1024) =
      [101, 115, 0, 0, 255] := by decide +kernel

/-- V-T6. -/
theorem test_degenerate :
    degenerate [⟨100, 100⟩] = true ∧ degenerate [⟨0, 0⟩, ⟨0, 255⟩] = true ∧ degenerate [⟨0, 0⟩, ⟨255, 255⟩] = false := by
  decide +kernel

/-! ### Witnesses: concrete states that meet the hypotheses of each statement of Obligations.lean, clause by clause -/

theorem portClean_of_nil {i : Instr} {s : State} (h : s.portErrors = []) : PortClean i s := by
  intro a _; simp [portFails, h]

theorem accepted_of_check {i : Instr} {s : State} (h : checkCommand i s = none) : Accepted i s :=
  checkCommand_none_iff.1 h

/-- The table of one entry a channel, with ADDR_W 16. -/
def tiny : Build := { inRange := 1, addrW := 16 }

/-- An 8 × 4 frame at 0, with room for any command's output at 0x100; READY, and a full table of one entry a channel. -/
def ready84 : State :=
  { framed 8 4 0 192 0x100 96 [] with build := tiny, lutReady := true, lut := [(0, 9), (1, 8), (2, 7)] }

theorem ready84_accepted (i : Instr) : Accepted i ready84 := by
  apply accepted_of_check; cases i <;> decide +kernel

theorem ready84_clean (i : Instr) : PortClean i ready84 := portClean_of_nil rfl

theorem ready84_written : EntriesWritten ready84 := by
  have h : ∀ n, n < 96 → (entryRead ready84 n).isSome = true := by decide +kernel
  exact fun n hn => h n hn

theorem ready84_runs (i : Instr) : Runs i ready84 := ⟨ready84_accepted i, ready84_clean i, fun _ => ready84_written⟩

/-- The engine is running a word over that frame. -/
def running (w : Word) : State := launch w ready84

/-- The host is about to run one statement over that frame. -/
def hosting (st : HostStmt) : State := { ready84 with program := [st] }

theorem hosting_does (st : HostStmt) : HostDoes (hosting st) st [] := ⟨rfl, rfl⟩

/-- The host moves while the engine is running a word. -/
def hostingBusy (w : Word) (st : HostStmt) : State := { running w with turns := [.host], program := [st] }

theorem hostingBusy_does (w : Word) (st : HostStmt) : HostDoes (hostingBusy w st) st [] := ⟨rfl, rfl⟩

theorem running_does (w : Word) : EngineDoes (running w) w := ⟨rfl, rfl⟩

theorem witness_OpcodeMapDecodes :
    ∀ w ∈ [0x80000000#32, 0x80000010#32, 0x80000005#32, 0x8000000F#32],
      w.getLsbD 31 = true ∧ (w.toNat % 16 = 0 ∨ 5 ≤ w.toNat % 16) := by
  intro w hw; fin_cases hw <;> decide

theorem witness_IllegalWordCompletes :
    ∀ w ∈ [0x80000021#32, 0xC0000001#32, 0x80000000#32, 0x80000005#32, 0x80000011#32, 0x80000014#32],
      EngineDoes (running w) w ∧ w.getLsbD 31 = true ∧
      (w.toNat / 32 % 2 ^ 26 ≠ 0 ∨ w.toNat % 16 = 0 ∨ 5 ≤ w.toNat % 16 ∨
        (w.toNat / 16 % 2 = 1 ∧ w.toNat % 16 ≠ 2)) := by
  intro w hw
  refine ⟨running_does w, ?_⟩
  fin_cases hw <;> decide

theorem witness_StepRunsTheLaunchedCommand (i : Instr) :
    EngineDoes (running (encode i)) (encode i) ∧ decode (encode i) = .ok i :=
  ⟨running_does _, by cases i <;> rfl⟩

theorem reset_inv : Inv State.reset := by
  refine ⟨by decide, by decide, ?_, by decide, ?_, by decide, by decide, by decide, by decide, by decide, by decide,
    by decide, ?_⟩
  · intro c hc; cases hc
  · intro c hc; cases hc
  · intro w hw; cases hw

/-- A busy state that meets the invariant and steps to a next state. -/
theorem witness_StepKeepsInv : Inv (launch 0x80000001 State.reset) ∧
    ∃ t, step (launch 0x80000001 State.reset) = .next t := by
  refine ⟨⟨by decide, by decide, ?_, by decide, ?_, by decide, by decide, by decide, by decide, by decide, by decide,
    by decide, ?_⟩, _, rfl⟩
  · intro c hc; cases hc
  · intro c hc; cases hc
  · intro w hw; injection hw with hw; subst hw; decide

/-- IDLE to BUSY, and BUSY to IDLE by completion and by reset. -/
theorem witness_PhaseChangesOnlyAtLaunchAndCompletion :
    (∃ t, step (hosting (.wr (regAccess .ctrl) 0x80000001)) = .next t ∧
      isBusy (hosting (.wr (regAccess .ctrl) 0x80000001)) = false ∧ isBusy t = true) ∧
    (∃ t, step (running 0x80000021) = .next t ∧ isBusy (running 0x80000021) = true ∧ isBusy t = false) ∧
    (∃ t, step { running 0x80000021 with turns := [.reset] } = .next t ∧ isBusy t = false) :=
  ⟨⟨_, rfl, rfl, rfl⟩, ⟨_, rfl, rfl, rfl⟩, ⟨_, rfl, rfl⟩⟩

theorem witness_OnlyLutDataWritesChangeTheTable :
    (∃ t, step (hosting (.wr (regAccess .lutData) 5)) = .next t ∧
      t.lut ≠ (hosting (.wr (regAccess .lutData) 5)).lut) ∧
    (∃ t, step { ready84 with turns := [.reset] } = .next t ∧ t.lut ≠ ready84.lut) :=
  ⟨⟨_, rfl, by decide⟩, ⟨_, rfl, by decide⟩⟩

theorem witness_OnlyTheHostAndResetChangeReady :
    (∃ t, step (hosting (.wr (regAccess .lutCfg) 0)) = .next t ∧ t.lutReady ≠ ready84.lutReady) ∧
    (∃ t, step { ready84 with turns := [.reset] } = .next t ∧ t.lutReady ≠ ready84.lutReady) :=
  ⟨⟨_, rfl, by decide⟩, ⟨_, rfl, by decide⟩⟩

theorem witness_BuildNeverChanges : ∃ t, step { ready84 with turns := [.reset] } = .next t := ⟨_, rfl⟩

theorem witness_OperandsStableWhileBusy :
    ∃ t, step (hostingBusy 0x80000001 (.wr (regAccess .width) 16)) = .next t ∧
      isBusy (hostingBusy 0x80000001 (.wr (regAccess .width) 16)) = true ∧
      nextTurn (hostingBusy 0x80000001 (.wr (regAccess .width) 16)) ≠ .reset ∧
      nextTurn (hostingBusy 0x80000001 (.wr (regAccess .width) 16)) ≠ .resetDuringAccess :=
  ⟨_, rfl, rfl, by decide, by decide⟩

theorem witness_HostStatementAccessesTheRegister (r : Reg) :
    (HostDoes (hosting (.wr (regAccess r) 1)) (.wr (regAccess r) 1) [] ∧ decodeAccess (regAccess r) = some r) ∧
    HostDoes (hosting (.rd (regAccess r))) (.rd (regAccess r)) [] :=
  ⟨⟨hosting_does _, by cases r <;> decide⟩, hosting_does _⟩

/-- A byte access, a half access, and offsets next to an aligned one. -/
theorem witness_UnalignedAccessFaults :
    ∀ a ∈ [RegAccess.mk .byte 4, RegAccess.mk .half 4, RegAccess.mk .word 5, RegAccess.mk .word 7],
      (a.width ≠ .word ∨ a.offset.toNat % 4 ≠ 0) ∧ HostDoes (hosting (.wr a 1)) (.wr a 1) [] ∧
      HostDoes (hosting (.rd a)) (.rd a) [] ∧ HostDoes (hosting (.poll a ⟨1, 1⟩ 1)) (.poll a ⟨1, 1⟩ 1) [] := by
  intro a ha
  refine ⟨?_, hosting_does _, hosting_does _, hosting_does _⟩
  revert a; decide

theorem witness_WritesWhileBusy : isBusy (running 0x80000001) = true ∧ (0xE#32).getLsbD 1 = true ∧
    (0xE#32).getLsbD 2 = true ∧ (0xE#32).getLsbD 3 = true := by decide

theorem witness_CtrlWriteLaunches :
    isBusy (running 0x80000001) = true ∧ isBusy ready84 = false ∧ (0x7FFFFFFF#32).getLsbD 31 = false ∧
    (0x80000000#32).getLsbD 31 = true := by decide

theorem witness_PlainRegistersReadBack : isBusy ready84 = false ∧ ready84.build.wf := by decide

theorem witness_ConstantRegisters :
    ready84.build.wf ∧ State.reset.build = { inRange := 1024, addrW := 32 } ∧
    Build.wf { inRange := 65536, addrW := 32 } := by decide

theorem witness_StrideFollowsWidth : isBusy ready84 = false := rfl

/-- The pointer's bounds: the last entry, one past it, and channel 3. -/
theorem witness_LutIdxWriteNamesAnEntry :
    isBusy State.reset = false ∧
    ((0x000203FF#32).toNat / 2 ^ 16 % 4 ≤ 2 ∧ (0x000203FF#32).toNat % 2 ^ 16 < State.reset.build.inRange) ∧
    ¬ ((0x00000400#32).toNat / 2 ^ 16 % 4 ≤ 2 ∧ (0x00000400#32).toNat % 2 ^ 16 < State.reset.build.inRange) ∧
    ¬ ((0x00030000#32).toNat / 2 ^ 16 % 4 ≤ 2 ∧ (0x00030000#32).toNat % 2 ^ 16 < State.reset.build.inRange) := by decide

/-- Both sides of the pointer's move, and a written entry to read. -/
theorem witness_LutDataAccess :
    (State.reset.build.wf ∧ State.reset.lutCh.toNat ≤ 2 ∧ State.reset.lutIdx.toNat + 1 < State.reset.build.inRange) ∧
    (ready84.build.wf ∧ ready84.lutCh.toNat ≤ 2 ∧ ready84.lutIdx.toNat < ready84.build.inRange ∧
      ¬ ready84.lutIdx.toNat + 1 < ready84.build.inRange ∧ isBusy ready84 = false) ∧
    lutEntry ready84 ready84.lutCh.toNat ready84.lutIdx.toNat = some 9 := by decide

theorem witness_UnwrittenEntryReadsAFreshDraw :
    lutEntry State.reset State.reset.lutCh.toNat State.reset.lutIdx.toNat = none := by decide

theorem witness_LutLoadFillsTheTable :
    isBusy ready84 = false ∧ ready84.build.wf ∧ ready84.lutCh = 0 ∧ ready84.lutIdx = 0 ∧
    ([1, 2, 3] : List Byte).length = 3 * ready84.build.inRange := by decide

theorem witness_InterruptLevel :
    (EngineDoes (running 0x80000021) 0x80000021 ∧ ∃ t, step (running 0x80000021) = .next t) ∧
    (failWith .illegalCommand ready84).done = true ∧
    (2#32).getLsbD 1 = true ∧ isBusy ready84 = false ∧ (0x80000001#32).getLsbD 31 = true ∧
    nextTurn { ready84 with turns := [.reset] } = .reset ∧
    (∃ t, step { ready84 with turns := [.reset] } = .next t) ∧
    nextTurn { ready84 with turns := [.resetDuringAccess] } = .resetDuringAccess ∧
    ∃ t, step { ready84 with turns := [.resetDuringAccess] } = .next t :=
  ⟨⟨running_does _, _, rfl⟩, rfl, rfl, rfl, rfl, rfl, ⟨_, rfl⟩, rfl, _, rfl⟩

/-- Each place in the chain of checks is reached. -/
theorem witness_ErrorPriority :
    (EngineDoes (running 0x80000021) 0x80000021 ∧ decode 0x80000021 = .error .reservedBits) ∧
    checkCommand .preview (framed 8 2 0 0 0 0 []) = some .invalidDimensions ∧
    checkCommand .lutapply (framed 1 1 0 0 0 0 []) = some .lutNotReady ∧
    checkCommand .unpack (framed 8 1 0 31 0x100 15 []) = some .sizeMismatch ∧
    checkCommand .unpack (framed 8 1 0 32 0x100 15 []) = some .dstTooSmall ∧
    checkCommand .unpack (framed 8 1 0xFFFFFFE1 32 0x100 16 []) = some .addressRange ∧
    checkCommand .zebra (framed 1 1 0 0 0xFFFFFFFE 3 []) = some .addressRange ∧
    checkCommand .unpack (framed 8 1 0 32 31 16 []) = some .bufferOverlap ∧
    checkCommand .unpack (framed 8 1 0 32 32 16 []) = none := ⟨⟨running_does _, rfl⟩, by decide +kernel⟩

theorem witness_FailedCommandChangesStatusOnly : checkCommand .unpack State.reset = some .invalidDimensions := by decide

theorem witness_CommandEndsInOneOfTwoWays :
    (∃ t, exec .unpack State.reset = .next t) ∧ ∃ t, exec .zebra ready84 = .next t :=
  ⟨⟨_, rfl⟩, _, exec_of_accepted (ready84_accepted .zebra)⟩

/-- The bytes next to the destination region on both sides. -/
theorem witness_WritesStayInsideTheDestination :
    (∃ t, exec .zebra ready84 = .next t) ∧ 0xFF < dstBase ready84 ∧
    dstBase ready84 + needDst .zebra ready84 ≤ 0x160 :=
  ⟨⟨_, exec_of_accepted (ready84_accepted .zebra)⟩, by decide, by decide⟩

/-- The first destination byte of every command answers with an error; for ZEBRA it is the first visited sample. -/
theorem witness_PortErrorFaults (i : Instr) :
    Accepted i { ready84 with portErrors := [{ base := 0x100, len := 1 }] } ∧
    Touches i { ready84 with portErrors := [{ base := 0x100, len := 1 }] } 0x100 ∧
    portFails { ready84 with portErrors := [{ base := 0x100, len := 1 }] } 0x100 = true := by
  refine ⟨accepted_of_check (by cases i <;> decide +kernel), ?_, by decide⟩
  cases i with
  | unpack => exact .inr (by decide)
  | preview => exact .inr (by decide)
  | previewz => exact .inr (by decide)
  | lutapply => exact .inr (by decide)
  | zebra => exact ⟨0, ⟨0, 0, .first (by decide), by omega, rfl⟩, rfl⟩

theorem read_of_one {k a : Nat} {v : Byte} (h : a ≠ k) : Memory.read [(k, v)] a = Memory.read [] a := by
  have h' : ¬ k = a := fun e => h e.symm
  simp [Memory.read, Cells.get?, h']

/-- A byte that the command does not read: a packed row's padding for UNPACK, an old destination byte for the others that
have one, a byte outside the image for ZEBRA. -/
def unread : Instr → Nat
  | .unpack => 20
  | .preview => 0x100
  | .previewz => 0x100
  | .lutapply => 0x100
  | .zebra => 0x160

/-- A memory that differs in such a byte. -/
theorem witness_OutputDependsOnBytesRead (i : Instr) :
    Runs i ready84 ∧ (∀ a, Reads i ready84 a → Memory.read [(unread i, 0x77)] a = Memory.read ready84.mem a) ∧
    Memory.read [(unread i, 0x77)] (unread i) ≠ Memory.read ready84.mem (unread i) := by
  refine ⟨ready84_runs _, fun a ha => read_of_one ?_, by cases i <;> decide⟩
  have hW : frameW ready84 = 8 := rfl
  have hH : frameH ready84 = 4 := rfl
  have hS : frameS ready84 = 32 := by decide
  have hs : srcBase ready84 = 0 := rfl
  have hd : dstBase ready84 = 0x100 := rfl
  cases i with
  | unpack =>
    obtain ⟨y, g, b, hy, hg, hb, rfl⟩ := ha
    simp only [hW, hH, hS, hs, unread] at *
    rcases Nat.eq_zero_or_pos y with rfl | h <;> omega
  | preview => obtain ⟨r, gx, o, hr, hg, ho, rfl⟩ := ha; simp only [hW, hH, hS, hs, unread] at *; omega
  | previewz => obtain ⟨r, gx, o, hr, hg, ho, rfl⟩ := ha; simp only [hW, hH, hS, hs, unread] at *; omega
  | lutapply => obtain ⟨_, h⟩ := ha; simp only [hW, hH, hs, unread] at *; omega
  | zebra => obtain ⟨_, h⟩ := ha; simp only [hW, hH, hd, unread] at *; omega

theorem witness_UnpackResult : Accepted .unpack ready84 ∧ PortClean .unpack ready84 :=
  ⟨ready84_accepted _, ready84_clean _⟩

/-- The zero frame is packed from the value 0. -/
theorem witness_ConstantFrameUnpacksConstant :
    Accepted .unpack ready84 ∧ PortClean .unpack ready84 ∧
    ∀ y g, y < frameH ready84 → g < frameW ready84 / 4 →
      (∀ i, i < 4 → (Memory.read ready84.mem (srcBase ready84 + y * frameS ready84 + 5 * g + i)).toNat = 0 / 4) ∧
      (Memory.read ready84.mem (srcBase ready84 + y * frameS ready84 + 5 * g + 4)).toNat = 0 % 4 * 0x55 :=
  ⟨ready84_accepted _, ready84_clean _, fun _ _ _ _ => ⟨fun _ _ => rfl, rfl⟩⟩

theorem witness_PreviewResult : Accepted .preview ready84 ∧ PortClean .preview ready84 :=
  ⟨ready84_accepted _, ready84_clean _⟩

theorem witness_PreviewzIsPreviewThenZebra : Accepted .previewz ready84 ∧ PortClean .previewz ready84 :=
  ⟨ready84_accepted _, ready84_clean _⟩

theorem witness_LutapplyResult :
    Accepted .lutapply ready84 ∧ PortClean .lutapply ready84 ∧ EntriesWritten ready84 :=
  ⟨ready84_accepted _, ready84_clean _, ready84_written⟩

theorem witness_UnwrittenEntryFaults :
    Accepted .lutapply { ready84 with lut := [] } ∧ PortClean .lutapply { ready84 with lut := [] } ∧
    0 < 3 * frameW { ready84 with lut := [] } * frameH { ready84 with lut := [] } ∧
    lutWritten { ready84 with lut := [] } (0 % 3)
      (min (cell16 ({ ready84 with lut := [] } : State).mem (srcBase ready84 + 2 * 0)) (tiny.inRange - 1)) = false :=
  ⟨accepted_of_check (by decide +kernel), portClean_of_nil rfl, by decide, by decide⟩

/-- The cells of a function on the keys below `n`. -/
def cellsOf (f : Nat → Byte) (n : Nat) : List Host.Cell := (List.range n).map (fun j => (j, f j))

theorem get?_map_of_mem (f : Nat → Byte) (l : List Nat) (k : Nat) (h : k ∈ l) :
    Cells.get? (l.map (fun j => (j, f j))) k = some (f k) := by
  induction l with
  | nil => cases h
  | cons a rest ih =>
    simp only [List.map_cons, Cells.get?]
    by_cases hak : a = k
    · subst hak; simp
    · rw [if_neg hak]; exact ih ((List.mem_cons.1 h).resolve_left (fun e => hak e.symm))

theorem lutEntry_cellsOf {s : State} {f : Nat → Byte} {n c k : Nat} (h : s.lut = cellsOf f n)
    (hk : c * s.build.inRange + k < n) : lutEntry s c k = some (f (c * s.build.inRange + k)) := by
  unfold lutEntry lutKey
  rw [h]
  exact get?_map_of_mem f _ _ (List.mem_range.2 hk)

/-- A one-pixel image of zeros and a table. -/
def image11 (table : List Host.Cell) : State := { framed 1 1 0 6 0x100 3 [] with lutReady := true, lut := table }

/-- The whole identity table. -/
def identityCells : List Host.Cell := cellsOf (fun j => BitVec.ofNat 8 (j % 1024 / 4)) 3072

theorem image11_accepted (table : List Host.Cell) : Accepted .lutapply (image11 table) := accepted_of_check rfl

theorem image11_clean (table : List Host.Cell) : PortClean .lutapply (image11 table) := portClean_of_nil rfl
theorem image11_lut (table : List Host.Cell) : (image11 table).lut = table := rfl
theorem image11_range (table : List Host.Cell) : (image11 table).build.inRange = 1024 := rfl
theorem image11_zero (table : List Host.Cell) (n : Nat) :
    cell16 (image11 table).mem (srcBase (image11 table) + 2 * n) = 4 * (0 : Byte).toNat := rfl

theorem image11_identity (c k : Nat) (hc : c ≤ 2) (hk : k < 1024) :
    lutEntry (image11 identityCells) c k = some (BitVec.ofNat 8 (k / 4)) := by
  have hb := image11_range identityCells
  rw [lutEntry_cellsOf ((image11_lut identityCells).trans identityCells.eq_1) (by rw [hb]; omega), hb,
    show (c * 1024 + k) % 1024 = k by omega]

theorem witness_IdentityTableRestoresTheImage :
    Accepted .lutapply (image11 identityCells) ∧ PortClean .lutapply (image11 identityCells) ∧
    (image11 identityCells).build.inRange = 1024 ∧
    (∀ c k, c ≤ 2 → k < 1024 → lutEntry (image11 identityCells) c k = some (BitVec.ofNat 8 (k / 4))) ∧
    ∀ n, n < 3 * frameW (image11 identityCells) * frameH (image11 identityCells) →
      cell16 (image11 identityCells).mem (srcBase (image11 identityCells) + 2 * n) = 4 * (0 : Byte).toNat :=
  ⟨image11_accepted _, image11_clean _, image11_range _, image11_identity, fun n _ => image11_zero _ n⟩

theorem witness_ZebraResult : Accepted .zebra ready84 ∧ PortClean .zebra ready84 :=
  ⟨ready84_accepted _, ready84_clean _⟩

/-- The zero image has no sample 255. -/
theorem witness_ZebraIdempotent :
    Accepted .zebra ready84 ∧ PortClean .zebra ready84 ∧
    ∀ d, d < 3 * frameW ready84 * frameH ready84 → Memory.read ready84.mem (dstBase ready84 + d) ≠ 255 := by
  refine ⟨ready84_accepted _, ready84_clean _, fun d _ => ?_⟩
  have hz : Memory.read ready84.mem (dstBase ready84 + d) = 0 := rfl
  rw [hz]; decide

/-- The narrowest image of the closed form, its last row and its first and last columns (V-Z3). -/
theorem witness_ZebraColumnsClosedForm : 4 ≤ 4 ∧ 1 < 2 ∧ 0 < 4 ∧ 3 < 4 ∧ zebraFirst 4 1 = 3 := by decide

/-- A white image of two pixels. -/
theorem witness_ZebraZeroesSomeNotAll :
    Accepted .zebra (framed 2 1 0 0 0 6 (Memory.writeBytes [] 0 (List.replicate 6 255))) ∧
    PortClean .zebra (framed 2 1 0 0 0 6 (Memory.writeBytes [] 0 (List.replicate 6 255))) ∧
    2 ≤ 2 * 1 ∧
    ∀ d, d < 6 → Memory.read (Memory.writeBytes [] 0 (List.replicate 6 255)) (0 + d) = 255 :=
  ⟨accepted_of_check (by decide +kernel), portClean_of_nil rfl, by decide, by decide⟩

/-- The first and the last byte of both regions of a running UNPACK (source 0 … 127, destination 0x100 … 0x13F). -/
theorem witness_HostRaceFaults :
    decode 0x80000001 = .ok .unpack ∧ needSrc .unpack (running 0x80000001) = some 128 ∧
    (∀ a ∈ [0, 127, 0x100, 0x13F], HostDoes (hostingBusy 0x80000001 (.memw a [1])) (.memw a [1]) [] ∧
      a + ([1] : List Byte).length ≤ 2 ^ tiny.addrW ∧
      ((srcBase (running 0x80000001) ≤ a + 0 ∧ a + 0 < srcBase (running 0x80000001) + 128) ∨
        (dstBase (running 0x80000001) ≤ a + 0 ∧
          a + 0 < dstBase (running 0x80000001) + needDst .unpack (running 0x80000001)))) ∧
    ∀ a ∈ [0x100, 0x13F], HostDoes (hostingBusy 0x80000001 (.memr a 1)) (.memr a 1) [] ∧ a + 1 ≤ 2 ^ tiny.addrW ∧
      dstBase (running 0x80000001) ≤ a ∧
      a < dstBase (running 0x80000001) + needDst .unpack (running 0x80000001) := by
  refine ⟨rfl, by decide, fun a ha => ⟨hostingBusy_does _ _, ?_⟩, fun a ha => ⟨hostingBusy_does _ _, ?_⟩⟩ <;>
    (revert a; decide)

/-- The last byte of the memory while IDLE, and the bytes next to both regions while BUSY. -/
theorem witness_HostMemoryAccess :
    (HostDoes (hosting (.memw 65535 [1])) (.memw 65535 [1]) [] ∧ 65535 + ([1] : List Byte).length ≤ 2 ^ tiny.addrW) ∧
    (HostDoes (hosting (.memr 65535 1)) (.memr 65535 1) [] ∧ 65535 + 1 ≤ 2 ^ tiny.addrW) ∧
    ∀ a ∈ [128, 0xFF, 0x140],
      HostDoes (hostingBusy 0x80000001 (.memw a [1])) (.memw a [1]) [] ∧
      (a < srcBase (running 0x80000001) ∨ srcBase (running 0x80000001) + 128 ≤ a) ∧
      (a < dstBase (running 0x80000001) ∨
        dstBase (running 0x80000001) + needDst .unpack (running 0x80000001) ≤ a) := by
  refine ⟨⟨hosting_does _, by decide⟩, ⟨hosting_does _, by decide⟩, fun a ha => ⟨hostingBusy_does _ _, ?_⟩⟩
  revert a; decide

theorem witness_PollRepeatsUntilEqual :
    HostDoes (hosting pollDone) pollDone [] ∧ decodeAccess (regAccess .status) = some .status :=
  ⟨hosting_does _, by decide⟩

/-- A reset during a command, alone and with a register access in its turn. -/
theorem witness_ResetValues :
    ∀ n ∈ [Turn.reset, Turn.resetDuringAccess], nextTurn { running 0x80000001 with turns := [n] } = n ∧
    ∃ t, step { running 0x80000001 with turns := [n] } = .next t := by
  intro n hn
  simp only [List.mem_cons, List.not_mem_nil, or_false] at hn
  rcases hn with rfl | rfl <;> exact ⟨rfl, _, rfl⟩

/-- A running UNPACK with a byte in and a byte out of its destination, an idle block, and an illegal word; with and without
a register access in the reset's turn. -/
theorem witness_ResetDuringACommand :
    ((running 0x80000001).engine = .busy 0x80000001 ∧ decode 0x80000001 = .ok .unpack ∧
      0 < needDst .unpack (running 0x80000001) ∧ dstBase (running 0x80000001) + 0 < 2 ^ tiny.addrW) ∧
    ready84.engine = .idle ∧ ((running 0x80000021).engine = .busy 0x80000021 ∧
      decode 0x80000021 = .error .reservedBits) ∧
    (∃ t, step { hostingBusy 0x80000001 (rd .width) with turns := [.resetDuringAccess] } = .next t) ∧
    (∃ t, step { hostingBusy 0x80000021 (rd .width) with turns := [.resetDuringAccess] } = .next t) ∧
    ∃ t, step { hosting (rd .width) with turns := [.resetDuringAccess] } = .next t :=
  ⟨⟨rfl, rfl, by decide, by decide⟩, rfl, ⟨rfl, rfl⟩, ⟨_, rfl⟩, ⟨_, rfl⟩, _, rfl⟩

/-- Every form a statement can have in the reset's turn, a misaligned register access and no statement at all among them. -/
theorem witness_AccessDuringResetIsIgnored :
    (∀ st ∈ [wr .width 1, rd .width, pollDone, .rd { width := .half, offset := 4 }, .memw 0 [1], .memr 0 1],
      nextTurn { hosting st with turns := [.resetDuringAccess] } = .resetDuringAccess ∧ (hosting st).program = st :: []) ∧
    nextTurn { ready84 with turns := [.resetDuringAccess] } = .resetDuringAccess ∧ ready84.program = [] ∧
    decodeAccess (regAccess .width) = some .width ∧ decodeAccess (regAccess .status) = some .status ∧
    decodeAccess { width := .half, offset := 4 } = none :=
  ⟨fun _ _ => ⟨rfl, rfl⟩, rfl, rfl, by decide, by decide, by decide⟩

/-- A legal word over a runnable frame, a legal word whose checks fail, and an illegal word. -/
theorem witness_LaunchedCommandCompletes :
    ready84.engine = .idle ∧ ready84.turns = [] ∧ (0x80000001#32).getLsbD 31 = true ∧
    (∀ i, decode 0x80000001 = .ok i → Runs i ready84 ∨ ∃ e, checkCommand i ready84 = some e) ∧
    (∀ i, decode 0x80000001 = .ok i → Runs i State.reset ∨ ∃ e, checkCommand i State.reset = some e) ∧
    ∀ i, decode 0x80000021 ≠ .ok i :=
  ⟨rfl, rfl, rfl, fun i _ => .inl (ready84_runs i), fun i _ => .inr ⟨.invalidDimensions, by cases i <;> decide⟩,
    fun i h => by cases h⟩

theorem witness_RunPseudoEndsDone (i : Instr) :
    ready84.engine = .idle ∧ ready84.turns = [] ∧
    ({ ready84 with program := runPseudo i } : State).program = runPseudo i ++ [] ∧ Runs i ready84 :=
  ⟨rfl, rfl, (List.append_nil _).symm, ready84_runs i⟩

theorem witness_SimultaneousCompletionAndWrite :
    (running 0x80000001).engine = .busy 0x80000001 ∧ decode 0x80000001 = .ok .unpack ∧ Runs .unpack (running 0x80000001) ∧
    (2#32).getLsbD 1 = true :=
  ⟨rfl, rfl, ⟨accepted_of_check (by decide +kernel), portClean_of_nil rfl, fun h => by cases h⟩, rfl⟩

/-- Each way to be degenerate; two points of distinct x in the domain; one a step outside it; each gamma that is refused. -/
theorem witness_DegenerateCurveRefused :
    ([⟨100, 100⟩] : List Point).length < 2 ∧ ¬ (([⟨0, 0⟩, ⟨0, 255⟩] : List Point).map Point.x).Nodup ∧
    2 ≤ ([⟨0, 0⟩, ⟨255, 255⟩] : List Point).length ∧ (([⟨0, 0⟩, ⟨255, 255⟩] : List Point).map Point.x).Nodup ∧
    inDomain [⟨0, 0⟩, ⟨255, 255⟩] ∧ (([⟨0, 0⟩, ⟨256, 255⟩] : List Point).map Point.x).Nodup ∧
    255 < (Point.mk 256 255).x ∧ (Gamma.mk 0 1).num = 0 ∧ (Gamma.mk 1 0).den = 0 ∧
    0 < Gamma.default.num ∧ 0 < Gamma.default.den := by decide +kernel

theorem witness_InterpolantPassesThroughPoints :
    2 ≤ ([⟨0, 0⟩, ⟨128, 192⟩, ⟨255, 255⟩] : List Point).length ∧
    (([⟨0, 0⟩, ⟨128, 192⟩, ⟨255, 255⟩] : List Point).map Point.x).Nodup := by decide +kernel

/-- A curve set as real points, curve by curve. -/
def realCurves (c : List Point) : List RealPoint := c.map (fun p => ⟨(p.x : Real), (p.y : Real)⟩)

theorem witness_QuantiseIsTheRealFormula :
    0 < Gamma.default.num ∧ 0 < Gamma.default.den ∧ List.Forall₂ RealPoint.IsCast [⟨0, 0⟩, ⟨255, 255⟩]
      (Curves.mk (realCurves [⟨0, 0⟩, ⟨255, 255⟩]) (realCurves [⟨0, 0⟩, ⟨255, 255⟩])
        (realCurves [⟨0, 0⟩, ⟨255, 255⟩])).ch0 :=
  ⟨by decide, by decide, .cons ⟨rfl, rfl⟩ (.cons ⟨rfl, rfl⟩ .nil)⟩

theorem witness_IdentityCurveTable : 0 < 1024 ∧ 1023 < 1024 := by decide

/-- The command of a frame over the runnable frame's registers, and the same with a source that is one byte short. -/
theorem witness_FrameEndsAsTheBlockReports :
    ready84.engine = .idle ∧ ready84.turns = [] ∧
    (∀ i, Runs i (writeReg .dstLen 96 (writeReg .dstAddr 0x100 (writeReg .srcLen 192 (writeReg .srcAddr 0 ready84))))) ∧
    checkCommand .unpack (writeReg .dstLen 96 (writeReg .dstAddr 0x100 (writeReg .srcLen 127 (writeReg .srcAddr 0 ready84)))) =
      some .sizeMismatch ∧
    statusError 0x00000106 = some 1 ∧ statusError 0x00000002 = none :=
  ⟨rfl, rfl, fun i => ready84_runs i, by decide, by decide, by decide⟩

/-! ### The frame processor and the compiler's refusals -/

/-- R124: UNPACK's error, LUTAPPLY's error, the 8-bit image and the 16-bit image of a 8 × 4 frame. -/
theorem test_frame_outcome :
    [frameOutcome ⟨8, 4, 0x100, 0x200, 0x300⟩ true 0x00000106 0, frameOutcome ⟨8, 4, 0x100, 0x200, 0x300⟩ true 2 0x00000506,
      frameOutcome ⟨8, 4, 0x100, 0x200, 0x300⟩ true 2 2, frameOutcome ⟨8, 4, 0x100, 0x200, 0x300⟩ false 2 0] =
      [.failed 1, .failed 5, .image8 ⟨0x300, 96⟩, .image16 ⟨0x200, 192⟩] := by decide

/-- R102, R103: the defaults, and each refusal of the compiler. -/
theorem test_compile_refusals :
    (Gamma.default, defaultInRange) = (⟨11, 5⟩, 1024) ∧
    compile [⟨0, 0⟩] [⟨0, 0⟩, ⟨1, 1⟩] [⟨0, 0⟩, ⟨1, 1⟩] ⟨0, 1⟩ = .error .degenerateCurve ∧
    compile [⟨0, 0⟩, ⟨1, 1⟩] [⟨0, 0⟩, ⟨1, 1⟩] [⟨0, 0⟩, ⟨1, 1⟩] ⟨0, 1⟩ = .error .badGamma ∧
    compile [⟨0, 0⟩, ⟨1, 1⟩] [⟨0, 0⟩, ⟨1, 1⟩] [⟨0, 0⟩, ⟨256, 1⟩] = .error .badPoint := by
  refine ⟨by decide, ?_, ?_, ?_⟩ <;> rfl

end Sys2Proof.Tests
end

section
/-! SUPPORT. The build parameters along a step (00_scope.md R7, R8): each shared operation keeps them, then each agent's turn,
then the step. -/

namespace Sys2Proof.Machine

/-! ### The register port -/

@[simp] theorem afterRead_build (r : Reg) (s : State) : (afterRead r s).build = s.build := by
  rw [afterRead_eq]

@[simp] theorem hostRead_build (r : Reg) (s : State) : (hostRead r s).build = s.build := by
  simp [hostRead]

theorem whenIdle_build {s s' : State} (h : s'.build = s.build) : (whenIdle s s').build = s.build := by
  cases hb : isBusy s with
  | true => rw [whenIdle_busy hb, setIgnored_build]
  | false => rw [whenIdle_idle hb, h]

@[simp] theorem writeCtrl_build (v : Word) (s : State) : (writeCtrl v s).build = s.build := by
  unfold writeCtrl; split <;> rfl

@[simp] theorem writeLutIdx_build (v : Word) (s : State) : (writeLutIdx v s).build = s.build := by
  rcases writeLutIdx_cases v s with h | ⟨c, k, -, -, h⟩ <;> rw [h]
  exact setIgnored_build s

@[simp] theorem writeLutData_build (v : Word) (s : State) : (writeLutData v s).build = s.build := by
  rw [writeLutData_eq]

@[simp] theorem writeReg_build (r : Reg) (v : Word) (s : State) : (writeReg r v s).build = s.build := by
  cases r with
  | id | status | irqEn | stride | param | reserved => rfl
  | width | height | srcAddr | srcLen | dstAddr | dstLen | lutCfg => exact whenIdle_build rfl
  | ctrl => exact whenIdle_build (writeCtrl_build v s)
  | lutIdx => exact whenIdle_build (writeLutIdx_build v s)
  | lutData => exact whenIdle_build (writeLutData_build v s)

/-! ### The agents' turns -/

theorem exec_build {i : Instr} {s t : State} (h : exec i s = .next t) : t.build = s.build := by
  rcases exec_next h with ⟨e, -, rfl⟩ | ⟨-, m, -, rfl⟩
  · exact failWith_build e s
  · exact completeWith_build m s

theorem engineTurn_build {s t : State} (h : engineTurn s = .next t) : t.build = s.build := by
  rcases engineTurn_cases h with ⟨-, rfl⟩ | ⟨w, r, -, -, rfl⟩ | ⟨w, i, -, -, hi⟩
  · rfl
  · exact failWith_build .illegalCommand s
  · exact exec_build hi

theorem runStmt_build {st : HostStmt} {s t : State} (h : runStmt st s = .next t) : t.build = s.build := by
  rcases runStmt_cases h with ⟨a, r, v, -, -, rfl⟩ | ⟨r, p, rfl⟩ | ⟨a, bytes, -, -, -, rfl⟩ | ⟨a, n, -, -, -, rfl⟩
  · exact writeReg_build r v s
  · exact hostRead_build r s
  · rfl
  · exact observe_build _ s

/-- A reset keeps the parameters of the build it resets (70_reset_and_hazards.md R147). -/
@[simp] theorem resetBlock_build (s : State) : (resetBlock s).build = s.build := rfl

@[simp] theorem dropAccess_build (s : State) : (dropAccess s).build = s.build := by
  rw [dropAccess_eq]

theorem step_build {s t : State} (h : step s = .next t) : t.build = s.build := by
  rcases step_cases h with ⟨-, he⟩ | ⟨-, -, rfl⟩ | ⟨-, st, rest, -, hr⟩ | ⟨-, rfl⟩ | ⟨-, rfl⟩
  · exact (engineTurn_build he).trans (popTurn_build s)
  · exact popTurn_build s
  · exact (runStmt_build hr).trans (popTurn_build s)
  · rw [resetBlock_build, popTurn_build]
  · rw [dropAccess_build, resetBlock_build, popTurn_build]

/-- Settles O12: every agent's turn keeps the build, reset included. -/
theorem buildNeverChanges : Obligations.BuildNeverChanges := fun _ _ h => step_build h

end Sys2Proof.Machine
end

section
/-! SUPPORT. The machine's invariant along a step (10_state.md, the fields of `Inv`): each shared operation keeps it, then each
agent's turn, then the step. -/

namespace Sys2Proof.Machine

/-! ### The updates that touch no field of the invariant, or only its flags -/

theorem Inv_popTurn {s : State} (h : Inv s) : Inv (popTurn s) := { h with }

theorem Inv_program {s : State} (h : Inv s) (p : List HostStmt) : Inv { s with program := p } := { h with }

theorem Inv_observe {s : State} (h : Inv s) (o : Observation) : Inv (observe o s) := { h with }

theorem Inv_hostRead {s : State} (h : Inv s) (r : Reg) : Inv (hostRead r s) := by
  refine Inv_observe ?_ _
  rw [afterRead_eq]
  exact { h with }

theorem Inv_setIgnored {s : State} (h : Inv s) : Inv (setIgnored s) := { h with }

/-- A cleared ERR takes ERRCODE with it (R27), and a running command has no flag to clear. -/
theorem Inv_writeStatus {s : State} (h : Inv s) (v : Word) : Inv (writeStatus v s) :=
  { h with
    err_code := by
      have := h.err_code
      rw [writeStatus_errCode]; split
      · decide
      · exact this
    err_iff := by
      have := h.err_iff
      rw [writeStatus_err, writeStatus_errCode]
      cases v.getLsbD 2 <;> simp [this]
    busy := fun w hw => by
      obtain ⟨hl, hc, hd, he⟩ := h.busy w hw
      exact ⟨hl, hc, by simp [hd], by simp [he]⟩ }

theorem Inv_launch {s : State} (h : Inv s) {v : Word} (hv : v.getLsbD 31 = true) : Inv (launch v s) :=
  { h with
    ctrl_bit := by simp
    err_code := by simp
    err_iff := by simp
    busy := by
      rintro w ⟨⟩
      exact ⟨hv, rfl, rfl, rfl⟩ }

theorem errorCode_range (e : CmdError) : (errorCode e).toNat ≤ 7 ∧ errorCode e ≠ 0 := by cases e <;> decide

theorem Inv_failWith {s : State} (h : Inv s) (e : CmdError) : Inv (failWith e s) :=
  { h with
    err_code := (errorCode_range e).1
    err_iff := by simpa using (errorCode_range e).2
    busy := fun w hw => by cases hw }

theorem Inv_completeWith {s : State} (h : Inv s) {m : List Host.Cell} (hm : Memory.wf m)
    (hb : ∀ c ∈ m, c.1 < 2 ^ s.build.addrW) : Inv (completeWith m s) :=
  { h with
    mem_wf := hm
    mem_bound := hb
    err_code := by simp
    err_iff := by simp
    busy := fun w hw => by cases hw }

/-! ### The register port -/

@[simp] theorem addressBits_toNat (b : Build) (v : Word) : (addressBits b v).toNat = v.toNat % 2 ^ b.addrW := by
  unfold addressBits Build.memBytes
  rw [BitVec.toNat_ofNat, Nat.mod_eq_of_lt (Nat.lt_of_le_of_lt (Nat.mod_le ..) v.isLt)]

theorem addressBits_lt (b : Build) (v : Word) : (addressBits b v).toNat < 2 ^ b.addrW := by
  rw [addressBits_toNat]; exact Nat.mod_lt _ (Nat.two_pow_pos _)

/-- An existing entry has a key below 3 · IN_RANGE (R45). -/
theorem lutKey_lt {b : Build} {c k : Nat} (hc : c ≤ 2) (hk : k < b.inRange) : lutKey b c k < 3 * b.inRange := by
  have := row_lt hk (show c < 3 by omega)
  unfold lutKey; omega

theorem Inv_writeLutIdx {s : State} (h : Inv s) (v : Word) : Inv (writeLutIdx v s) := by
  rcases writeLutIdx_cases v s with e | ⟨c, k, hc, hk, e⟩ <;> rw [e]
  · exact Inv_setIgnored h
  · exact { h with ptr_ch := hc, ptr_idx := hk }

theorem Inv_writeLutData {s : State} (h : Inv s) (v : Word) : Inv (writeLutData v s) := by
  obtain ⟨hpos, hmax, -, -⟩ := h.build
  rw [writeLutData_eq]
  refine { h with
    lut_sorted := Cells.sorted_put h.lut_sorted _ _
    lut_bound := fun c hc => ?_
    ptr_ch := ?_
    ptr_idx := ?_ }
  · rcases Cells.mem_put hc with rfl | hc
    · exact lutKey_lt h.ptr_ch h.ptr_idx
    · exact h.lut_bound c hc
  · dsimp only
    split
    · exact h.ptr_ch
    · rw [BitVec.toNat_ofNat]; omega
  · dsimp only
    split
    · rw [BitVec.toNat_ofNat]; omega
    · exact hpos

theorem Inv_whenIdle {s s' : State} (h : Inv s) (h' : Inv s') : Inv (whenIdle s s') := by
  unfold whenIdle; split
  · exact Inv_setIgnored h
  · exact h'

theorem Inv_writeReg {s : State} (h : Inv s) (r : Reg) (v : Word) : Inv (writeReg r v s) := by
  cases r with
  | id | stride | param | reserved => exact h
  | irqEn => exact { h with }
  | status => exact Inv_writeStatus h v
  | ctrl =>
    refine Inv_whenIdle h ?_
    unfold writeCtrl; split
    · exact Inv_launch h ‹_›
    · exact h
  | width | height | srcLen | dstLen | lutCfg => exact Inv_whenIdle h { h with }
  | srcAddr => exact Inv_whenIdle h { h with src_bound := addressBits_lt s.build v }
  | dstAddr => exact Inv_whenIdle h { h with dst_bound := addressBits_lt s.build v }
  | lutIdx => exact Inv_whenIdle h (Inv_writeLutIdx h v)
  | lutData => exact Inv_whenIdle h (Inv_writeLutData h v)

/-! ### The agents' turns -/

/-- A host memory write inside the address space (20_memory.md R54). -/
theorem Inv_writeBytes {s : State} (h : Inv s) {a : Nat} {bytes : List Byte} (hb : a + bytes.length ≤ s.build.memBytes) :
    Inv { s with mem := Memory.writeBytes s.mem a bytes } :=
  { h with
    mem_wf := Memory.wf_writeBytes h.mem_wf a bytes
    mem_bound := fun c hc => by
      rcases Memory.mem_writeBytes hc with hc | hc
      · exact Nat.lt_of_lt_of_le hc.2 hb
      · exact h.mem_bound c hc }

theorem Inv_runStmt {st : HostStmt} {s t : State} (h : Inv s) (hr : runStmt st s = .next t) : Inv t := by
  rcases runStmt_cases hr with ⟨a, r, v, -, -, rfl⟩ | ⟨r, p, rfl⟩ | ⟨a, bytes, -, hb, -, rfl⟩ | ⟨a, n, -, -, -, rfl⟩
  · exact Inv_writeReg h r v
  · exact Inv_program (Inv_hostRead h r) p
  · exact Inv_writeBytes h hb
  · exact Inv_observe h _

/-- An accepted command stores only inside its destination region, which the memory holds (R61, R67). -/
theorem Inv_exec {i : Instr} {s t : State} (h : Inv s) (he : exec i s = .next t) : Inv t := by
  rcases exec_next he with ⟨e, -, rfl⟩ | ⟨ha, m, hp, rfl⟩
  · exact Inv_failWith h e
  · have hk := pass_keeps ha hp
    refine Inv_completeWith h (hk.wf h.mem_wf) (fun c hc => ?_)
    rcases hk.listed c hc with hc | hc
    · exact Nat.lt_of_lt_of_le hc.2 ha.dst_range
    · exact h.mem_bound c hc

theorem Inv_engineTurn {s t : State} (h : Inv s) (he : engineTurn s = .next t) : Inv t := by
  rcases engineTurn_cases he with ⟨-, rfl⟩ | ⟨w, r, -, -, rfl⟩ | ⟨w, i, -, -, hi⟩
  · exact h
  · exact Inv_failWith h .illegalCommand
  · exact Inv_exec h hi

/-- The aborted destination is cut at the end of the memory (log 8). -/
theorem abortedRegion_lt {s : State} {a : Nat} (ha : a < (abortedRegion s).base + (abortedRegion s).len)
    (hb : (abortedRegion s).base ≤ a) : a < 2 ^ s.build.addrW := by
  revert ha hb
  unfold abortedRegion Build.memBytes
  cases activeCommand s with
  | none => intro ha hb; dsimp only at ha hb; omega
  | some i => intro ha hb; dsimp only at ha hb; omega

/-- A reset needs only the build and the memory of the state it resets (R147). -/
theorem Inv_resetBlock {s : State} (hw : s.build.wf) (hm : Memory.wf s.mem)
    (hb : ∀ c ∈ s.mem, c.1 < 2 ^ s.build.addrW) : Inv (resetBlock s) where
  build := hw
  mem_wf := wf_scramble hm ..
  mem_bound c hc := by
    rcases mem_scramble hc with hc | hc
    · exact abortedRegion_lt (s := s) hc.2 hc.1
    · exact hb c hc
  lut_sorted := .nil
  lut_bound := fun c hc => by cases hc
  ptr_ch := Nat.zero_le 2
  ptr_idx := hw.1
  src_bound := Nat.two_pow_pos _
  dst_bound := Nat.two_pow_pos _
  ctrl_bit := show (0#32).getLsbD 31 = false from rfl
  err_code := Nat.zero_le 7
  err_iff := ⟨nofun, fun h => absurd rfl h⟩
  busy := fun w hw => by cases hw

theorem Inv_dropAccess {s : State} (h : Inv s) : Inv (dropAccess s) := by
  rw [dropAccess_eq]; exact { h with }

theorem step_inv {s t : State} (h : Inv s) (hs : step s = .next t) : Inv t := by
  have hp := Inv_popTurn h
  have hr : Inv (resetBlock (popTurn s)) := Inv_resetBlock hp.build hp.mem_wf hp.mem_bound
  rcases step_cases hs with ⟨-, he⟩ | ⟨-, -, rfl⟩ | ⟨-, st, rest, -, he⟩ | ⟨-, rfl⟩ | ⟨-, rfl⟩
  · exact Inv_engineTurn hp he
  · exact hp
  · exact Inv_runStmt (Inv_program hp rest) he
  · exact hr
  · exact Inv_dropAccess hr

/-- Settles O7: every agent's turn keeps the invariant, by the operations it is made of. -/
theorem stepKeepsInv : Obligations.StepKeepsInv := fun _ _ => step_inv

/-- Settles O8: the reset state is what a reset leaves of itself. -/
theorem resetMeetsInv : Obligations.ResetMeetsInv :=
  show Inv (resetBlock State.reset) from Inv_resetBlock (by decide) (by decide) (fun c hc => by cases hc)

end Sys2Proof.Machine
end

section
/-! SUPPORT. What one step leaves of the registers (10_state.md R30, R45, R50, R51): a host register write, a completion, a step
that touches no register, or a reset; and the safety statements that follow. -/

namespace Sys2Proof.Machine

/-! ### The access that names a register -/

/-- An access reaches a register exactly when it is the legal access to it (R23, R29). -/
theorem decodeAccess_eq_some {a : RegAccess} {r : Reg} : decodeAccess a = some r ↔ a = regAccess r := by
  constructor
  · have offset_of_index : ∀ o : BitVec 6, o.toNat % 4 = 0 → regOffset (regOfIndex (o.toNat / 4)) = o := by decide
    obtain ⟨width, offset⟩ := a
    simp only [decodeAccess, RegAccess.wellFormed, Bool.and_eq_true, beq_iff_eq, Option.ite_none_right_eq_some,
      Option.some.injEq]
    rintro ⟨⟨rfl, ho⟩, rfl⟩
    rw [regAccess, offset_of_index offset ho]
  · rintro rfl
    exact decodeAccess_regAccess r

/-- An access that is not aligned and 32 bits wide reaches no register (R29). -/
theorem decodeAccess_eq_none {a : RegAccess} (h : a.width ≠ .word ∨ a.offset.toNat % 4 ≠ 0) : decodeAccess a = none := by
  rw [decodeAccess, if_neg]
  simp only [RegAccess.wellFormed, Bool.and_eq_true, beq_iff_eq]
  rintro ⟨hw, ho⟩
  exact h.elim (· hw) (· ho)

/-! ### The step -/

/-- The host's step runs its statement. -/
theorem step_of_hostDoes {s : State} {st : HostStmt} {rest : List HostStmt} (h : HostDoes s st rest) :
    step s = runStmt st (afterStmt s rest) := by
  obtain ⟨hn, hp⟩ := h
  unfold step takeTurn
  rw [hn]
  simp only [hostTurn, popTurn_program, hp, afterStmt]

/-- A read changes only what the host has seen and the count of draws (R30). -/
theorem hostRead_eq (r : Reg) (s : State) :
    hostRead r s = { s with observed := .reg r (readReg r s) :: s.observed, draws := (afterRead r s).draws } := by
  rw [hostRead, afterRead_eq]; rfl

/-- A reset's step leaves the reset block, whatever access comes with it (R147). -/
theorem step_of_reset {s t : State} (hn : nextTurn s = .reset ∨ nextTurn s = .resetDuringAccess) (h : step s = .next t) :
    ∃ p o, t = { resetBlock (popTurn s) with program := p, observed := o } := by
  unfold step takeTurn at h
  rcases hn with hn | hn <;> rw [hn] at h <;> cases h
  · exact ⟨_, _, rfl⟩
  · exact ⟨_, _, dropAccess_eq _⟩

/-- The register effect of a step: one write by the host, one completion, none, or a reset. -/
theorem step_effect {s t : State} (h : step s = .next t) :
    (∃ r v rest, HostDoes s (.wr (regAccess r) v) rest ∧ t = writeReg r v (afterStmt s rest)) ∨
    (nextTurn s = .engine ∧ ∃ m e c, t = { popTurn s with mem := m, err := e, errCode := c, done := true, engine := .idle }) ∨
    (∃ m tu p o d, t = { s with mem := m, turns := tu, program := p, observed := o, draws := d }) ∨
    ((nextTurn s = .reset ∨ nextTurn s = .resetDuringAccess) ∧
      ∃ p o, t = { resetBlock (popTurn s) with program := p, observed := o }) := by
  rcases step_cases h with ⟨hn, he⟩ | ⟨-, -, rfl⟩ | ⟨hn, st, rest, hp, hr⟩ | ⟨hn, -⟩ | ⟨hn, -⟩
  · rcases engineTurn_cases he with ⟨-, rfl⟩ | ⟨w, r, -, -, rfl⟩ | ⟨w, i, -, -, hi⟩
    · exact .inr (.inr (.inl ⟨_, _, _, _, _, rfl⟩))
    · exact .inr (.inl ⟨hn, _, _, _, rfl⟩)
    · rcases exec_next hi with ⟨e, -, rfl⟩ | ⟨-, m, -, rfl⟩ <;> exact .inr (.inl ⟨hn, _, _, _, rfl⟩)
  · exact .inr (.inr (.inl ⟨_, _, _, _, _, rfl⟩))
  · rcases runStmt_cases hr with ⟨a, r, v, rfl, ha, rfl⟩ | ⟨r, p, rfl⟩ | ⟨a, bytes, -, -, -, rfl⟩ | ⟨a, n, -, -, -, rfl⟩
    · obtain rfl := decodeAccess_eq_some.1 ha
      exact .inl ⟨r, v, rest, ⟨hn, hp⟩, rfl⟩
    · rw [hostRead_eq]
      exact .inr (.inr (.inl ⟨_, _, _, _, _, rfl⟩))
    · exact .inr (.inr (.inl ⟨_, _, _, _, _, rfl⟩))
    · exact .inr (.inr (.inl ⟨_, _, _, _, _, rfl⟩))
  · exact .inr (.inr (.inr ⟨.inl hn, step_of_reset (.inl hn) h⟩))
  · exact .inr (.inr (.inr ⟨.inr hn, step_of_reset (.inr hn) h⟩))

/-! ### The phase, the LUT RAM and READY -/

/-- The only writes that reach the engine, the LUT RAM or READY are idle ones of CTRL, LUT_DATA and LUT_CFG (R24, R39, R42). -/
theorem writeReg_reach (r : Reg) (v : Word) (s : State) :
    ((writeReg r v s).engine = s.engine ∨
      (isBusy s = false ∧ r = .ctrl ∧ v.getLsbD 31 = true ∧ (writeReg r v s).engine = .busy v)) ∧
    ((writeReg r v s).lut = s.lut ∨ (isBusy s = false ∧ r = .lutData)) ∧
    ((writeReg r v s).lutReady = s.lutReady ∨
      (isBusy s = false ∧ r = .lutCfg ∧ (writeReg r v s).lutReady = v.getLsbD 0)) := by
  cases hb : isBusy s with
  | true => rcases writeReg_busy hb r v with e | e | ⟨-, e⟩ | ⟨-, e⟩ <;> rw [e] <;> exact ⟨.inl rfl, .inl rfl, .inl rfl⟩
  | false =>
    cases r with
    | id | status | irqEn | stride | param | reserved => exact ⟨.inl rfl, .inl rfl, .inl rfl⟩
    | width | height | srcAddr | srcLen | dstAddr | dstLen =>
      rw [writeReg, whenIdle_idle hb]; exact ⟨.inl rfl, .inl rfl, .inl rfl⟩
    | ctrl =>
      rw [writeReg, whenIdle_idle hb, writeCtrl]
      split
      · exact ⟨.inr ⟨rfl, rfl, ‹_›, rfl⟩, .inl rfl, .inl rfl⟩
      · exact ⟨.inl rfl, .inl rfl, .inl rfl⟩
    | lutCfg => rw [writeReg, whenIdle_idle hb]; exact ⟨.inl rfl, .inl rfl, .inr ⟨rfl, rfl, rfl⟩⟩
    | lutIdx =>
      rw [writeReg, whenIdle_idle hb]
      rcases writeLutIdx_cases v s with e | ⟨c, k, -, -, e⟩ <;> rw [e] <;> exact ⟨.inl rfl, .inl rfl, .inl rfl⟩
    | lutData => rw [writeReg, whenIdle_idle hb, writeLutData_eq]; exact ⟨.inl rfl, .inr ⟨rfl, rfl⟩, .inl rfl⟩

theorem isBusy_congr {s t : State} (h : t.engine = s.engine) : isBusy t = isBusy s := by simp only [isBusy, h]

/-- The low four bits of a STATUS read are its flags (R26). -/
theorem statusWord_flags (s : State) :
    (statusWord s).getLsbD 0 = isBusy s ∧ (statusWord s).getLsbD 1 = s.done ∧ (statusWord s).getLsbD 2 = s.err ∧
      (statusWord s).getLsbD 3 = s.ign := by
  simp only [statusWord, BitVec.getLsbD_append]
  simp

/-- IDLE → BUSY is a launching CTRL write (R50). -/
theorem step_launches {s t : State} (h : step s = .next t) (hs : isBusy s = false) (ht : isBusy t = true) :
    ∃ v rest, HostDoes s (.wr (regAccess .ctrl) v) rest ∧ v.getLsbD 31 = true ∧ t.engine = .busy v := by
  have phase_moved : t.engine ≠ s.engine := fun he => by rw [isBusy_congr he, hs] at ht; cases ht
  rcases step_effect h with ⟨r, v, rest, hd, rfl⟩ | ⟨-, m, e, c, rfl⟩ | ⟨m, tu, p, o, d, rfl⟩ | ⟨-, p, o, rfl⟩
  · rcases (writeReg_reach r v (afterStmt s rest)).1 with he | ⟨-, rfl, hv, he⟩
    · exact absurd he phase_moved
    · exact ⟨v, rest, hd, hv, he⟩
  · cases ht
  · exact absurd rfl phase_moved
  · cases ht

/-- BUSY → IDLE is a completion or a reset (R50). -/
theorem step_completes {s t : State} (h : step s = .next t) (hs : isBusy s = true) (ht : isBusy t = false) :
    (nextTurn s = .engine ∧ t.done = true) ∨ nextTurn s = .reset ∨ nextTurn s = .resetDuringAccess := by
  have phase_moved : t.engine ≠ s.engine := fun he => by rw [isBusy_congr he, hs] at ht; cases ht
  rcases step_effect h with ⟨r, v, rest, hd, rfl⟩ | ⟨hn, m, e, c, rfl⟩ | ⟨m, tu, p, o, d, rfl⟩ | ⟨hn, p, o, rfl⟩
  · rcases (writeReg_reach r v (afterStmt s rest)).1 with he | ⟨hb, -⟩
    · exact absurd he phase_moved
    · exact absurd (hs.symm.trans hb) (by decide)
  · exact .inl ⟨hn, rfl⟩
  · exact absurd rfl phase_moved
  · exact .inr hn

/-- Settles O9: by the register effect of a step; the phase bit is STATUS bit 0. -/
theorem phaseChangesOnlyAtLaunchAndCompletion : Obligations.PhaseChangesOnlyAtLaunchAndCompletion :=
  ⟨fun _ _ => step_launches, fun _ _ => step_completes, fun s => (statusWord_flags s).1, rfl⟩

/-- Settles O10: of the steps that are no reset, only a LUT_DATA write reaches the LUT RAM. -/
theorem onlyLutDataWritesChangeTheTable : Obligations.OnlyLutDataWritesChangeTheTable := by
  intro s t h hne
  rcases step_effect h with ⟨r, v, rest, hd, rfl⟩ | ⟨-, m, e, c, rfl⟩ | ⟨m, tu, p, o, d, rfl⟩ | ⟨hn, p, o, rfl⟩
  · rcases (writeReg_reach r v (afterStmt s rest)).2.1 with he | ⟨hb, rfl⟩
    · exact absurd he hne
    · exact .inl ⟨hb, v, rest, hd⟩
  · exact absurd rfl hne
  · exact absurd rfl hne
  · exact .inr hn

/-- Settles O11: of the steps that are no reset, only an idle LUT_CFG write reaches READY. -/
theorem onlyTheHostAndResetChangeReady : Obligations.OnlyTheHostAndResetChangeReady := by
  intro s t h hne
  rcases step_effect h with ⟨r, v, rest, hd, rfl⟩ | ⟨-, m, e, c, rfl⟩ | ⟨m, tu, p, o, d, rfl⟩ | ⟨hn, p, o, rfl⟩
  · rcases (writeReg_reach r v (afterStmt s rest)).2.2 with he | ⟨hb, rfl, he⟩
    · exact absurd he hne
    · exact .inl ⟨hb, v, rest, hd, he⟩
  · exact absurd rfl hne
  · exact absurd rfl hne
  · exact .inr ⟨hn, rfl⟩

/-- Settles O13: while BUSY a register write reaches only IGN, the flags and IE, and a completion only STATUS and memory. -/
theorem operandsStableWhileBusy : Obligations.OperandsStableWhileBusy := by
  intro s t h hb hreset hreset'
  rcases step_effect h with ⟨r, v, rest, -, rfl⟩ | ⟨-, m, e, c, rfl⟩ | ⟨m, tu, p, o, d, rfl⟩ | ⟨hn, -⟩
  · have hb' : isBusy (afterStmt s rest) = true := hb
    rcases writeReg_busy hb' r v with e | e | ⟨-, e⟩ | ⟨-, e⟩ <;> rw [e] <;>
      exact ⟨rfl, rfl, rfl, rfl, rfl, rfl, rfl, rfl, rfl, rfl, rfl, fun _ => rfl⟩
  · exact ⟨rfl, rfl, rfl, rfl, rfl, rfl, rfl, rfl, rfl, rfl, rfl, nofun⟩
  · exact ⟨rfl, rfl, rfl, rfl, rfl, rfl, rfl, rfl, rfl, rfl, rfl, fun _ => rfl⟩
  · exact absurd hn (by simp [hreset, hreset'])

/-- After a reset every register but LUT_DATA and PARAM reads as in the reset state (R53, R147). -/
theorem readReg_of_reset {s : State} {r : Reg} (hl : r ≠ .lutData) (hp : r ≠ .param) (p : List HostStmt)
    (o : List Observation) :
    readReg r { resetBlock (popTurn s) with program := p, observed := o } = readReg r State.reset := by
  cases r with
  | lutData => exact absurd rfl hl
  | param => exact absurd rfl hp
  | _ => rfl

/-- Settles O50: a reset takes every register from the reset state; only PARAM's build is the block's own. -/
theorem resetValues : Obligations.ResetValues := by
  intro s t hn h
  obtain ⟨p, o, rfl⟩ := step_of_reset hn h
  refine ⟨rfl, rfl, rfl, rfl, fun _ _ => rfl, rfl, rfl, fun r hr => ?_⟩
  have read_zero : ∀ r ∈ [Reg.ctrl, .status, .irqEn, .width, .height, .stride, .srcAddr, .srcLen, .dstAddr, .dstLen,
      .lutCfg, .lutIdx], r ≠ .lutData ∧ r ≠ .param ∧ readReg r State.reset = 0 := by decide
  obtain ⟨hl, hp, h0⟩ := read_zero r hr
  rw [readReg_of_reset hl hp, h0]

/-- Settles O6: the placed word is decoded back to its command, and the engine's turn restores the list of turns. -/
theorem placedWordRunsNext : Obligations.PlacedWordRunsNext := by
  intro s i
  have hd : decode (encode i) = .ok i := command_ok_iff.2 (by cases i <;> rfl)
  have hw : BitVec.ofNat 32 (encode i).toNat = encode i := by rw [BitVec.ofNat_toNat, BitVec.setWidth_eq]
  show engineTurn (launch (BitVec.ofNat 32 (encode i).toNat) s) = _
  rw [hw]
  simp only [engineTurn, launch_engine, hd]

/-- Settles O14: the decoder at each of the sixteen offsets. -/
theorem registerMap : Obligations.RegisterMap := by
  unfold Obligations.RegisterMap; decide

/-- Settles O16: such an access reaches no register, whichever statement makes it. -/
theorem unalignedAccessFaults : Obligations.UnalignedAccessFaults := by
  intro s a rest ha
  have hnone := decodeAccess_eq_none ha
  refine ⟨fun v h => ?_, fun h => ?_, fun f v h => ?_⟩ <;>
    rw [step_of_hostDoes h] <;> simp only [runStmt, hnone]

end Sys2Proof.Machine
end
section
/-! SUPPORT. The registers of the port one by one (10_state.md R22–R44): what each write leaves and what each read then
returns, as numbers. -/

namespace Sys2Proof.Machine

/-! ### Reads as numbers -/

/-- Fields side by side, as a number. -/
theorem toNat_append_add {n m : Nat} (x : BitVec n) (y : BitVec m) : (x ++ y).toNat = 2 ^ m * x.toNat + y.toNat := by
  rw [BitVec.toNat_append, ← Nat.shiftLeft_add_eq_or_of_lt y.isLt, Nat.shiftLeft_eq, Nat.mul_comm]

theorem statusWord_toNat (s : State) :
    (statusWord s).toNat =
      (isBusy s).toNat + 2 * s.done.toNat + 4 * s.err.toNat + 8 * s.ign.toNat + 256 * s.errCode.toNat := by
  simp only [statusWord, toNat_append_add, BitVec.toNat_ofBool, BitVec.toNat_ofNat]
  omega

theorem lutIdxWord_toNat (s : State) : (lutIdxWord s).toNat = 2 ^ 16 * s.lutCh.toNat + s.lutIdx.toNat := by
  simp only [lutIdxWord, toNat_append_add, BitVec.toNat_ofNat]
  omega

/-- PARAM holds both parameters of a legal build whole (R44). -/
theorem paramWord_toNat {b : Build} (h : b.wf) : (paramWord b).toNat = b.inRange + 2 ^ 24 * b.addrW := by
  obtain ⟨-, hr, -, hw⟩ := h
  simp only [paramWord, toNat_append_add, BitVec.toNat_ofNat]
  rw [Nat.mod_eq_of_lt (show b.addrW < 2 ^ 6 by omega), Nat.mod_eq_of_lt (show b.inRange < 2 ^ 17 by omega)]
  omega

/-- A one-bit register reads as bit 0 of what was written. -/
theorem bitWord_toNat (v : Word) : ((BitVec.ofBool (v.getLsbD 0)).setWidth 32).toNat = v.toNat % 2 := by
  rw [BitVec.getLsbD, Nat.testBit_zero]
  rcases Nat.mod_two_eq_zero_or_one v.toNat with h | h <;> rw [h] <;> rfl

/-- A register of sixteen bits reads as the low half of what was written. -/
theorem halfWord_toNat (v : Word) : ((v.extractLsb' 0 16).setWidth 32).toNat = v.toNat % 2 ^ 16 := by
  rw [BitVec.toNat_setWidth, BitVec.extractLsb'_toNat]
  omega

/-- The stride is the least multiple of 32 that covers the row (40_alignment.md R87). -/
theorem stride_bounds (w : Nat) : stride w % 32 = 0 ∧ w / 8 * 10 ≤ stride w ∧ stride w < w / 8 * 10 + 32 := by
  unfold stride alignUp alignDown Config.bitWidth Config.rowAlign
  omega

/-- No frame's stride outgrows its register (R34). -/
theorem readReg_stride_toNat (s : State) : (readReg .stride s).toNat = frameS s ∧ frameS s ≤ 81920 := by
  obtain ⟨h0, -, h2⟩ := stride_bounds s.width.toNat
  have hw := s.width.isLt
  have hle : frameS s ≤ 81920 := by unfold frameS frameW; omega
  refine ⟨?_, hle⟩
  rw [readReg, BitVec.toNat_ofNat, Nat.mod_eq_of_lt (by omega)]

/-! ### Writes -/

/-- The registers whose writes are taken only while IDLE (R30). -/
theorem writeReg_ignored {s : State} (hb : isBusy s = true) (v : Word) {r : Reg}
    (hr : r ∈ [Reg.ctrl, .width, .height, .srcAddr, .srcLen, .dstAddr, .dstLen, .lutCfg, .lutIdx, .lutData]) :
    writeReg r v s = setIgnored s := by
  revert r
  simp only [List.forall_mem_cons]
  refine ⟨?_, ?_, ?_, ?_, ?_, ?_, ?_, ?_, ?_, ?_, nofun⟩ <;> exact whenIdle_busy hb

/-- Settles O17: ten writes are ignored while BUSY; a flag that STATUS clears reads 0. -/
theorem writesWhileBusy : Obligations.WritesWhileBusy := by
  intro s v
  refine ⟨fun hb r hr => writeReg_ignored hb v hr, ⟨rfl, rfl, ?_⟩, ?_, fun r => ⟨_, afterRead_eq r s⟩⟩
  · obtain ⟨-, h1, h2, h3⟩ := statusWord_flags (writeStatus v s)
    simp only [List.forall_mem_cons]
    refine ⟨fun hv => h1.trans ?_, fun hv => h2.trans ?_, fun hv => h3.trans ?_, nofun⟩ <;> simp [hv]
  · simp only [List.forall_mem_cons]
    exact ⟨rfl, rfl, rfl, rfl, nofun⟩

/-- The read-back of a launching word loses bit 31 (R24). -/
theorem launch_ctrl_toNat (v : Word) (s : State) : (launch v s).ctrl.toNat = v.toNat % 2 ^ 31 := by
  rw [launch_ctrl, BitVec.toNat_and]
  exact Nat.and_two_pow_sub_one_eq_mod v.toNat 31

/-- Settles O18: by phase, and then by bit 31 of the value. -/
theorem ctrlWriteLaunches : Obligations.CtrlWriteLaunches := by
  intro s v
  refine ⟨fun hb => whenIdle_busy hb, fun hb hv => ?_, fun hb hv => ⟨(launch v s).ctrl, launch_ctrl_toNat v s, ?_⟩, rfl⟩
  · simp only [writeReg, whenIdle_idle hb, writeCtrl, hv, Bool.false_eq_true, if_false]
  · simp only [writeReg, whenIdle_idle hb, writeCtrl, hv, if_true]
    rfl

/-- Settles O19: the fields of a STATUS read lie side by side. -/
theorem statusReadFields : Obligations.StatusReadFields := statusWord_toNat

/-- Settles O20: a W1C bit that is 1 clears, one that is 0 keeps. -/
theorem statusWriteClears : Obligations.StatusWriteClears := by
  have w1c : ∀ flag bit : Bool, (flag && !bit) = if bit then false else flag := by decide
  intro s v
  simp only [writeReg, writeStatus, w1c]

/-- Settles O21: an idle write of a plain register sets its field to the bits it keeps. -/
theorem plainRegistersReadBack : Obligations.PlainRegistersReadBack := by
  intro s v hb _
  simp only [writeReg, whenIdle_idle hb, readReg, addressBits_toNat, bitWord_toNat, halfWord_toNat, and_true, true_and]
  exact ⟨⟨_, rfl⟩, ⟨_, rfl⟩, ⟨_, rfl⟩, _, rfl⟩

/-- Settles O22: PARAM by its fields; no other of the three depends on the state. -/
theorem constantRegisters : Obligations.ConstantRegisters := by
  intro s
  refine ⟨rfl, rfl, fun hw => paramWord_toNat hw, fun hd => ?_, fun v => ⟨rfl, rfl, rfl⟩⟩
  rw [readReg, hd]
  rfl

/-- Settles O23: the bounds of the stride, and the width that an idle write leaves. -/
theorem strideFollowsWidth : Obligations.StrideFollowsWidth := by
  intro s
  obtain ⟨hr, hle⟩ := readReg_stride_toNat s
  obtain ⟨h0, h1, h2⟩ := stride_bounds (frameW s)
  rw [hr]
  refine ⟨h0, h1, h2, hle, fun v hb => ?_⟩
  rw [(readReg_stride_toNat _).1, writeReg, whenIdle_idle hb, frameS, frameW, BitVec.extractLsb'_toNat, Nat.shiftRight_zero]

/-- Settles O25: the write's two tests are those of the statement, read off the value's bits. -/
theorem lutIdxWriteNamesAnEntry : Obligations.LutIdxWriteNamesAnEntry := by
  intro s v hb
  have hch : (v.extractLsb' 16 2).toNat = v.toNat / 2 ^ 16 % 4 := by
    rw [BitVec.extractLsb'_toNat, Nat.shiftRight_eq_div_pow]
  have hidx : (v.extractLsb' 0 16).toNat = v.toNat % 2 ^ 16 := by rw [BitVec.extractLsb'_toNat, Nat.shiftRight_zero]
  simp only [writeReg, whenIdle_idle hb]
  refine ⟨fun h => ⟨_, _, hch, hidx, ?_⟩, fun h => ?_, fun h => ?_, lutIdxWord_toNat s, rfl, rfl⟩
  · rw [writeLutIdx, if_pos (by rwa [hch, hidx])]
  · rw [writeLutIdx, if_neg (by rwa [hch, hidx])]
    rfl
  · rcases writeLutIdx_cases v s with e | ⟨c, k, hc, hk, e⟩ <;> rw [e]
    · exact h
    · exact ⟨hc, hk⟩

end Sys2Proof.Machine
end

section
/-! SUPPORT. The LUT RAM behind its port (10_state.md R42, R43, R46): the keys of its entries, one write, and a whole load. -/

namespace Sys2Proof.Machine

/-! ### Keys -/

/-- Entries of different channel or index have different keys. -/
theorem lutKey_inj {b : Build} {c k c' k' : Nat} (hk : k < b.inRange) (hk' : k' < b.inRange)
    (h : lutKey b c k = lutKey b c' k') : c = c' ∧ k = k' := by
  unfold lutKey at h
  exact ⟨by rw [← div_row (y := c) hk, h, div_row hk'], by rw [← mod_row (y := c) hk, h, mod_row hk']⟩

/-! ### One write -/

/-- An idle write of LUT_DATA, as an update of the state (R42). -/
theorem writeReg_lutData {s : State} (hb : isBusy s = false) (v : Word) : writeReg .lutData v s = writeLutData v s :=
  whenIdle_idle hb

/-- The keys of the LUT RAM after a write: the pointed one takes the value's low byte, the others stay. -/
theorem get?_writeLutData (v : Word) (s : State) (j : Nat) :
    Cells.get? (writeLutData v s).lut j =
      if lutKey s.build s.lutCh.toNat s.lutIdx.toNat = j then some (v.extractLsb' 0 8) else Cells.get? s.lut j := by
  rw [writeLutData_eq]; exact Cells.get?_put ..

theorem lutEntry_writeLutData (v : Word) (s : State) (c k : Nat) :
    lutEntry (writeLutData v s) c k =
      if lutKey s.build s.lutCh.toNat s.lutIdx.toNat = lutKey s.build c k then some (v.extractLsb' 0 8)
      else lutEntry s c k := by
  rw [lutEntry, get?_writeLutData, writeLutData_build]; rfl

/-- The pointer moves to the next index, or to index 0 of the next channel (R42). -/
theorem pointer_writeLutData {s : State} (hr : s.build.inRange ≤ 65536) (v : Word) :
    if s.lutIdx.toNat + 1 < s.build.inRange then
      (writeLutData v s).lutCh = s.lutCh ∧ (writeLutData v s).lutIdx.toNat = s.lutIdx.toNat + 1
    else (writeLutData v s).lutCh.toNat = (s.lutCh.toNat + 1) % 3 ∧ (writeLutData v s).lutIdx = 0 := by
  rw [writeLutData_eq]
  split
  · rename_i h
    simp only [BitVec.toNat_ofNat, true_and]
    omega
  · rename_i h
    simp only [BitVec.toNat_ofNat, and_true]
    omega

/-- Settles O26: a write changes the key of the pointed entry, and no other entry has that key; a read shows the entry. -/
theorem lutDataAccess : Obligations.LutDataAccess := by
  intro s v hw hch hidx
  refine ⟨fun hb => ?_, fun b he => ?_⟩
  · rw [writeReg_lutData hb]
    have hptr := pointer_writeLutData hw.2.1 v
    refine ⟨(writeLutData v s).lut, (writeLutData v s).lutCh, (writeLutData v s).lutIdx, ?_, hptr, ?_, ?_⟩
    · rw [writeLutData_eq]
    · rw [lutEntry_writeLutData, if_pos rfl]
    · intro c' k' _ hk hne
      rw [lutEntry_writeLutData, if_neg]
      intro hkey
      obtain ⟨rfl, rfl⟩ := lutKey_inj hidx hk hkey
      exact hne.elim (· rfl) (· rfl)
  · have hp : pointedEntry s = some b := he
    refine ⟨?_, by rw [afterRead, hp, if_neg (by simp)]⟩
    rw [readReg, lutDataWord, hp, Option.getD_some, BitVec.toNat_setWidth]
    have := b.isLt
    omega

/-- Settles O27: an entry that is not listed takes a draw. -/
theorem unwrittenEntryReadsAFreshDraw : Obligations.UnwrittenEntryReadsAFreshDraw := by
  intro s he
  have hp : pointedEntry s = none := he
  refine ⟨?_, by rw [afterRead, hp, if_pos ⟨rfl, rfl⟩]⟩
  rw [readReg, lutDataWord, hp, Option.getD_none, BitVec.toNat_setWidth]
  have := (Config.freeByte s.draws).isLt
  omega

/-! ### A whole load -/

/-- The bytes of `bytes` have been written to LUT_DATA from pointer (0, 0) of an idle block of build `b`: the pointer has moved
on by as many entries, round the whole table, and the entries behind it hold the bytes. -/
structure LutLoaded (b : Build) (bytes : List Byte) (t : State) : Prop where
  build : t.build = b
  idle : isBusy t = false
  ch : t.lutCh.toNat = bytes.length / b.inRange % 3
  idx : t.lutIdx.toNat = bytes.length % b.inRange
  entries : ∀ j, j < bytes.length → Cells.get? t.lut j = bytes[j]?

/-- Counting on by one in rows of `w` elements: to the next element of the row, or to the start of the next row. -/
theorem succ_row {w : Nat} (hw : 0 < w) (n : Nat) :
    if n % w + 1 < w then (n + 1) / w = n / w ∧ (n + 1) % w = n % w + 1
    else (n + 1) / w = n / w + 1 ∧ (n + 1) % w = 0 := by
  have hn := Nat.div_add_mod' n w
  have hlt := Nat.mod_lt n hw
  split
  · rename_i h
    have e : n + 1 = n / w * w + (n % w + 1) := by omega
    exact ⟨by rw [e, div_row h], by rw [e, mod_row h]⟩
  · have e : n + 1 = (n / w + 1) * w + 0 := by rw [Nat.add_mul]; omega
    exact ⟨by rw [e, div_row hw], by rw [e, mod_row hw]⟩

/-- One more byte of a table that is not yet full. -/
theorem LutLoaded_write {b : Build} {bytes : List Byte} {t : State} (hw : b.wf) (h : LutLoaded b bytes t)
    (hlen : bytes.length < 3 * b.inRange) (v : Byte) :
    LutLoaded b (bytes ++ [v]) (writeReg .lutData (v.setWidth 32) t) := by
  obtain ⟨rfl, hidle, hch, hidx, hentries⟩ := h
  obtain ⟨hpos, hmax, -, -⟩ := hw
  have hrow := Nat.mod_eq_of_lt (Nat.div_lt_of_lt_mul (by rwa [Nat.mul_comm]) : bytes.length / t.build.inRange < 3)
  have hkey : lutKey t.build t.lutCh.toNat t.lutIdx.toNat = bytes.length := by
    rw [lutKey, hch, hrow, hidx, Nat.div_add_mod']
  have hbyte : (v.setWidth 32).extractLsb' 0 8 = v := by
    rw [BitVec.extractLsb'_setWidth_of_le (by decide), BitVec.extractLsb'_eq_self]
  have hptr : (writeLutData (v.setWidth 32) t).lutCh.toNat = (bytes.length + 1) / t.build.inRange % 3 ∧
      (writeLutData (v.setWidth 32) t).lutIdx.toNat = (bytes.length + 1) % t.build.inRange := by
    have hmove := pointer_writeLutData hmax (v.setWidth 32)
    have hcount := succ_row hpos bytes.length
    rw [hidx] at hmove
    split at hmove
    · rw [if_pos ‹_›] at hcount
      rw [hmove.1, hmove.2, hcount.1, hcount.2]
      exact ⟨hch, rfl⟩
    · rw [if_neg ‹_›] at hcount
      rw [hmove.1, hmove.2, hcount.1, hcount.2, hch, hrow]
      exact ⟨rfl, rfl⟩
  have hsucc : (bytes ++ [v]).length = bytes.length + 1 := List.length_append
  rw [writeReg_lutData hidle]
  refine ⟨writeLutData_build .., (isBusy_congr (by rw [writeLutData_eq])).trans hidle, hsucc ▸ hptr.1, hsucc ▸ hptr.2,
    fun j hj => ?_⟩
  rw [get?_writeLutData, hkey, hbyte]
  split
  · rename_i hj'; subst hj'; simp
  · rw [hentries j (by omega), List.getElem?_append_left (by omega)]

/-- Writing a table that fits, byte by byte. -/
theorem LutLoaded_foldl {s : State} (hb : isBusy s = false) (hw : s.build.wf) (hch : s.lutCh = 0) (hidx : s.lutIdx = 0)
    (table : List Byte) (hlen : table.length ≤ 3 * s.build.inRange) :
    LutLoaded s.build table (table.foldl (fun t b => writeReg .lutData (b.setWidth 32) t) s) := by
  induction table using List.reverseRecOn with
  | nil => exact ⟨rfl, hb, by simp [hch], by simp [hidx], nofun⟩
  | append_singleton bytes v ih =>
    rw [List.length_append, List.length_singleton] at hlen
    rw [List.foldl_append]
    exact LutLoaded_write hw (ih (by omega)) (by omega) v

/-- Settles O28: by the state after each byte of the load; a whole table takes the pointer round to (0, 0). -/
theorem lutLoadFillsTheTable : Obligations.LutLoadFillsTheTable := by
  intro s table hb hw hch hidx hlen
  have h := LutLoaded_foldl hb hw hch hidx table hlen.le
  refine ⟨BitVec.eq_of_toNat_eq ?_, BitVec.eq_of_toNat_eq ?_, fun c k hc hk => ?_⟩
  · rw [h.ch, hlen, Nat.mul_div_cancel _ hw.1]; rfl
  · rw [h.idx, hlen, Nat.mul_mod_left]; rfl
  · rw [lutEntry, h.build]
    exact h.entries _ (by rw [hlen]; exact lutKey_lt hc hk)

end Sys2Proof.Machine
end

section
/-! SUPPORT. What the memory port lets a pass do (20_memory.md R61, R65): a pass that stops was stopped by the port, or by an
unwritten LUT entry; a pass that answers was answered at every byte its command touches. -/

namespace Sys2Proof.Machine

/-- Settles O33: a failed command keeps memory, and a pass keeps every byte outside the destination region. -/
theorem writesStayInsideTheDestination : Obligations.WritesStayInsideTheDestination := by
  intro i s t h a ha
  rcases exec_next h with ⟨e, -, rfl⟩ | ⟨hacc, m, hp, rfl⟩
  · rw [failWith_mem]
  · exact (pass_keeps hacc hp).outside a ha

/-! ### Why a pass can stop -/

/-- If `x` stops, it stops with the port's fault. -/
def StopsAtPort {α : Type} (x : Except Fault α) : Prop := ∀ f, x = .error f → f = .memPortFault

theorem StopsAtPort_ok {α : Type} (b : α) : StopsAtPort (.ok b : Except Fault α) := nofun

/-- A sequence that stops was stopped by its first action, or by its second on the first one's answer. -/
theorem bind_error {α β : Type} {x : Except Fault α} {g : α → Except Fault β} {f : Fault} (h : (x >>= g) = .error f) :
    x = .error f ∨ ∃ b, x = .ok b ∧ g b = .error f := by
  cases x with
  | error e => cases h; exact .inl rfl
  | ok b => exact .inr ⟨b, rfl, h⟩

theorem StopsAtPort_bind {α β : Type} {x : Except Fault α} {g : α → Except Fault β} (hx : StopsAtPort x)
    (hg : ∀ b, StopsAtPort (g b)) : StopsAtPort (x >>= g) := by
  intro f h
  rcases bind_error h with h | ⟨b, -, h⟩
  · exact hx f h
  · exact hg b f h

theorem StopsAtPort_memRead {s : State} {m : List Host.Cell} {a n : Nat} : StopsAtPort (memRead s m a n) :=
  fun _ => memRead_error

theorem StopsAtPort_memWrite {s : State} {m : List Host.Cell} {a n v : Nat} : StopsAtPort (memWrite s m a n v) :=
  fun _ => memWrite_error

theorem StopsAtPort_forRange {body : Nat → List Host.Cell → Except Fault (List Host.Cell)}
    (h : ∀ k m, StopsAtPort (body k m)) (n : Nat) (m : List Host.Cell) : StopsAtPort (forRange body n m) := by
  intro f hf
  obtain ⟨k, -, m1, -, hk⟩ := forRange_error hf
  exact h k m1 f hk

theorem unpackGroup_stops (s : State) (y g : Nat) (m : List Host.Cell) : StopsAtPort (unpackGroup s y g m) := by
  iterate 5 refine StopsAtPort_bind StopsAtPort_memRead (fun _ => ?_)
  iterate 3 refine StopsAtPort_bind StopsAtPort_memWrite (fun _ => ?_)
  exact StopsAtPort_memWrite

theorem previewPixel_stops (s : State) (r gx : Nat) (m : List Host.Cell) : StopsAtPort (previewPixel s r gx m) := by
  iterate 2
    refine StopsAtPort_bind StopsAtPort_memRead (fun _ => ?_)
    refine StopsAtPort_bind StopsAtPort_memWrite (fun _ => ?_)
  exact StopsAtPort_bind StopsAtPort_memRead (fun _ => StopsAtPort_memWrite)

theorem previewPass_stops (s : State) (m : List Host.Cell) : StopsAtPort (previewPass s m) :=
  StopsAtPort_forRange (fun r => StopsAtPort_forRange (previewPixel_stops s r) _) _ m

theorem zebraSample_stops (s : State) (base c k : Nat) (m : List Host.Cell) :
    StopsAtPort (zebraSample s base c k m) := by
  refine StopsAtPort_bind StopsAtPort_memRead (fun v => ?_)
  split
  · exact StopsAtPort_memWrite
  · exact StopsAtPort_ok m

theorem zebraLoop_stops (s : State) (base l total : Nat) (fuel c : Nat) (m : List Host.Cell) :
    StopsAtPort (zebraLoop s base l total fuel c m) := by
  induction fuel generalizing c m with
  | zero => exact StopsAtPort_ok m
  | succ fuel ih =>
    rw [zebraLoop]
    split
    · exact StopsAtPort_bind (StopsAtPort_forRange (zebraSample_stops s base c) _ m) (fun m1 => ih _ m1)
    · exact StopsAtPort_ok m

/-- A sample of LUTAPPLY has one more reason to stop, the unwritten entry of 44_lut_apply.md R113. -/
theorem lutSample_error {s : State} {p c : Nat} {m : List Host.Cell} {f : Fault} (h : lutSample s p c m = .error f) :
    f = .memPortFault ∨ f = .unwrittenLut := by
  rcases bind_error h with h | ⟨v, -, h⟩
  · exact .inl (memRead_error h)
  · split at h
    · exact .inl (memWrite_error h)
    · cases h; exact .inr rfl

/-- The faults a pass can end with. -/
theorem pass_error {i : Instr} {s : State} {m : List Host.Cell} {f : Fault} (h : passOf i s m = .error f) :
    f = .memPortFault ∨ (i = .lutapply ∧ f = .unwrittenLut) := by
  cases i with
  | unpack => exact .inl (StopsAtPort_forRange (fun y => StopsAtPort_forRange (unpackGroup_stops s y) _) _ m f h)
  | preview => exact .inl (previewPass_stops s m f h)
  | previewz =>
    exact .inl (StopsAtPort_bind (previewPass_stops s m) (fun m1 => zebraLoop_stops s _ _ _ _ 0 m1) f h)
  | zebra => exact .inl (zebraLoop_stops s _ _ _ _ 0 m f h)
  | lutapply =>
    obtain ⟨p, -, m1, -, hp⟩ := forRange_error h
    obtain ⟨c, -, m2, -, hc⟩ := forRange_error hp
    exact (lutSample_error hc).imp_right (⟨rfl, ·⟩)

/-! ### Where a pass that answers met no error -/

/-- A read that answers was answered at each of its bytes. -/
theorem portClean_of_memRead {s : State} {m : List Host.Cell} {a n v : Nat} (h : memRead s m a n = .ok v) {k : Nat}
    (hk : k < n) : portFails s (a + k) = false := by
  induction n generalizing a v k with
  | zero => omega
  | succ n ih =>
    obtain ⟨low, hlow, h⟩ := bind_ok h
    obtain ⟨high, hhigh, -⟩ := bind_ok h
    cases k with
    | zero =>
      rw [portRead] at hlow
      split at hlow
      · cases hlow
      · exact Bool.eq_false_iff.2 ‹_›
    | succ k => rw [← Nat.add_assoc, Nat.add_right_comm]; exact ih hhigh (by omega)

/-- A write that answers was answered at each of its bytes. -/
theorem portClean_of_memWrite {s : State} {m m' : List Host.Cell} {a n v : Nat} (h : memWrite s m a n v = .ok m')
    {k : Nat} (hk : k < n) : portFails s (a + k) = false := by
  induction n generalizing m a v k with
  | zero => omega
  | succ n ih =>
    obtain ⟨m1, h1, h⟩ := bind_ok h
    cases k with
    | zero =>
      rw [portWrite] at h1
      split at h1
      · cases h1
      · exact Bool.eq_false_iff.2 ‹_›
    | succ k => rw [← Nat.add_assoc, Nat.add_right_comm]; exact ih h (by omega)

theorem portClean_of_memRead_one {s : State} {m : List Host.Cell} {a v : Nat} (h : memRead s m a 1 = .ok v) :
    portFails s a = false :=
  portClean_of_memRead h (k := 0) Nat.one_pos

theorem portClean_of_memWrite_one {s : State} {m m' : List Host.Cell} {a v : Nat} (h : memWrite s m a 1 v = .ok m') :
    portFails s a = false :=
  portClean_of_memWrite h (k := 0) Nat.one_pos

/-- Two nested loops that answer were answered by each turn of the inner one. -/
theorem forRange_turns_nested {body : Nat → Nat → List Host.Cell → Except Fault (List Host.Cell)} {h w : Nat}
    {m m' : List Host.Cell} (hok : forRange (fun y => forRange (body y) w) h m = .ok m') {y x : Nat} (hy : y < h)
    (hx : x < w) : ∃ m1 m2, body y x m1 = .ok m2 := by
  obtain ⟨m1, m2, -, hrow⟩ := forRange_turns hok hy
  obtain ⟨m3, m4, -, hturn⟩ := forRange_turns hrow hx
  exact ⟨m3, m4, hturn⟩

/-- Every element of `h` rows of `w` has its row and its place in the row. -/
theorem exists_row {w h n : Nat} (hn : n < w * h) : ∃ y x, y < h ∧ x < w ∧ n = y * w + x := by
  have hw : 0 < w := Nat.pos_of_mul_pos_right (Nat.zero_lt_of_lt hn)
  exact ⟨n / w, n % w, Nat.div_lt_of_lt_mul hn, Nat.mod_lt n hw, (Nat.div_add_mod' n w).symm⟩

/-- A packed group is five source bytes and eight destination bytes (41_unpack.md R91). -/
theorem unpackGroup_clean {s : State} {y g : Nat} {m m' : List Host.Cell} (h : unpackGroup s y g m = .ok m') :
    (∀ b, b < 5 → portFails s (srcBase s + (y * frameS s + 5 * g) + b) = false) ∧
      ∀ i b, i < 4 → b < 2 → portFails s (dstBase s + 2 * (y * frameW s + 4 * g + i) + b) = false := by
  obtain ⟨_, r0, h⟩ := bind_ok h
  obtain ⟨_, r1, h⟩ := bind_ok h
  obtain ⟨_, r2, h⟩ := bind_ok h
  obtain ⟨_, r3, h⟩ := bind_ok h
  obtain ⟨_, r4, h⟩ := bind_ok h
  obtain ⟨_, w0, h⟩ := bind_ok h
  obtain ⟨_, w1, h⟩ := bind_ok h
  obtain ⟨_, w2, w3⟩ := bind_ok h
  constructor
  · intro b hb
    obtain rfl | rfl | rfl | rfl | rfl : b = 0 ∨ b = 1 ∨ b = 2 ∨ b = 3 ∨ b = 4 := by omega
    · exact portClean_of_memRead_one r0
    · exact portClean_of_memRead_one r1
    · exact portClean_of_memRead_one r2
    · exact portClean_of_memRead_one r3
    · exact portClean_of_memRead_one r4
  · intro i b hi hb
    obtain rfl | rfl | rfl | rfl : i = 0 ∨ i = 1 ∨ i = 2 ∨ i = 3 := by omega
    · exact portClean_of_memWrite w0 hb
    · exact portClean_of_memWrite w1 hb
    · exact portClean_of_memWrite w2 hb
    · exact portClean_of_memWrite w3 hb

theorem unpackPass_clean {s : State} {m m' : List Host.Cell} (hw : frameW s % 8 = 0) (h : unpackPass s m = .ok m') :
    PortClean .unpack s := by
  have group : ∀ y g, y < frameH s → g < frameW s / 4 → ∃ m1 m2, unpackGroup s y g m1 = .ok m2 :=
    fun _ _ hy hg => forRange_turns_nested h hy hg
  rintro a (⟨y, g, b, hy, hg, hb, rfl⟩ | hdst)
  · obtain ⟨_, _, hgroup⟩ := group y g hy hg
    simpa only [Nat.add_assoc] using (unpackGroup_clean hgroup).1 b hb
  · have hneed : needDst .unpack s = 2 * (frameW s * frameH s) := Nat.mul_assoc ..
    rw [dst_contains_iff, hneed] at hdst
    obtain ⟨y, x, hy, hx, hcell⟩ := exists_row (w := frameW s) (h := frameH s) (n := (a - dstBase s) / 2) (by omega)
    obtain ⟨_, _, hgroup⟩ := group y (x / 4) hy (by omega)
    have hclean := (unpackGroup_clean hgroup).2 (x % 4) ((a - dstBase s) % 2) (by omega) (by omega)
    rwa [show dstBase s + 2 * (y * frameW s + 4 * (x / 4) + x % 4) + (a - dstBase s) % 2 = a by omega] at hclean

/-- A preview pixel is three source bytes and three destination bytes (42_preview.md R98). -/
theorem previewPixel_clean {s : State} {r gx : Nat} {m m' : List Host.Cell} (h : previewPixel s r gx m = .ok m') :
    (∀ o, o = 0 ∨ o = 1 ∨ o = frameS s + 1 →
      portFails s (srcBase s + (4 * r * frameS s + 5 * gx) + o) = false) ∧
      ∀ ch, ch < 3 → portFails s (dstBase s + (r * previewW s + gx) * 3 + ch) = false := by
  obtain ⟨_, r0, h⟩ := bind_ok h
  obtain ⟨_, w0, h⟩ := bind_ok h
  obtain ⟨_, r1, h⟩ := bind_ok h
  obtain ⟨_, w1, h⟩ := bind_ok h
  obtain ⟨_, r2, w2⟩ := bind_ok h
  constructor
  · rintro o (rfl | rfl | rfl)
    · exact portClean_of_memRead_one r0
    · exact portClean_of_memRead_one r1
    · exact portClean_of_memRead_one r2
  · intro ch hch
    obtain rfl | rfl | rfl : ch = 0 ∨ ch = 1 ∨ ch = 2 := by omega
    · exact portClean_of_memWrite_one w0
    · exact portClean_of_memWrite_one w1
    · exact portClean_of_memWrite_one w2

theorem previewPass_clean {s : State} {m m' : List Host.Cell} (h : previewPass s m = .ok m') : PortClean .preview s := by
  have pixel : ∀ r gx, r < previewH s → gx < previewW s → ∃ m1 m2, previewPixel s r gx m1 = .ok m2 :=
    fun _ _ hr hg => forRange_turns_nested h hr hg
  rintro a (⟨r, gx, o, hr, hg, ho, rfl⟩ | hdst)
  · obtain ⟨_, _, hpixel⟩ := pixel r gx hr hg
    simpa only [Nat.add_assoc] using (previewPixel_clean hpixel).1 o ho
  · have hneed : needDst .preview s = 3 * (previewW s * previewH s) := Nat.mul_assoc ..
    rw [dst_contains_iff, hneed] at hdst
    obtain ⟨r, gx, hr, hg, hcell⟩ :=
      exists_row (w := previewW s) (h := previewH s) (n := (a - dstBase s) / 3) (by omega)
    obtain ⟨_, _, hpixel⟩ := pixel r gx hr hg
    have hclean := (previewPixel_clean hpixel).2 ((a - dstBase s) % 3) (by omega)
    rwa [show dstBase s + (r * previewW s + gx) * 3 + (a - dstBase s) % 3 = a by omega] at hclean

/-- A sample of LUTAPPLY is two source bytes and one destination byte (44_lut_apply.md R112). -/
theorem lutSample_clean {s : State} {p c : Nat} {m m' : List Host.Cell} (h : lutSample s p c m = .ok m') :
    (∀ b, b < 2 → portFails s (srcBase s + 2 * (3 * p + c) + b) = false) ∧
      portFails s (dstBase s + (3 * p + c)) = false := by
  obtain ⟨v, hr, h⟩ := bind_ok h
  refine ⟨fun b hb => portClean_of_memRead hr hb, ?_⟩
  split at h
  · exact portClean_of_memWrite_one h
  · cases h

theorem lutPass_clean {s : State} {m m' : List Host.Cell} (h : lutPass s m = .ok m') : PortClean .lutapply s := by
  have sample : ∀ p c, p < frameW s * frameH s → c < 3 → ∃ m1 m2, lutSample s p c m1 = .ok m2 :=
    fun _ _ hp hc => forRange_turns_nested h hp hc
  rintro a (⟨hlo, hhi⟩ | hdst)
  · rw [Nat.mul_assoc] at hhi
    obtain ⟨_, _, hsample⟩ := sample ((a - srcBase s) / 6) ((a - srcBase s) % 6 / 2) (by omega) (by omega)
    have hclean := (lutSample_clean hsample).1 ((a - srcBase s) % 2) (by omega)
    rwa [show srcBase s + 2 * (3 * ((a - srcBase s) / 6) + (a - srcBase s) % 6 / 2) + (a - srcBase s) % 2 = a by omega]
      at hclean
  · have hneed : needDst .lutapply s = 3 * (frameW s * frameH s) := Nat.mul_assoc ..
    rw [dst_contains_iff, hneed] at hdst
    obtain ⟨_, _, hsample⟩ := sample ((a - dstBase s) / 3) ((a - dstBase s) % 3) (by omega) (by omega)
    have hclean := (lutSample_clean hsample).2
    rwa [show dstBase s + (3 * ((a - dstBase s) / 3) + (a - dstBase s) % 3) = a by omega] at hclean

theorem zebraAt_le {l i j : Nat} (h : i ≤ j) : zebraAt l i ≤ zebraAt l j := by
  rcases Nat.eq_or_lt_of_le h with rfl | hlt
  · exact Nat.le_refl _
  · exact Nat.le_trans (Nat.le_add_right ..) (zebraAt_lt hlt)

/-- A cursor loop that answers was answered by the visit of each later cursor in the image (45_zebra.md R117). -/
theorem zebraLoop_visits {s : State} {base l total fuel k j : Nat} {m m' : List Host.Cell}
    (h : zebraLoop s base l total fuel (zebraAt l k) m = .ok m') (hfuel : total ≤ fuel + zebraAt l k) (hkj : k ≤ j)
    (hj : zebraAt l j < total) : ∃ m1 m2, zebraVisit s base (zebraAt l j) m1 = .ok m2 := by
  induction fuel generalizing k m with
  | zero =>
    have := zebraAt_le (l := l) hkj
    omega
  | succ fuel ih =>
    rw [zebraLoop, if_pos (Nat.lt_of_le_of_lt (zebraAt_le hkj) hj)] at h
    obtain ⟨m1, hvisit, h⟩ := bind_ok h
    rcases Nat.eq_or_lt_of_le hkj with rfl | hlt
    · exact ⟨m, m1, hvisit⟩
    · have := zebraAt_lt (l := l) (Nat.lt_add_one k)
      exact ih (k := k + 1) h (by omega) hlt

theorem zebraFramePass_clean {s : State} {m m' : List Host.Cell} (h : zebraFramePass s m = .ok m') :
    PortClean .zebra s := by
  rintro a ⟨d, ⟨c, k, hc, hk, rfl⟩, rfl⟩
  obtain ⟨hlt, j, rfl⟩ := visited_iff.1 hc
  obtain ⟨_, _, hvisit⟩ := zebraLoop_visits (k := 0) h (Nat.le_add_right ..) (Nat.zero_le j) hlt
  obtain ⟨m1, _, -, hsample⟩ := forRange_turns hvisit hk
  obtain ⟨_, hread, -⟩ := bind_ok hsample
  rw [← Nat.add_assoc]
  exact portClean_of_memRead_one hread

/-- A pass that answers met no port error at any byte its command touches. -/
theorem portClean_of_pass {i : Instr} {s : State} {m m' : List Host.Cell} (ha : Accepted i s)
    (h : passOf i s m = .ok m') : PortClean i s := by
  cases i with
  | unpack => exact unpackPass_clean (ha.width_mod rfl) h
  | preview => exact previewPass_clean h
  | previewz =>
    obtain ⟨m1, h1, -⟩ := bind_ok h
    exact previewPass_clean h1
  | lutapply => exact lutPass_clean h
  | zebra => exact zebraFramePass_clean h

/-- Settles O34: the pass cannot answer over a failing byte it touches, and there are two reasons to stop. -/
theorem portErrorFaults : Obligations.PortErrorFaults := by
  intro i s a ha ht hf
  rcases exec_cases i s with ⟨e, hc, -⟩ | ⟨-, m, hp, -⟩ | ⟨-, f, hp, he⟩
  · rw [checkCommand_none_iff.2 ha] at hc; cases hc
  · exact absurd (hf.symm.trans (portClean_of_pass ha hp a ht)) (by decide)
  · rw [he]
    rcases pass_error hp with rfl | ⟨hi, rfl⟩
    · exact .inl rfl
    · exact .inr ⟨hi, rfl⟩

end Sys2Proof.Machine
end

section
/-! SUPPORT. The host's memory accesses (20_memory.md R55, R68): which bytes race with the active command, and what each access
does by whether one of its bytes races. -/

namespace Sys2Proof.Machine

/-! ### The bytes that race -/

theorem activeCommand_eq_some {s : State} {i : Instr} :
    activeCommand s = some i ↔ ∃ w, s.engine = .busy w ∧ decode w = .ok i := by
  unfold activeCommand
  cases s.engine with
  | idle => simp
  | busy w => cases hd : decode w <;> simp [hd]

/-- A byte of a command's source region, said with its base and length. -/
theorem src_contains_iff {i : Instr} {s : State} {a : Nat} :
    (srcRegion i s).any (fun r => r.contains a) = true ↔
      ∃ n, needSrc i s = some n ∧ srcBase s ≤ a ∧ a < srcBase s + n := by
  unfold srcRegion
  cases needSrc i s <;> simp [Region.contains_iff]

theorem writeRaces_iff {s : State} {a : Nat} :
    writeRaces s a = true ↔ ∃ i, activeCommand s = some i ∧
      ((∃ n, needSrc i s = some n ∧ srcBase s ≤ a ∧ a < srcBase s + n) ∨
        (dstBase s ≤ a ∧ a < dstBase s + needDst i s)) := by
  unfold writeRaces
  cases activeCommand s with
  | none => simp
  | some i => simp [src_contains_iff, dst_contains_iff]

theorem readRaces_iff {s : State} {a : Nat} :
    readRaces s a = true ↔ ∃ i, activeCommand s = some i ∧ dstBase s ≤ a ∧ a < dstBase s + needDst i s := by
  unfold readRaces
  cases activeCommand s with
  | none => simp
  | some i => simp [dst_contains_iff]

/-! ### The two accesses inside the address space -/

theorem hostMemWrite_race {s : State} {a k : Nat} {bytes : List Byte} (hb : a + bytes.length ≤ s.build.memBytes)
    (hk : k < bytes.length) (hr : writeRaces s (a + k) = true) : hostMemWrite a bytes s = .fault .hostRace := by
  rw [hostMemWrite, if_neg (Nat.not_lt.2 hb), if_pos (anyFrom_iff.2 ⟨k, hk, hr⟩)]

theorem hostMemWrite_clear {s : State} {a : Nat} {bytes : List Byte} (hb : a + bytes.length ≤ s.build.memBytes)
    (hr : ∀ k, k < bytes.length → ¬ writeRaces s (a + k) = true) :
    hostMemWrite a bytes s = .next { s with mem := Memory.writeBytes s.mem a bytes } := by
  rw [hostMemWrite, if_neg (Nat.not_lt.2 hb), if_neg]
  intro hany
  obtain ⟨k, hk, hrace⟩ := anyFrom_iff.1 hany
  exact hr k hk hrace

theorem hostMemRead_race {s : State} {a n k : Nat} (hb : a + n ≤ s.build.memBytes) (hk : k < n)
    (hr : readRaces s (a + k) = true) : hostMemRead a n s = .fault .hostRace := by
  rw [hostMemRead, if_neg (Nat.not_lt.2 hb), if_pos (anyFrom_iff.2 ⟨k, hk, hr⟩)]

theorem hostMemRead_clear {s : State} {a n : Nat} (hb : a + n ≤ s.build.memBytes)
    (hr : ∀ k, k < n → ¬ readRaces s (a + k) = true) :
    hostMemRead a n s = .next (observe (.mem a (Memory.readBytes s.mem a n)) s) := by
  rw [hostMemRead, if_neg (Nat.not_lt.2 hb), if_neg]
  intro hany
  obtain ⟨k, hk, hrace⟩ := anyFrom_iff.1 hany
  exact hr k hk hrace

/-- The bytes a host write stores, and the others. -/
theorem read_writeBytes_inside {bytes : List Byte} (m : List Host.Cell) (a : Nat) {k : Nat} (hk : k < bytes.length) :
    some (Memory.read (Memory.writeBytes m a bytes) (a + k)) = bytes[k]? := by
  rw [Memory.read_writeBytes, if_pos (by omega), Nat.add_sub_cancel_left, List.getD_eq_getElem _ _ hk,
    List.getElem?_eq_getElem hk]

theorem read_writeBytes_outside {bytes : List Byte} (m : List Host.Cell) {a b : Nat}
    (hb : b < a ∨ a + bytes.length ≤ b) : Memory.read (Memory.writeBytes m a bytes) b = Memory.read m b := by
  rw [Memory.read_writeBytes, if_neg (by omega)]

/-- Settles O47: the raced byte is one of the access's bytes. -/
theorem hostRaceFaults : Obligations.HostRaceFaults := by
  intro s w i rest he hd
  have hact : activeCommand s = some i := activeCommand_eq_some.2 ⟨w, he, hd⟩
  refine ⟨fun a bytes k hdo hb hk hin => ?_, fun a n k hdo hb hk hlo hhi => ?_⟩ <;> rw [step_of_hostDoes hdo]
  · have hrace : writeRaces s (a + k) = true := writeRaces_iff.2 ⟨i, hact, hin⟩
    exact hostMemWrite_race (s := afterStmt s rest) hb hk hrace
  · have hrace : readRaces s (a + k) = true := readRaces_iff.2 ⟨i, hact, hlo, hhi⟩
    exact hostMemRead_race (s := afterStmt s rest) hb hk hrace

/-- Settles O48: no byte of the access races, so it reaches the memory of the state. -/
theorem hostMemoryAccess : Obligations.HostMemoryAccess := by
  intro s rest
  refine ⟨fun a bytes hdo hb hout => ?_, fun a n hdo hb hout => ?_⟩ <;> rw [step_of_hostDoes hdo]
  · have hclear : ∀ k, k < bytes.length → ¬ writeRaces s (a + k) = true := by
      intro k hk hrace
      obtain ⟨i, hact, hin⟩ := writeRaces_iff.1 hrace
      obtain ⟨w, he, hd⟩ := activeCommand_eq_some.1 hact
      obtain ⟨hsrc, hdst⟩ := hout w i he hd k hk
      rcases hin with ⟨n, hn, hin⟩ | hin
      · have := hsrc n hn; omega
      · omega
    exact ⟨_, hostMemWrite_clear (s := afterStmt s rest) hb hclear, fun k => read_writeBytes_inside s.mem a,
      fun b => read_writeBytes_outside s.mem⟩
  · have hclear : ∀ k, k < n → ¬ readRaces s (a + k) = true := by
      intro k hk hrace
      obtain ⟨i, hact, hin⟩ := readRaces_iff.1 hrace
      obtain ⟨w, he, hd⟩ := activeCommand_eq_some.1 hact
      have := hout w i he hd k hk
      omega
    rw [← Memory.readBytes_eq]
    exact hostMemRead_clear (s := afterStmt s rest) hb hclear

end Sys2Proof.Machine
end

section
/-! SUPPORT. The command word (30_encoding.md R77–R82): its fields as numbers, the bijection of words and fields, and which
words are a command. -/

namespace Sys2Proof

/-! ### The fields of a word -/

theorem ofWord_cmd_toNat (w : Word) : (CommandWord.ofWord w).cmd.toNat = w.toNat % 16 := by
  rw [CommandWord.ofWord, BitVec.extractLsb'_toNat, Nat.shiftRight_zero]

theorem ofWord_zeb_toNat (w : Word) : (CommandWord.ofWord w).zeb.toNat = w.toNat / 16 % 2 := by
  rw [CommandWord.ofWord, BitVec.extractLsb'_toNat, Nat.shiftRight_eq_div_pow]

theorem ofWord_rsvd_toNat (w : Word) : (CommandWord.ofWord w).rsvd.toNat = w.toNat / 32 % 2 ^ 26 := by
  rw [CommandWord.ofWord, BitVec.extractLsb'_toNat, Nat.shiftRight_eq_div_pow]

/-- START is the top bit, so nothing stands above it. -/
theorem ofWord_start_toNat (w : Word) : (CommandWord.ofWord w).start.toNat = w.toNat / 2 ^ 31 := by
  rw [CommandWord.ofWord, BitVec.extractLsb'_toNat, Nat.shiftRight_eq_div_pow]
  omega

/-- The fields of a word, each at its place. -/
theorem toWord_toNat (c : CommandWord) :
    c.toWord.toNat = c.cmd.toNat + 16 * c.zeb.toNat + 32 * c.rsvd.toNat + 2 ^ 31 * c.start.toNat := by
  simp only [CommandWord.toWord, Machine.toNat_append_add]
  omega

theorem toWord_ofWord (w : Word) : (CommandWord.ofWord w).toWord = w := by
  apply BitVec.eq_of_toNat_eq
  rw [toWord_toNat, ofWord_cmd_toNat, ofWord_zeb_toNat, ofWord_rsvd_toNat, ofWord_start_toNat]
  omega

theorem CommandWord.eq_of_toNat {c d : CommandWord} (hcmd : c.cmd.toNat = d.cmd.toNat) (hzeb : c.zeb.toNat = d.zeb.toNat)
    (hrsvd : c.rsvd.toNat = d.rsvd.toNat) (hstart : c.start.toNat = d.start.toNat) : c = d := by
  cases c; cases d
  rw [CommandWord.mk.injEq]
  exact ⟨BitVec.eq_of_toNat_eq hcmd, BitVec.eq_of_toNat_eq hzeb, BitVec.eq_of_toNat_eq hrsvd, BitVec.eq_of_toNat_eq hstart⟩

theorem ofWord_toWord (c : CommandWord) : CommandWord.ofWord c.toWord = c := by
  have hw := toWord_toNat c
  have hcmd := c.cmd.isLt
  have hzeb := c.zeb.isLt
  have hrsvd := c.rsvd.isLt
  have hstart := c.start.isLt
  apply CommandWord.eq_of_toNat
  · rw [ofWord_cmd_toNat]; omega
  · rw [ofWord_zeb_toNat]; omega
  · rw [ofWord_rsvd_toNat]; omega
  · rw [ofWord_start_toNat]; omega

/-- Settles O3: the fields are the word's digits to the bases 16, 2 and 2^26, and a word is the sum of its digits' places. -/
theorem commandWordFields : Obligations.CommandWordFields :=
  ⟨fun w => ⟨ofWord_cmd_toNat w, ofWord_zeb_toNat w, ofWord_rsvd_toNat w, ofWord_start_toNat w, toWord_ofWord w⟩,
    ofWord_toWord⟩

/-! ### The words that are a command -/

/-- A word has the fields `c` exactly when it is the word of `c`. -/
theorem ofWord_eq_iff {w : Word} {c : CommandWord} : CommandWord.ofWord w = c ↔ w = c.toWord := by
  constructor
  · rintro rfl
    exact (toWord_ofWord w).symm
  · rintro rfl
    exact ofWord_toWord c

theorem decode_ok_iff {w : Word} {i : Instr} : decode w = .ok i ↔ w = encode i :=
  calc decode w = .ok i
    _ ↔ CommandWord.ofWord w = i.commandWord := command_ok_iff
    _ ↔ w = encode i := ofWord_eq_iff

/-- Settles O2: only a row's fields decode to its command, and a word is determined by its fields. -/
theorem decodesExactlyTheEncodedWord : Obligations.DecodesExactlyTheEncodedWord := fun _ _ => decode_ok_iff

/-- A word that no command is encoded as is rejected (R81). -/
theorem decode_error_of_ne {w : Word} (h : ∀ i, w ≠ encode i) : ∃ r, decode w = .error r := by
  cases hd : decode w with
  | ok i => exact absurd (decode_ok_iff.1 hd) (h i)
  | error r => exact ⟨r, rfl⟩

/-- Every command's word keeps RSVD clear, has CMD 1 to 4, and has ZEB only with CMD 2 (R79). -/
theorem encode_fields (i : Instr) :
    (encode i).toNat / 32 % 2 ^ 26 = 0 ∧ 1 ≤ (encode i).toNat % 16 ∧ (encode i).toNat % 16 ≤ 4 ∧
      ((encode i).toNat / 16 % 2 = 1 → (encode i).toNat % 16 = 2) := by
  cases i <;> decide

/-- The illegal words of R82 are rejected, whatever their other bits. -/
theorem decode_error_of_illegal {w : Word} (h : w.toNat / 32 % 2 ^ 26 ≠ 0 ∨ w.toNat % 16 = 0 ∨ 5 ≤ w.toNat % 16 ∨
    (w.toNat / 16 % 2 = 1 ∧ w.toNat % 16 ≠ 2)) : ∃ r, decode w = .error r := by
  refine decode_error_of_ne fun i hi => ?_
  obtain ⟨hrsvd, hlo, hhi, hzeb⟩ := encode_fields i
  subst hi
  rcases h with h | h | h | ⟨h1, h2⟩
  · exact h hrsvd
  · omega
  · omega
  · exact h2 (hzeb h1)

/-- Settles O1: each of the five words is its command's encoding, and a reserved CMD makes a word illegal. -/
theorem opcodeMapDecodes : Obligations.OpcodeMapDecodes :=
  ⟨decode_ok_iff.2 rfl, decode_ok_iff.2 rfl, decode_ok_iff.2 rfl, decode_ok_iff.2 rfl, decode_ok_iff.2 rfl,
    fun _ _ h => decode_error_of_illegal (.inr (h.imp_right .inl))⟩

end Sys2Proof
end

section
/-! SUPPORT. The steps that 30_encoding.md speaks of: the engine's over the word it is running (R80, R82), the host's over WR,
RD and POLL (R83), and RUN as a whole (R84). -/

namespace Sys2Proof.Machine

/-! ### The engine's step -/

theorem step_of_engine {s : State} (h : nextTurn s = .engine) : step s = engineTurn (popTurn s) := by
  rw [step, h, takeTurn]

/-- A word that is a command runs it (R80). -/
theorem engineTurn_ok {s : State} {w : Word} {i : Instr} (he : s.engine = .busy w) (hd : decode w = .ok i) :
    engineTurn s = exec i s := by
  simp only [engineTurn, he, hd]

/-- Any other word ends with ILLEGAL_COMMAND (60_exceptions.md R133). -/
theorem engineTurn_error {s : State} {w : Word} {r : Reject} (he : s.engine = .busy w) (hd : decode w = .error r) :
    engineTurn s = .next (failWith .illegalCommand s) := by
  simp only [engineTurn, he, hd]

/-- Settles O5: the engine decodes the word it is running. -/
theorem stepRunsTheLaunchedCommand : Obligations.StepRunsTheLaunchedCommand :=
  fun s _ _ ⟨hn, he⟩ hd => (step_of_engine hn).trans (engineTurn_ok (s := popTurn s) he hd)

/-- Settles O4: the word is rejected, and a rejected word fails with error code 3. -/
theorem illegalWordCompletes : Obligations.IllegalWordCompletes := by
  intro s w ⟨hn, he⟩ _ hw
  obtain ⟨r, hr⟩ := decode_error_of_illegal hw
  exact (step_of_engine hn).trans (engineTurn_error (s := popTurn s) he hr)

/-! ### The host's step -/

/-- Settles O15: the statement's access reaches the register, and a read leaves all but the two records of reads. -/
theorem hostStatementAccessesTheRegister : Obligations.HostStatementAccessesTheRegister := by
  refine ⟨fun s a r v rest h ha => ?_, fun s a r rest h ha => ⟨(afterRead r (afterStmt s rest)).draws, ?_⟩⟩
  · rw [step_of_hostDoes h]
    simp only [runStmt, ha]
  · rw [step_of_hostDoes h]
    simp only [runStmt, ha, hostRead_eq]
    rfl

/-- A field is the digits of the register between its two bits (00_scope.md R13). -/
theorem fieldOf_eq (f : Field) (v : Word) : fieldOf f v = v.toNat / 2 ^ f.lo % 2 ^ (f.hi + 1 - f.lo) := by
  rw [fieldOf, Nat.shiftRight_eq_div_pow]

/-- Settles O49: by whether the field the host reads is the value it waits for. -/
theorem pollRepeatsUntilEqual : Obligations.PollRepeatsUntilEqual := by
  intro s a r f v rest h ha
  refine ⟨(afterRead r (afterStmt s rest)).draws, ?_⟩
  have hread : readReg r (afterStmt s rest) = readReg r s := rfl
  have hprogram : s.program = .poll a f v :: rest := h.2
  rw [step_of_hostDoes h, ← fieldOf_eq]
  simp only [runStmt, ha, hread]
  split
  · rw [hostRead_eq]; rfl
  · rw [hostRead_eq, hprogram]; rfl

/-! ### A command that has what it needs completes -/

/-- The checks read no field that a launch or the host's program changes. -/
theorem checkCommand_launch (i : Instr) (w : Word) (p : List HostStmt) (s : State) :
    checkCommand i (launch w { s with program := p }) = checkCommand i s := rfl

/-- What a command needs to run is in no field that a launch or the host's program changes. -/
theorem Runs_launch {i : Instr} {s : State} (h : Runs i s) (w : Word) (p : List HostStmt) :
    Runs i (launch w { s with program := p }) where
  accepted := { h.accepted with }
  clean := h.clean
  written := h.written

/-- PREVIEWZ is accepted where PREVIEW is: the checks of R132 do not tell them apart. -/
theorem Accepted_preview_of_previewz {s : State} (h : Accepted .previewz s) : Accepted .preview s :=
  { h with ready := nofun }

/-- A command that has everything it needs runs its pass to the end. -/
theorem pass_ok_of_runs {i : Instr} {s : State} (h : Runs i s) : ∃ m, passOf i s s.mem = .ok m := by
  obtain ⟨ha, hc, hw⟩ := h
  cases i with
  | unpack => exact (unpackPass_ok s.mem ha hc).imp fun _ => And.left
  | preview => exact (previewPass_ok s.mem ha hc).imp fun _ => And.left
  | previewz =>
    obtain ⟨m1, h1, -⟩ := previewPass_ok s.mem (Accepted_preview_of_previewz ha) hc
    have hclean : ∀ d, ZebraSampleVisited (3 * previewW s) (3 * previewW s * previewH s) d →
        portFails s (dstBase s + d) = false := by
      intro d hd
      have hlt := sample_lt (by rw [Nat.mul_assoc]; omega) hd
      exact hc _ (.inr (dst_contains_iff.2 ⟨Nat.le_add_right .., Nat.add_lt_add_left hlt _⟩))
    obtain ⟨m2, h2, -⟩ := zebraPass_ok m1 hclean
    exact ⟨m2, by simp only [passOf, previewZebraPass, h1, bind, Except.bind, h2]⟩
  | lutapply =>
    have hin : ∀ n, n < 3 * (frameW s * frameH s) → entryIn s s.mem n = true := by
      rw [← Nat.mul_assoc]; exact hw rfl
    exact (lutPass_ok s.mem ha hc hin).imp fun _ => And.left
  | zebra => exact (zebraPass_ok s.mem fun d hd => hc _ ⟨d, hd, rfl⟩).imp fun _ => And.left

/-- A command that runs or fails its checks ends IDLE with DONE (60_exceptions.md R134), and leaves the host as it was. -/
theorem exec_completes {i : Instr} {s : State} (h : Runs i s ∨ ∃ e, checkCommand i s = some e) :
    ∃ t, exec i s = .next t ∧ t.engine = .idle ∧ t.done = true ∧ t.turns = s.turns ∧ t.program = s.program := by
  rcases h with h | ⟨e, he⟩
  · obtain ⟨m, hm⟩ := pass_ok_of_runs h
    exact ⟨completeWith m s, by rw [exec_of_accepted h.accepted, hm], rfl, rfl, rfl, rfl⟩
  · exact ⟨failWith e s, exec_of_check_some he, rfl, rfl, rfl, rfl⟩

/-! ### RUN -/

/-- A CTRL write with START = 1 launches its word from IDLE (10_state.md R24). -/
theorem step_wr_ctrl_launches {s : State} {v : Word} {rest : List HostStmt} (he : s.engine = .idle) (ht : s.turns = [])
    (hp : s.program = wr .ctrl v :: rest) (hv : v.getLsbD 31 = true) :
    step s = .next (launch v { s with program := rest }) := by
  have hb : isBusy { s with program := rest } = false := isBusy_idle he
  rw [step_wr he ht hp, writeReg, whenIdle_idle hb, writeCtrl, if_pos hv]

/-- Settles O54: the launch, the command and the POLL, one step each. -/
theorem runPseudoEndsDone : Obligations.RunPseudoEndsDone := by
  intro s i rest he ht hp hruns
  have hlaunch : step s = .next (launch (encode i) { s with program := pollDone :: rest }) :=
    step_wr_ctrl_launches he ht hp (launches_encode i)
  obtain ⟨t, hexec, hidle, hdone, hturns, hprogram⟩ :=
    exec_completes (s := launch (encode i) { s with program := pollDone :: rest })
      (hruns.imp (Runs_launch · _ _) fun ⟨e, h⟩ => ⟨e, (checkCommand_launch ..).trans h⟩)
  have hcommand := (step_launched (s := { s with program := pollDone :: rest }) ht).trans hexec
  have hpoll := step_pollDone hidle (hturns.trans ht) hdone hprogram
  refine ⟨hostRead .status { t with program := rest }, ?_, hidle, hdone, rfl⟩
  rw [run_succ 2 hlaunch, run_succ 1 hcommand, run_succ 0 hpoll]; rfl

end Sys2Proof.Machine
end

section
/-! SUPPORT. The alignment helpers (40_alignment.md R85, R86): each answers a multiple of the alignment, on its side of the size
and nearest to it; on a power of two, `alignDown` clears the low bits. -/

namespace Sys2Proof.Machine

/-! ### `alignDown` -/

theorem dvd_alignDown (n a : Nat) : a ∣ alignDown n a := Nat.dvd_sub_mod n

theorem alignDown_le (n a : Nat) : alignDown n a ≤ n := Nat.sub_le ..

theorem lt_alignDown_add (n : Nat) {a : Nat} (ha : 0 < a) : n < alignDown n a + a := by
  have hmod := Nat.mod_lt n ha
  unfold alignDown; omega

theorem le_alignDown {m n a : Nat} (ha : 0 < a) (hm : a ∣ m) (hle : m ≤ n) : m ≤ alignDown n a :=
  Nat.le_of_lt_add_of_dvd (hle.trans_lt (lt_alignDown_add n ha)) hm (dvd_alignDown n a)

/-- The mask form of R85: `alignDown n (2 ^ k)` is `n` with its low `k` bits cleared. -/
theorem testBit_alignDown (n k b : Nat) : (alignDown n (2 ^ k)).testBit b = (n.testBit b && decide (k ≤ b)) := by
  have hmul : alignDown n (2 ^ k) = 2 ^ k * (n / 2 ^ k) := Nat.mul_div_self_eq_mod_sub_self.symm
  rw [hmul, Nat.testBit_two_pow_mul, Nat.testBit_div_two_pow, Bool.and_comm]
  by_cases hkb : k ≤ b
  · rw [Nat.sub_add_cancel hkb]
  · simp only [hkb, decide_false, Bool.and_false]

/-! ### `alignUp` -/

theorem dvd_alignUp (n a : Nat) : a ∣ alignUp n a := dvd_alignDown ..

theorem le_alignUp (n : Nat) {a : Nat} (ha : 0 < a) : n ≤ alignUp n a := by
  have hlt : n + a - 1 < alignUp n a + a := lt_alignDown_add _ ha
  omega

theorem alignUp_le {m n a : Nat} (ha : 0 < a) (hm : a ∣ m) (hle : n ≤ m) : alignUp n a ≤ m := by
  have hup : alignUp n a ≤ n + a - 1 := alignDown_le ..
  exact Nat.le_of_lt_add_of_dvd (by omega) (dvd_alignUp n a) hm

/-! ### Both on a power of two -/

/-- Settles O24: both helpers at the alignment `2 ^ k`, which is positive. -/
theorem alignmentHelpers : Obligations.AlignmentHelpers := by
  intro n k
  have hpos : 0 < 2 ^ k := Nat.two_pow_pos k
  exact ⟨testBit_alignDown n k, rfl,
    ⟨dvd_alignDown n _, alignDown_le n _, fun _ => le_alignDown hpos⟩,
    rfl, dvd_alignUp n _, le_alignUp n hpos, fun _ => alignUp_le hpos⟩

end Sys2Proof.Machine
end

section
/-! SUPPORT. UNPACK's mosaic (41_unpack.md R90–R95), and that the output of a command depends on nothing but the bytes it reads:
two passes of one command over memories that agree there leave the same destination bytes. -/

namespace Sys2Proof.Machine

/-- An accepted command whose pass answers completes with the memory it leaves (60_exceptions.md R134). -/
theorem exec_of_pass_ok {i : Instr} {s : State} {m : List Host.Cell} (ha : Accepted i s)
    (hp : passOf i s s.mem = .ok m) : exec i s = .next (completeWith m s) := by
  rw [exec_of_accepted ha, hp]

/-! ### The cells of the mosaic -/

/-- Inside the buffer, a filled memory reads as its contents. -/
theorem Filled_inside {m0 m : List Host.Cell} {dst n : Nat} {out : Nat → Byte} (h : Filled m0 dst out n m) {d : Nat}
    (hd : d < n) : Memory.read m (dst + d) = out d := by
  rw [h, if_pos (by omega), Nat.add_sub_cancel_left]

/-- `|` joins a high byte and two low bits that share no digit, so it adds them (R90). -/
theorem groupSample_eq (hi lo i : Nat) : groupSample hi lo i = 4 * hi + lo / 4 ^ i % 4 := by
  have hlow : (lo >>> (2 * i)) &&& 3 = lo / 4 ^ i % 4 := by
    rw [Nat.shiftRight_eq_div_pow, Nat.pow_mul]; exact Nat.and_two_pow_sub_one_eq_mod _ 2
  have hlt : lo / 4 ^ i % 4 < 2 ^ 2 := Nat.mod_lt _ (by decide)
  rw [groupSample, hlow, ← Nat.shiftLeft_add_eq_or_of_lt hlt, Nat.shiftLeft_eq, Nat.mul_comm]

/-- Cell `y·W + x` is sample `x mod 4` of group `x div 4` of row `y` (R90–R92). -/
theorem unpackCell_row (s : State) (m : List Host.Cell) {y x : Nat} (hx : x < frameW s) :
    unpackCell s m (y * frameW s + x) =
      4 * (Memory.read m (srcBase s + y * frameS s + 5 * (x / 4) + x % 4)).toNat +
      (Memory.read m (srcBase s + y * frameS s + 5 * (x / 4) + 4)).toNat / 4 ^ (x % 4) % 4 := by
  simp only [unpackCell, div_row hx, mod_row hx, groupSample_eq, Nat.add_assoc]

/-- A sample has ten bits (R90). -/
theorem unpackCell_lt (s : State) (m : List Host.Cell) (n : Nat) : unpackCell s m n < 1024 := by
  simp only [unpackCell, groupSample_eq]
  omega

/-- The two bytes stored for a cell are its little-endian value (20_memory.md R57). -/
theorem cell16_of_Filled {s : State} {m0 m : List Host.Cell} {dst len n : Nat}
    (h : Filled m0 dst (unpackByte s m0) (2 * len) m) (hn : n < len) : cell16 m (dst + 2 * n) = unpackCell s m0 n := by
  have hlow := Filled_inside h (d := 2 * n) (by omega)
  have hhigh := Filled_inside h (d := 2 * n + 1) (by omega)
  have hlt := unpackCell_lt s m0 n
  rw [cell16, Nat.add_assoc, hlow, hhigh, unpackByte_low, unpackByte_high, BitVec.toNat_ofNat, BitVec.toNat_ofNat]
  omega

/-- Settles O36: the pass fills the mosaic, whose cells are read off it, and nothing else. -/
theorem unpackResult : Obligations.UnpackResult := by
  intro s ha hc
  obtain ⟨m, hpass, hfilled⟩ := unpackPass_ok s.mem ha hc
  refine ⟨m, exec_of_pass_ok ha hpass, fun y x hy hx => ?_, fun a hout => Filled_outside hfilled ?_⟩
  · rw [cell16_of_Filled hfilled (row_lt hx hy), unpackCell_row s s.mem hx]
  · rwa [← Nat.mul_assoc]

/-- A low-bits byte made of four copies of two bits (R95). -/
theorem repeated_low_bits : ∀ b < 4, ∀ i < 4, b * 0x55 / 4 ^ i % 4 = b := by decide

/-- Settles O37: each cell of the mosaic is four times `v / 4` and the copy of `v % 4` at its place. -/
theorem constantFrameUnpacksConstant : Obligations.ConstantFrameUnpacksConstant := by
  intro s v ha hc _ hpacked
  obtain ⟨m, hexec, hcells, -⟩ := unpackResult s ha hc
  refine ⟨_, hexec, fun n hn => ?_⟩
  obtain ⟨y, x, hy, hx, rfl⟩ := exists_row hn
  have hw : frameW s % 8 = 0 := ha.width_mod rfl
  have hi : x % 4 < 4 := Nat.mod_lt x (by decide)
  obtain ⟨hhigh, hlow⟩ := hpacked y (x / 4) hy (by omega)
  calc cell16 m (dstBase s + 2 * (y * frameW s + x))
      = 4 * (v / 4) + v % 4 * 0x55 / 4 ^ (x % 4) % 4 := by rw [hcells y x hy hx, hhigh _ hi, hlow]
    _ = 4 * (v / 4) + v % 4 := by rw [repeated_low_bits _ (Nat.mod_lt v (by decide)) _ hi]
    _ = v := Nat.div_add_mod v 4

/-! ### Two runs over memories that agree -/

/-- The `len` bytes from `base` on read the same in both memories. -/
def SameBytes (base len : Nat) (m m' : List Host.Cell) : Prop :=
  ∀ a, base ≤ a → a < base + len → Memory.read m' a = Memory.read m a

/-- The pass of the command answers over both memories, and leaves the same destination bytes. -/
def SameOutput (i : Instr) (s : State) (m m' : List Host.Cell) : Prop :=
  ∃ r r', passOf i s m = .ok r ∧ passOf i s m' = .ok r' ∧ SameBytes (dstBase s) (needDst i s) r r'

/-- Buffers filled with the same bytes read the same. -/
theorem SameBytes_of_Filled {m m' r r' : List Host.Cell} {dst n : Nat} {out out' : Nat → Byte}
    (h : Filled m dst out n r) (h' : Filled m' dst out' n r') (hout : ∀ d, d < n → out' d = out d) :
    SameBytes dst n r r' := by
  intro a hlo hhi
  rw [h a, h' a, if_pos ⟨hlo, hhi⟩, if_pos ⟨hlo, hhi⟩, hout _ (by omega)]

/-- Whether the zebra zeroes a sample is decided by the sample itself (45_zebra.md R116). -/
theorem SameBytes_of_Zebraed {m m' r r' : List Host.Cell} {base l total : Nat} (h : Zebraed m base l total total r)
    (h' : Zebraed m' base l total total r') (hm : SameBytes base total m m') : SameBytes base total r r' := by
  intro a hlo hhi
  have hread := hm a hlo hhi
  by_cases hz : base ≤ a ∧ a < base + total ∧ ZebraSampleVisited l total (a - base) ∧ Memory.read m a = 255
  · rw [(h a).1 hz, (h' a).1 (by rwa [hread])]
  · rw [(h a).2 hz, (h' a).2 (by rwa [hread]), hread]

/-- The mosaic is made of the five bytes of each group (41_unpack.md R93). -/
theorem unpackByte_congr {s : State} {m m' : List Host.Cell} (hw : frameW s % 8 = 0)
    (hm : ∀ a, UnpackReads s a → Memory.read m' a = Memory.read m a) {d : Nat} (hd : d < 2 * (frameW s * frameH s)) :
    unpackByte s m' d = unpackByte s m d := by
  have hcell : unpackCell s m' (d / 2) = unpackCell s m (d / 2) := by
    obtain ⟨y, x, hy, hx, hrow⟩ := exists_row (w := frameW s) (h := frameH s) (n := d / 2) (by omega)
    rw [hrow, unpackCell_row s m' hx, unpackCell_row s m hx, hm _ ⟨y, x / 4, x % 4, hy, by omega, by omega, rfl⟩,
      hm _ ⟨y, x / 4, 4, hy, by omega, by omega, rfl⟩]
  simp only [unpackByte, hcell]

theorem unpack_sameOutput {s : State} {m m' : List Host.Cell} (ha : Accepted .unpack s) (hc : PortClean .unpack s)
    (hm : ∀ a, UnpackReads s a → Memory.read m' a = Memory.read m a) : SameOutput .unpack s m m' := by
  obtain ⟨r, hr, hfilled⟩ := unpackPass_ok m ha hc
  obtain ⟨r', hr', hfilled'⟩ := unpackPass_ok m' ha hc
  have hneed : needDst .unpack s = 2 * (frameW s * frameH s) := Nat.mul_assoc ..
  refine ⟨r, r', hr, hr', ?_⟩
  rw [hneed]
  exact SameBytes_of_Filled hfilled hfilled' fun d => unpackByte_congr (ha.width_mod rfl) hm

/-- The preview is made of three bytes of every fourth group row (42_preview.md R96, R98). -/
theorem previewByte_congr {s : State} {m m' : List Host.Cell}
    (hm : ∀ a, PreviewReads s a → Memory.read m' a = Memory.read m a) {d : Nat}
    (hd : d < 3 * (previewW s * previewH s)) : previewByte s m' d = previewByte s m d := by
  obtain ⟨r, gx, hr, hg, hrow⟩ := exists_row (w := previewW s) (h := previewH s) (n := d / 3) (by omega)
  have hread : ∀ o, o = 0 ∨ o = 1 ∨ o = frameS s + 1 →
      Memory.read m' (srcBase s + (4 * r * frameS s + 5 * gx) + o) =
        Memory.read m (srcBase s + (4 * r * frameS s + 5 * gx) + o) :=
    fun o ho => hm _ ⟨r, gx, o, hr, hg, ho, by omega⟩
  have hpixel : d = 3 * (r * previewW s + gx) + d % 3 := by omega
  rw [hpixel, previewByte_pixel m' hg (by omega), previewByte_pixel m hg (by omega)]
  have h0 := hread 0 (.inl rfl)
  have h1 := hread 1 (.inr (.inl rfl))
  have h2 := hread (frameS s + 1) (.inr (.inr rfl))
  rw [Nat.add_zero] at h0
  rw [← Nat.add_assoc] at h2
  rw [h0, h1, h2]

theorem preview_sameOutput {s : State} {m m' : List Host.Cell} (ha : Accepted .preview s) (hc : PortClean .preview s)
    (hm : ∀ a, PreviewReads s a → Memory.read m' a = Memory.read m a) : SameOutput .preview s m m' := by
  obtain ⟨r, hr, hfilled⟩ := previewPass_ok m ha hc
  obtain ⟨r', hr', hfilled'⟩ := previewPass_ok m' ha hc
  have hneed : needDst .preview s = 3 * (previewW s * previewH s) := Nat.mul_assoc ..
  refine ⟨r, r', hr, hr', ?_⟩
  rw [hneed]
  exact SameBytes_of_Filled hfilled hfilled' fun d => previewByte_congr hm

/-- The zebra pass over images that agree (45_zebra.md R122). -/
theorem zebraPass_sameBytes {s : State} {m m' : List Host.Cell} {base wz hz : Nat}
    (hc : ∀ d, ZebraSampleVisited (3 * wz) (3 * wz * hz) d → portFails s (base + d) = false)
    (hm : SameBytes base (3 * wz * hz) m m') :
    ∃ r r', zebraPass s base wz hz m = .ok r ∧ zebraPass s base wz hz m' = .ok r' ∧
      SameBytes base (3 * wz * hz) r r' := by
  obtain ⟨r, hr, hzebra⟩ := zebraPass_ok m hc
  obtain ⟨r', hr', hzebra'⟩ := zebraPass_ok m' hc
  exact ⟨r, r', hr, hr', SameBytes_of_Zebraed hzebra hzebra' hm⟩

/-- The zebra of PREVIEWZ stays inside the preview it has just written (42_preview.md R99). -/
theorem previewz_zebra_clean {s : State} (hc : PortClean .previewz s) {d : Nat}
    (hd : ZebraSampleVisited (3 * previewW s) (3 * previewW s * previewH s) d) : portFails s (dstBase s + d) = false := by
  have hlt := sample_lt (by rw [Nat.mul_assoc]; omega) hd
  exact hc _ (.inr (dst_contains_iff.2 ⟨Nat.le_add_right .., Nat.add_lt_add_left hlt _⟩))

theorem previewz_sameOutput {s : State} {m m' : List Host.Cell} (ha : Accepted .previewz s)
    (hc : PortClean .previewz s) (hm : ∀ a, PreviewReads s a → Memory.read m' a = Memory.read m a) :
    SameOutput .previewz s m m' := by
  obtain ⟨p, p', hp, hp', hsame⟩ := preview_sameOutput (Accepted_preview_of_previewz ha) hc hm
  obtain ⟨r, r', hr, hr', hsame'⟩ := zebraPass_sameBytes (fun _ => previewz_zebra_clean hc) hsame
  rw [passOf] at hp hp'
  refine ⟨r, r', ?_, ?_, hsame'⟩
  · simp only [passOf, previewZebraPass, hp, bind, Except.bind, hr]
  · simp only [passOf, previewZebraPass, hp', bind, Except.bind, hr']

/-- Sample `n` of LUTAPPLY reads one 16-bit cell of the source image (44_lut_apply.md R112). -/
theorem source_cell16_congr {s : State} {m m' : List Host.Cell}
    (hm : SameBytes (srcBase s) (6 * frameW s * frameH s) m m') {n : Nat} (hn : n < 3 * (frameW s * frameH s)) :
    cell16 m' (srcBase s + 2 * n) = cell16 m (srcBase s + 2 * n) := by
  rw [Nat.mul_assoc] at hm
  rw [cell16, cell16, hm _ (by omega) (by omega), hm _ (by omega) (by omega)]

theorem lutapply_sameOutput {s : State} {m m' : List Host.Cell} (ha : Accepted .lutapply s)
    (hc : PortClean .lutapply s) (hw : ∀ n, n < 3 * (frameW s * frameH s) → entryIn s m n = true)
    (hm : SameBytes (srcBase s) (6 * frameW s * frameH s) m m') : SameOutput .lutapply s m m' := by
  have hw' : ∀ n, n < 3 * (frameW s * frameH s) → entryIn s m' n = true := by
    intro n hn
    rw [entryIn, source_cell16_congr hm hn]
    exact hw n hn
  obtain ⟨r, hr, hfilled⟩ := lutPass_ok m ha hc hw
  obtain ⟨r', hr', hfilled'⟩ := lutPass_ok m' ha hc hw'
  have hneed : needDst .lutapply s = 3 * (frameW s * frameH s) := Nat.mul_assoc ..
  refine ⟨r, r', hr, hr', ?_⟩
  rw [hneed]
  exact SameBytes_of_Filled hfilled hfilled' fun d hd => by rw [lutByte, lutByte, source_cell16_congr hm hd]

/-- A command's pass over a memory that agrees with the state's on the bytes the command reads. -/
theorem sameOutput_of_runs {i : Instr} {s : State} {m : List Host.Cell} (h : Runs i s)
    (hm : ∀ a, Reads i s a → Memory.read m a = Memory.read s.mem a) : SameOutput i s s.mem m := by
  obtain ⟨ha, hc, hw⟩ := h
  cases i with
  | unpack => exact unpack_sameOutput ha hc hm
  | preview => exact preview_sameOutput ha hc hm
  | previewz => exact previewz_sameOutput ha hc hm
  | lutapply =>
    refine lutapply_sameOutput ha hc ?_ fun a hlo hhi => hm a ⟨hlo, hhi⟩
    rw [← Nat.mul_assoc]; exact hw rfl
  | zebra => exact zebraPass_sameBytes (fun d hd => hc _ ⟨d, hd, rfl⟩) fun a hlo hhi => hm a ⟨hlo, hhi⟩

/-- The zebra cursor loop takes its memory as an argument, and reads no memory from the state. -/
theorem zebraLoop_withMem (s : State) (m0 : List Host.Cell) (base l total fuel c : Nat) (m : List Host.Cell) :
    zebraLoop { s with mem := m0 } base l total fuel c m = zebraLoop s base l total fuel c m := by
  induction fuel generalizing c m with
  | zero => rfl
  | succ fuel ih =>
    have hvisit : zebraVisit { s with mem := m0 } base c m = zebraVisit s base c m := rfl
    simp only [zebraLoop, hvisit, ih]

theorem zebraPass_withMem (s : State) (m0 : List Host.Cell) (base wz hz : Nat) (m : List Host.Cell) :
    zebraPass { s with mem := m0 } base wz hz m = zebraPass s base wz hz m := zebraLoop_withMem ..

/-- So does the pass of every command. -/
theorem passOf_withMem (i : Instr) (s : State) (m0 m : List Host.Cell) :
    passOf i { s with mem := m0 } m = passOf i s m := by
  cases i with
  | unpack => rfl
  | preview => rfl
  | previewz => exact congrArg (previewPass s m >>= ·) (funext fun _ => zebraPass_withMem ..)
  | lutapply => rfl
  | zebra => exact zebraPass_withMem ..

/-- The checks of 60_exceptions.md R132 read no memory (R131). -/
theorem Accepted_withMem {i : Instr} {s : State} (h : Accepted i s) (m : List Host.Cell) :
    Accepted i { s with mem := m } := { h with }

/-- Settles O35: both runs are the command's pass and a completion, and the passes leave the same destination bytes. -/
theorem outputDependsOnBytesRead : Obligations.OutputDependsOnBytesRead := by
  intro i s m h hm
  obtain ⟨r, r', hr, hr', hsame⟩ := sameOutput_of_runs h hm
  exact ⟨completeWith r s, completeWith r' { s with mem := m }, exec_of_pass_ok h.accepted hr,
    exec_of_pass_ok (Accepted_withMem h.accepted m) ((passOf_withMem ..).trans hr'), hsame⟩

end Sys2Proof.Machine
end

section
/-! SUPPORT. The preview (42_preview.md R96–R99): the bytes PREVIEW leaves, and PREVIEWZ as the zebra over them. -/

namespace Sys2Proof.Machine

/-! ### PREVIEW -/

/-- Settles O38: the pass fills the preview, whose pixels are read off it, and nothing else. -/
theorem previewResult : Obligations.PreviewResult := by
  intro s ha hc
  obtain ⟨m, hpass, hfilled⟩ := previewPass_ok s.mem ha hc
  refine ⟨m, exec_of_pass_ok ha hpass, fun r gx hr hg => ?_, fun a hout => Filled_outside hfilled ?_⟩
  · have hlt : r * previewW s + gx < previewW s * previewH s := row_lt hg hr
    have hpixel : ∀ ch, ch < 3 → Memory.read m (dstBase s + (3 * (r * previewW s + gx) + ch)) =
        previewByte s s.mem (3 * (r * previewW s + gx) + ch) :=
      fun ch hch => Filled_inside hfilled (by omega)
    have h0 := hpixel 0 (by decide)
    have h1 := hpixel 1 (by decide)
    have h2 := hpixel 2 (by decide)
    rw [previewByte_pixel s.mem hg (by decide)] at h0 h1 h2
    simp only [Nat.reduceEqDiff, if_true, if_false, ← Nat.add_assoc, Nat.add_zero] at h0 h1 h2
    exact ⟨h0, h1, h2⟩
  · rwa [← Nat.mul_assoc]

/-! ### The zebra pass under another state -/

/-- Of the state, the zebra loop reads only which addresses the platform answers with an error. -/
theorem zebraLoop_of_portFails_eq {s s' : State} (h : portFails s' = portFails s) (base l total fuel c : Nat)
    (m : List Host.Cell) : zebraLoop s' base l total fuel c m = zebraLoop s base l total fuel c m := by
  have hsample : zebraSample s' = zebraSample s := by
    funext base c k m
    simp only [zebraSample, memRead, memWrite, portRead, portWrite, h]
  induction fuel generalizing c m with
  | zero => rfl
  | succ fuel ih => simp only [zebraLoop, zebraVisit, hsample, ih]

/-! ### PREVIEWZ -/

/-- The state after a PREVIEW of `s` that leaves memory `m`, with the frame set to the size of its preview. -/
def previewFrame (s : State) (m : List Host.Cell) : State :=
  { completeWith m s with width := BitVec.ofNat 16 (frameW s / 4), height := BitVec.ofNat 16 (frameH s / 4) }

/-- A quarter of a 16-bit dimension fits its register. -/
theorem quarter_toNat (d : BitVec 16) : (BitVec.ofNat 16 (d.toNat / 4)).toNat = d.toNat / 4 := by
  rw [BitVec.toNat_ofNat]; omega

theorem frameW_previewFrame (s : State) (m : List Host.Cell) : frameW (previewFrame s m) = previewW s :=
  quarter_toNat s.width

theorem frameH_previewFrame (s : State) (m : List Host.Cell) : frameH (previewFrame s m) = previewH s :=
  quarter_toNat s.height

/-- ZEBRA on the preview needs the destination bytes that PREVIEWZ needs (20_memory.md R60). -/
theorem needDst_previewFrame (s : State) (m : List Host.Cell) :
    needDst .zebra (previewFrame s m) = needDst .previewz s := by
  rw [needDst, needDst, frameW_previewFrame, frameH_previewFrame]

/-- The checks of PREVIEWZ imply those of ZEBRA on the preview. -/
theorem Accepted_zebra_previewFrame {s : State} (h : Accepted .previewz s) (m : List Host.Cell) :
    Accepted .zebra (previewFrame s m) where
  width_pos := by
    have hpos := h.width_pos
    have hmod := h.width_mod rfl
    rw [frameW_previewFrame, previewW]; omega
  height_pos := by
    have hpos := h.height_pos
    have hmod := h.height_mod rfl
    rw [frameH_previewFrame, previewH]; omega
  width_mod := nofun
  height_mod := nofun
  ready := nofun
  src_len := nofun
  dst_len := by rw [needDst_previewFrame]; exact h.dst_len
  src_range := nofun
  dst_range := by rw [needDst_previewFrame]; exact h.dst_range
  disjoint := nofun

/-- The pass of ZEBRA on the preview is the zebra pass of PREVIEWZ (42_preview.md R99). -/
theorem zebraFramePass_previewFrame (s : State) (m m' : List Host.Cell) :
    zebraFramePass (previewFrame s m) m' = zebraPass s (dstBase s) (previewW s) (previewH s) m' := by
  rw [zebraFramePass, frameW_previewFrame, frameH_previewFrame]
  have hport : portFails (previewFrame s m) = portFails s := rfl
  exact zebraLoop_of_portFails_eq hport ..

/-- Settles O39: PREVIEWZ's pass is the two passes in turn, and ZEBRA on the preview makes the second. -/
theorem previewzIsPreviewThenZebra : Obligations.PreviewzIsPreviewThenZebra := by
  intro s ha hc
  have hpreview := Accepted_preview_of_previewz ha
  obtain ⟨p, hp, -⟩ := previewPass_ok s.mem hpreview hc
  obtain ⟨z, hz, -⟩ := zebraPass_ok p fun _ => previewz_zebra_clean hc
  have hpass : previewZebraPass s s.mem = .ok z := by
    simp only [previewZebraPass, hp, bind, Except.bind, hz]
  exact ⟨completeWith p s, completeWith z (previewFrame s p), exec_of_pass_ok hpreview hp,
    exec_of_pass_ok (Accepted_zebra_previewFrame ha p) ((zebraFramePass_previewFrame s p p).trans hz),
    exec_of_pass_ok ha hpass⟩

end Sys2Proof.Machine
end

section
/-! SUPPORT. The tone-curve compiler (43_tone_curve.md R102–R109): its refusals in order, the Lagrange form as Mathlib's
interpolating polynomial, the quantiser as a power of reals, and the compiler against the exact real reference. -/

namespace Sys2Proof.Machine.ToneCurve

/-! ### The refusals (R102, R103) -/

theorem degenerate_eq_true_iff (curve : List Point) :
    degenerate curve = true ↔ curve.length < 2 ∨ ¬ (curve.map Point.x).Nodup := by
  simp [degenerate]

theorem degenerate_eq_false_iff (curve : List Point) :
    degenerate curve = false ↔ 2 ≤ curve.length ∧ (curve.map Point.x).Nodup := by
  rw [← Bool.not_eq_true, degenerate_eq_true_iff, not_or, not_lt, not_not]

/-- The compiler's chain of refusals, over the list of its curves. -/
theorem compile_eq (c0 c1 c2 : List Point) (g : Gamma) (inRange : Nat) :
    compile c0 c1 c2 g inRange =
      if ∃ c ∈ [c0, c1, c2], degenerate c = true then .error .degenerateCurve
      else if g.num = 0 ∨ g.den = 0 then .error .badGamma
      else if ∃ c ∈ [c0, c1, c2], ¬ inDomain c then .error .badPoint
      else .ok (channelTable c0 g inRange ++ channelTable c1 g inRange ++ channelTable c2 g inRange) := by
  rcases compile_cases c0 c1 c2 g inRange with
    ⟨c, hc, hd, h⟩ | ⟨hd, ⟨hg, h⟩ | ⟨hnum, hden, ⟨⟨c, hc, hp⟩, h⟩ | ⟨hp, h⟩⟩⟩
  · rw [h, if_pos ⟨c, hc, hd⟩]
  · rw [h, if_neg (by simpa using hd), if_pos (by omega)]
  · rw [h, if_neg (by simpa using hd), if_neg (by omega), if_pos ⟨c, hc, hp⟩]
  · rw [h, if_neg (by simpa using hd), if_neg (by omega), if_neg (by simpa using hp)]

theorem not_inDomain_iff (curve : List Point) :
    ¬ inDomain curve ↔ ∃ p ∈ curve, p.x < 0 ∨ 255 < p.x ∨ p.y < 0 ∨ 255 < p.y := by
  simp only [inDomain, Point.inDomain, not_forall, not_and_or, not_le, exists_prop]

/-- Settles O56: the chain of refusals, taken branch by branch. -/
theorem degenerateCurveRefused : Obligations.DegenerateCurveRefused := by
  intro c0 c1 c2 g inRange
  simp only [← degenerate_eq_true_iff, ← degenerate_eq_false_iff, ← not_inDomain_iff, compile_eq]
  refine ⟨fun hd => if_pos hd, fun hd => ?_, fun _ => compile_eq ..⟩
  rw [if_neg (by simpa using hd)]
  refine ⟨fun hg => if_pos hg, fun hnum hden => ?_⟩
  rw [if_neg (by omega)]
  refine ⟨fun hp => if_pos hp, fun hp => ⟨_, if_neg (by simpa using hp), ?_⟩⟩
  simp only [List.length_append, length_channelTable]
  omega

/-! ### The fit (R105) -/

/-- The Lagrange polynomial through the points. -/
noncomputable def fit (points : List Point) : Polynomial Rat := Lagrange.interpolate points.toFinset Point.x Point.y

section
variable {points : List Point} (h : (points.map Point.x).Nodup)
include h

theorem injOn_x : Set.InjOn Point.x (points.toFinset : Set Point) := fun _ hp _ hq =>
  List.inj_on_of_nodup_map h (List.mem_toFinset.1 hp) (List.mem_toFinset.1 hq)

/-- Mathlib's basis polynomial erases the point itself, the model the points of its x: here the same. -/
theorem basis_eq_eval {p : Point} (hp : p ∈ points) (t : Rat) :
    basis points p t = (Lagrange.basis points.toFinset Point.x p).eval t := by
  have hfilter : points.toFinset.erase p = (points.filter fun q => q.x ≠ p.x).toFinset := by
    ext q
    simp only [Finset.mem_erase, List.mem_toFinset, List.mem_filter, decide_eq_true_eq]
    rw [and_comm]
    exact and_congr_right fun hq => not_congr ⟨congrArg Point.x, List.inj_on_of_nodup_map h hq hp⟩
  have hdivisor (q : Point) : (Lagrange.basisDivisor p.x q.x).eval t = (t - q.x) / (p.x - q.x) := by
    simp [Lagrange.basisDivisor, div_eq_inv_mul]
  rw [basis, Lagrange.basis, Polynomial.eval_prod, hfilter, List.prod_toFinset _ (h.of_map.filter _)]
  simp only [hdivisor]

theorem eval_fit (t : Rat) : (fit points).eval t = interpolate points t := by
  rw [fit, Lagrange.interpolate_apply, Polynomial.eval_finsetSum, List.sum_toFinset _ h.of_map, interpolate]
  refine congrArg List.sum (List.map_congr_left fun p hp => ?_)
  rw [Polynomial.eval_mul, Polynomial.eval_C, basis_eq_eval h hp]

theorem eval_fit_x {p : Point} (hp : p ∈ points) : (fit points).eval p.x = p.y :=
  Lagrange.eval_interpolate_at_node _ (injOn_x h) (List.mem_toFinset.2 hp)

theorem natDegree_fit_le : (fit points).natDegree ≤ points.length - 1 := by
  rw [← List.toFinset_card_of_nodup h.of_map]
  exact Polynomial.natDegree_le_of_degree_le (Lagrange.degree_interpolate_le _ (injOn_x h))

theorem eq_fit (hlen : 2 ≤ points.length) {q : Polynomial Rat} (hdeg : q.natDegree ≤ points.length - 1)
    (heval : ∀ p ∈ points, q.eval p.x = p.y) : q = fit points := by
  refine Lagrange.eq_interpolate_of_eval_eq _ (injOn_x h) ?_ fun p hp => heval p (List.mem_toFinset.1 hp)
  rw [List.toFinset_card_of_nodup h.of_map]
  exact Polynomial.degree_le_natDegree.trans_lt (Nat.cast_lt.2 (by omega))

/-- Points on the diagonal are fitted by `X`. -/
theorem interpolate_diagonal (hlen : 2 ≤ points.length) (hdiag : ∀ p ∈ points, p.x = p.y) (t : Rat) :
    interpolate points t = t := by
  have hX : Polynomial.X = fit points :=
    eq_fit h hlen (Polynomial.natDegree_X_le.trans (by omega)) fun p hp => by rw [Polynomial.eval_X, hdiag p hp]
  rw [← eval_fit h, ← hX, Polynomial.eval_X]

end

/-- Settles O57: the Lagrange polynomial is the fit, and the model's sum evaluates it. -/
theorem interpolantPassesThroughPoints : Obligations.InterpolantPassesThroughPoints := fun points hlen h =>
  ⟨fit points, natDegree_fit_le h, fun _ hp => eval_fit_x h hp, fun t => (eval_fit h t).symm, fun _ => eq_fit h hlen⟩

/-! ### The quantiser (R107) -/

/-- Where exactly the numbers up to `b` pass, the search finds `b`, or its own bound. -/
theorem greatestUpTo_eq_min {test : Nat → Bool} {b : Nat} (h : ∀ n, test n = true ↔ n ≤ b) (m : Nat) :
    greatestUpTo test m = min m b := by
  obtain ⟨hle, hpass, hfail⟩ := greatestUpTo_spec test m
  have hb : greatestUpTo test m ≤ b := by
    by_contra! hlt
    exact absurd ((h _).1 (hpass (by omega))) (by omega)
  by_contra hne
  have hnext := hfail (greatestUpTo test m + 1) (by omega) (by omega)
  rw [(h _).2 (by omega)] at hnext
  exact absurd hnext (by decide)

/-- gamma as a real number. -/
noncomputable def Gamma.toReal (g : Gamma) : Real := g.num / g.den

theorem Gamma.toReal_pos {g : Gamma} (hnum : 0 < g.num) (hden : 0 < g.den) : 0 < g.toReal := by
  unfold Gamma.toReal; positivity

theorem Gamma.toReal_nonpos {g : Gamma} (h : ¬ (0 < g.num ∧ 0 < g.den)) : g.toReal ≤ 0 := by
  obtain h | h : g.num = 0 ∨ g.den = 0 := by omega
  all_goals simp [Gamma.toReal, h]

/-- The scaled power of R107, before it is clamped and truncated. -/
noncomputable def scaled (g : Gamma) (u : Real) : Real := 256 * u ^ (1 / g.toReal)

theorem scaled_nonneg (g : Gamma) {u : Real} (hu : 0 ≤ u) : 0 ≤ scaled g u := by
  unfold scaled; positivity

section
variable {g : Gamma} (hnum : 0 < g.num) (hden : 0 < g.den)
include hnum hden

theorem rpow_one_div_gamma_pow_num {u : Real} (hu : 0 ≤ u) : (u ^ (1 / g.toReal)) ^ g.num = u ^ g.den := by
  have hexp : 1 / g.toReal * g.num = g.den := by unfold Gamma.toReal; field_simp
  rw [← Real.rpow_mul_natCast hu, hexp, Real.rpow_natCast]

/-- The quantiser's test, which raises both sides to natural powers, compares with the scaled power. -/
theorem scaledAtLeast_iff {u : Rat} (hu : 0 ≤ u) (n : Nat) : scaledAtLeast g u n = true ↔ (n : Real) ≤ scaled g u := by
  have hu' : (0 : Real) ≤ u := Rat.cast_nonneg.2 hu
  calc scaledAtLeast g u n = true
      ↔ ((n : Real) / 256) ^ g.num ≤ (u : Real) ^ g.den := by
        rw [scaledAtLeast, decide_eq_true_eq, ← Rat.cast_le (K := Real)]; push_cast; rfl
    _ ↔ (n : Real) / 256 ≤ (u : Real) ^ (1 / g.toReal) := by
        rw [← rpow_one_div_gamma_pow_num hnum hden hu', pow_le_pow_iff_left₀ (by positivity) (by positivity) hnum.ne']
    _ ↔ (n : Real) ≤ scaled g u := div_le_iff₀' (by norm_num)

theorem quantise_eq (p : Rat) : (quantise g p : Int) = min 255 ⌊scaled g (max p 0)⌋ := by
  have hs : 0 ≤ scaled g (max p 0) := scaled_nonneg g (le_max_right _ _)
  have htest (n : Nat) : scaledAtLeast g (max p 0) n = true ↔ n ≤ ⌊scaled g (max p 0)⌋₊ := by
    rw [scaledAtLeast_iff hnum hden (le_max_right _ _), Nat.le_floor_iff hs, Rat.cast_max, Rat.cast_zero]
  rw [quantise, greatestUpTo_eq_min htest, Nat.cast_min, Int.natCast_floor_eq_floor hs]; rfl

end

/-! ### The identity curve (R109) -/

theorem quantise_gamma_one (n : Nat) (h : n < 1024) : quantise ⟨1, 1⟩ (gridPoint 1024 n) = n / 4 := by
  have hpos : (0 : Rat) ≤ gridPoint 1024 n := by unfold gridPoint; positivity
  have htest (m : Nat) : scaledAtLeast ⟨1, 1⟩ (gridPoint 1024 n) m = true ↔ m ≤ n / 4 := by
    rw [scaledAtLeast, decide_eq_true_eq, pow_one, pow_one, gridPoint, div_le_div_iff₀ (by norm_num) (by norm_num)]
    norm_cast
    omega
  rw [quantise, max_eq_left hpos, greatestUpTo_eq_min htest]
  omega

/-- Settles O59: both normalised points are on the diagonal, so entry `k` quantises `k / 1024` itself. -/
theorem identityCurveTable : Obligations.IdentityCurveTable := fun k hk => by
  have hnodup : (([⟨0, 0⟩, ⟨255, 255⟩].map normalise).map Point.x).Nodup := by norm_num [normalise]
  rw [tableEntry, interpolate_diagonal hnodup (le_refl 2) (by simp [normalise]), quantise_gamma_one k hk]

/-! ### Rational curves as real ones -/

/-- A rational point as a real one. -/
def Point.toReal (p : Point) : RealPoint := ⟨p.x, p.y⟩

/-- Rational points as real ones. -/
def castCurve (curve : List Point) : List RealPoint := curve.map Point.toReal

/-- Three rational curves as real ones. -/
def castCurves (c0 c1 c2 : List Point) : Curves := ⟨castCurve c0, castCurve c1, castCurve c2⟩

theorem isCast_iff (p : Point) (q : RealPoint) : RealPoint.IsCast p q ↔ q = p.toReal := by
  cases q; simp [RealPoint.IsCast, Point.toReal]

theorem eq_castCurve_of_isCast {curve : List Point} {r : List RealPoint} (h : List.Forall₂ RealPoint.IsCast curve r) :
    r = castCurve curve := by
  induction h with
  | nil => rfl
  | cons hp _ ih => rw [ih, (isCast_iff _ _).1 hp]; rfl

theorem all_castCurves (c0 c1 c2 : List Point) : (castCurves c0 c1 c2).all = [c0, c1, c2].map castCurve := rfl

theorem castCurve_mem_all {c0 c1 c2 c : List Point} (h : c ∈ [c0, c1, c2]) :
    castCurve c ∈ (castCurves c0 c1 c2).all := List.mem_map_of_mem h

theorem forall_mem_all_castCurves {c0 c1 c2 : List Point} {P : List RealPoint → Prop} :
    (∀ r ∈ (castCurves c0 c1 c2).all, P r) ↔ ∀ c ∈ [c0, c1, c2], P (castCurve c) := by
  rw [all_castCurves, List.forall_mem_map]

theorem degenerateCurve_castCurve (curve : List Point) :
    DegenerateCurve (castCurve curve) ↔ degenerate curve = true := by
  have hx : (castCurve curve).map RealPoint.x = (curve.map Point.x).map (fun x : Rat => (x : Real)) := by
    simp [castCurve, Point.toReal, Function.comp_def]
  rw [degenerate_eq_true_iff, DegenerateCurve, hx, List.nodup_map_iff Rat.cast_injective, castCurve, List.length_map]

theorem inDomain_toReal (p : Point) : p.toReal.inDomain ↔ p.inDomain := by
  simp only [RealPoint.inDomain, Point.toReal]
  exact_mod_cast Iff.rfl

theorem inDomain_castCurve (curve : List Point) : (∀ q ∈ castCurve curve, q.inDomain) ↔ inDomain curve := by
  simp [castCurve, inDomain_toReal]

/-! ### The compiler against the exact reference (R102–R108) -/

theorem nodup_normalise {curve : List Point} (h : degenerate curve = false) :
    ((curve.map normalise).map Point.x).Nodup := by
  have hx : (curve.map normalise).map Point.x = (curve.map Point.x).map (· / 256) := by simp [normalise, Function.comp_def]
  rw [hx, List.nodup_map_iff (fun a b hab => by simpa using hab)]
  exact ((degenerate_eq_false_iff curve).1 h).2

/-- The fit of a rational curve, as a real polynomial. -/
noncomputable def realFit (curve : List Point) : Polynomial Real :=
  (fit (curve.map normalise)).map (Rat.castHom Real)

theorem eval_realFit {curve : List Point} (h : degenerate curve = false) (t : Rat) :
    (realFit curve).eval (t : Real) = (interpolate (curve.map normalise) t : Rat) := by
  rw [← eval_fit (nodup_normalise h), realFit, ← eq_ratCast (Rat.castHom Real) t, Polynomial.eval_map_apply, eq_ratCast]

theorem interpolate_normalise {curve : List Point} (h : degenerate curve = false) {p : Point} (hp : p ∈ curve) :
    interpolate (curve.map normalise) (p.x / 256) = p.y / 256 := by
  rw [← eval_fit (nodup_normalise h)]
  exact eval_fit_x (nodup_normalise h) (List.mem_map_of_mem hp)

theorem fits_castCurve {curve : List Point} (h : degenerate curve = false) : Fits (castCurve curve) (realFit curve) := by
  refine ⟨?_, fun q hq => ?_⟩
  · have hdeg := natDegree_fit_le (nodup_normalise h)
    rw [List.length_map] at hdeg
    rw [castCurve, List.length_map, realFit]
    exact Polynomial.natDegree_map_le.trans hdeg
  · obtain ⟨p, hp, rfl⟩ := List.mem_map.1 hq
    have hx := eval_realFit h (p.x / 256)
    rw [interpolate_normalise h hp] at hx
    simpa [Point.toReal] using hx

/-- The byte of entry `k` of channel `ch` in a compiled table. -/
theorem getD_compiled (c0 c1 c2 : List Point) (g : Gamma) {inRange ch k : Nat} (hch : ch < 3) (hk : k < inRange) :
    ((channelTable c0 g inRange ++ channelTable c1 g inRange ++ channelTable c2 g inRange).getD
      (ch * inRange + k) 0).toNat = tableEntry ([c0, c1, c2].getD ch []) g inRange k := by
  rw [← getD_channelTable _ g hk, List.append_assoc]
  match ch, hch with
  | 0, _ =>
    rw [List.getD_append _ _ _ _ (by simpa using hk)]; simp
  | 1, _ =>
    rw [List.getD_append_right _ _ _ _ (by simp), List.getD_append _ _ _ _ (by simpa using hk)]; simp
  | 2, _ =>
    rw [List.getD_append_right _ _ _ _ (by simp; omega), List.getD_append_right _ _ _ _ (by simp; omega)]
    have hindex : 2 * inRange + k - inRange - inRange = k := by omega
    simp [hindex]

section
variable {g : Gamma} (hnum : 0 < g.num) (hden : 0 < g.den)
include hnum hden

theorem isEntry_tableEntry {curve : List Point} (h : degenerate curve = false) (inRange k : Nat) :
    IsEntry (castCurve curve) g.toReal inRange k (tableEntry curve g inRange k) := by
  have heval : (realFit curve).eval ((k : Real) / (inRange : Real)) =
      (interpolate (curve.map normalise) (gridPoint inRange k) : Rat) := by
    rw [← eval_realFit h, gridPoint]; push_cast; rfl
  refine ⟨_, ⟨realFit curve, fits_castCurve h, congrArg (fun v => scaled g (max v 0)) heval.symm⟩, ?_⟩
  rw [tableEntry, quantise_eq hnum hden, max_eq_left (scaled_nonneg g (le_max_right _ _)), min_comm,
    Int.floor_mono.map_min, Int.floor_ofNat]

theorem isTable_compiled {c0 c1 c2 : List Point} (h : ∀ c ∈ [c0, c1, c2], degenerate c = false) (inRange : Nat) :
    IsTable (castCurves c0 c1 c2) g.toReal inRange
      (channelTable c0 g inRange ++ channelTable c1 g inRange ++ channelTable c2 g inRange) := by
  refine ⟨by simp; omega, fun ch k hch hk => ?_⟩
  rw [getD_compiled c0 c1 c2 g hch hk]
  have hcast : (castCurves c0 c1 c2).all.getD ch [] = castCurve ([c0, c1, c2].getD ch []) :=
    List.getD_map (f := castCurve) (l := [c0, c1, c2]) (d := [])
  rw [hcast]
  refine isEntry_tableEntry hnum hden (h _ ?_) inRange k
  rw [List.getD_eq_getElem _ _ hch]
  exact List.getElem_mem _

end

/-- Each answer of the compiler is the one the exact reference gives. -/
theorem compiles_compile (c0 c1 c2 : List Point) (g : Gamma) (inRange : Nat) :
    Compiles (castCurves c0 c1 c2) g.toReal inRange (compile c0 c1 c2 g inRange) := by
  have hfits (hd : ∀ c ∈ [c0, c1, c2], degenerate c = false) :
      ∀ r ∈ (castCurves c0 c1 c2).all, ¬ DegenerateCurve r :=
    forall_mem_all_castCurves.2 fun c hc => by simp [degenerateCurve_castCurve, hd c hc]
  rcases compile_cases c0 c1 c2 g inRange with
    ⟨c, hc, hd, h⟩ | ⟨hd, ⟨hg, h⟩ | ⟨hnum, hden, ⟨⟨c, hc, hp⟩, h⟩ | ⟨hp, h⟩⟩⟩
  all_goals rw [h]
  · exact ⟨castCurve c, castCurve_mem_all hc, (degenerateCurve_castCurve c).2 hd⟩
  · exact ⟨hfits hd, Gamma.toReal_nonpos hg⟩
  · rw [← inDomain_castCurve] at hp
    exact ⟨hfits hd, Gamma.toReal_pos hnum hden, castCurve c, castCurve_mem_all hc, by simpa using hp⟩
  · have hin : ∀ r ∈ (castCurves c0 c1 c2).all, ∀ q ∈ r, q.inDomain :=
      forall_mem_all_castCurves.2 fun c hc => (inDomain_castCurve c).2 (hp c hc)
    exact ⟨fun r hr => ⟨hfits hd r hr, hin r hr⟩, Gamma.toReal_pos hnum hden, isTable_compiled hnum hden hd inRange⟩

/-- Settles O58: the quantiser over the reals, and the compiler over curves that are casts of rational ones. -/
theorem quantiseIsTheRealFormula : Obligations.QuantiseIsTheRealFormula := by
  refine ⟨fun g p hnum hden => quantise_eq hnum hden p, fun c0 c1 c2 g inRange curves h0 h1 h2 => ?_⟩
  obtain rfl : curves = castCurves c0 c1 c2 := by
    rw [castCurves, ← eq_castCurve_of_isCast h0, ← eq_castCurve_of_isCast h1, ← eq_castCurve_of_isCast h2]
  exact compiles_compile c0 c1 c2 g inRange

end Sys2Proof.Machine.ToneCurve
end

section
/-! SUPPORT. LUTAPPLY (44_lut_apply.md R111–R115): its pass over entries that may be unwritten, and the image it leaves. -/

namespace Sys2Proof.Machine

/-! ### A pass that fills a buffer or stops -/

/-- A loop whose body carries an invariant on, or stops with `f`, does so as a whole. -/
theorem forRange_ok_or_error {body : Nat → List Host.Cell → Except Fault (List Host.Cell)} {n : Nat} {f : Fault}
    {m : List Host.Cell} (P : Nat → List Host.Cell → Prop) (h0 : P 0 m)
    (hstep : ∀ k, k < n → ∀ m, P k m → (∃ m', body k m = .ok m' ∧ P (k + 1) m') ∨ body k m = .error f) :
    (∃ m', forRange body n m = .ok m' ∧ P n m') ∨ forRange body n m = .error f := by
  induction n with
  | zero => exact .inl ⟨m, rfl, h0⟩
  | succ n ih =>
    rcases ih fun k hk => hstep k (by omega) with ⟨m1, h1, hp⟩ | h
    · rw [forRange_succ, h1]
      exact hstep n (by omega) m1 hp
    · rw [forRange_succ, h]
      exact .inr rfl

/-- The first `n` samples have been written, and each of them read a written entry. -/
def LutFilled (s : State) (m0 : List Host.Cell) (n : Nat) (m : List Host.Cell) : Prop :=
  Filled m0 (dstBase s) (lutByte s m0) n m ∧ ∀ j, j < n → entryIn s m0 j = true

/-- A sample on a clean port writes the next byte, or stops at an unwritten entry (R113). -/
theorem lutSample_ok_or_unwritten {s : State} {m0 m : List Host.Cell} {p c : Nat} (ha : Accepted .lutapply s)
    (hc : PortClean .lutapply s) (hp : p < frameW s * frameH s) (hch : c < 3) (h : LutFilled s m0 (3 * p + c) m) :
    (∃ m', lutSample s p c m = .ok m' ∧ LutFilled s m0 (3 * p + (c + 1)) m') ∨
      lutSample s p c m = .error .unwrittenLut := by
  obtain ⟨hfilled, hentries⟩ := h
  have hsample := lutSample_cases ha hc hp hch hfilled
  split at hsample
  · rename_i hentry
    obtain ⟨m', hok, hfilled'⟩ := hsample
    exact .inl ⟨m', hok, hfilled', Nat.forall_lt_succ_right.2 ⟨hentries, hentry⟩⟩
  · exact .inr hsample

/-- LUTAPPLY's pass on a clean port writes the image from written entries only, or stops at an unwritten one (R112, R113). -/
theorem lutPass_ok_or_unwritten {s : State} (m0 : List Host.Cell) (ha : Accepted .lutapply s)
    (hc : PortClean .lutapply s) :
    (∃ m', lutPass s m0 = .ok m' ∧ LutFilled s m0 (3 * (frameW s * frameH s)) m') ∨
      lutPass s m0 = .error .unwrittenLut :=
  forRange_ok_or_error (fun p => LutFilled s m0 (3 * p)) ⟨Filled_zero m0 _ _, nofun⟩ fun p hp _ hm =>
    forRange_ok_or_error (n := 3) (fun c => LutFilled s m0 (3 * p + c)) hm fun _ hch _ hm =>
      lutSample_ok_or_unwritten ha hc hp hch hm

/-- Settles O41: a pass that answers has read written entries only. -/
theorem unwrittenEntryFaults : Obligations.UnwrittenEntryFaults := by
  rintro s ha hc ⟨n, hn, hunwritten⟩
  rw [exec_of_accepted ha, passOf]
  rcases lutPass_ok_or_unwritten s.mem ha hc with ⟨m, -, -, hentries⟩ | h
  · have hentry : entryIn s s.mem n = true := hentries n (by rwa [← Nat.mul_assoc])
    exact absurd (hentry.symm.trans hunwritten) (by decide)
  · rw [h]

/-! ### The image -/

/-- The byte of a sample whose entry is written is that entry. -/
theorem some_lutByte {s : State} {m : List Host.Cell} {n : Nat} (h : entryIn s m n = true) :
    some (lutByte s m n) = lutEntry s (n % 3) (min (cell16 m (srcBase s + 2 * n)) (s.build.inRange - 1)) := by
  obtain ⟨b, hb⟩ := Option.isSome_iff_exists.1 h
  rw [lutByte, hb, Option.getD_some]

/-- Settles O40: the pass fills the image, whose bytes are the entries read, and nothing else. -/
theorem lutapplyResult : Obligations.LutapplyResult := by
  intro s ha hc hw
  have hentries : ∀ n, n < 3 * (frameW s * frameH s) → entryIn s s.mem n = true := by
    rw [← Nat.mul_assoc]; exact hw
  obtain ⟨m, hpass, hfilled⟩ := lutPass_ok s.mem ha hc hentries
  rw [← Nat.mul_assoc] at hfilled
  exact ⟨m, exec_of_pass_ok ha hpass,
    fun n hn => by rw [Filled_inside hfilled hn, some_lutByte (hw n hn)], fun a hout => Filled_outside hfilled hout⟩

/-- The clamp keeps four times a byte, so the identity table gives the byte back (R115). -/
theorem entryRead_identity {s : State} {n : Nat} {v : Byte} (hrange : s.build.inRange = 1024)
    (htable : ∀ c k, c ≤ 2 → k < 1024 → lutEntry s c k = some (BitVec.ofNat 8 (k / 4)))
    (hcell : cell16 s.mem (srcBase s + 2 * n) = 4 * v.toNat) : entryRead s n = some v := by
  have hclamp : min (4 * v.toNat) (1024 - 1) = 4 * v.toNat := by omega
  rw [entryRead, hrange, hcell, hclamp, htable _ _ (by omega) (by omega), Nat.mul_div_cancel_left _ (by decide),
    BitVec.ofNat_toNat, BitVec.setWidth_eq]

/-- Settles O42: each sample reads a written entry, which holds its value. -/
theorem identityTableRestoresTheImage : Obligations.IdentityTableRestoresTheImage := by
  intro s u ha hc hrange htable hcells
  have hread : ∀ n, n < 3 * frameW s * frameH s → entryRead s n = some (u n) :=
    fun n hn => entryRead_identity hrange htable (hcells n hn)
  obtain ⟨m, hexec, hbytes, -⟩ := lutapplyResult s ha hc fun n hn => by rw [hread n hn]; rfl
  exact ⟨_, hexec, fun n hn => Option.some.inj ((hbytes n hn).trans (hread n hn))⟩

end Sys2Proof.Machine
end

section
/-! SUPPORT. ZEBRA (45_zebra.md R116–R121): the image it leaves, and the visited pixels in closed form. -/

namespace Sys2Proof.Machine

/-! ### The image (R116–R119) -/

/-- An image holds whole pixels. -/
theorem samples_mod_three (w h : Nat) : 3 * w * h % 3 = 0 := by
  rw [Nat.mul_assoc]; exact Nat.mul_mod_right ..

theorem Zebraed_saturated {m0 m : List Host.Cell} {base l total d : Nat} (h : Zebraed m0 base l total total m)
    (ht : total % 3 = 0) (hv : ZebraSampleVisited l total d) (hsat : Memory.read m0 (base + d) = 255) :
    Memory.read m (base + d) = 0 := by
  have hlt := sample_lt ht hv
  exact (h _).1 ⟨by omega, by omega, by rwa [Nat.add_sub_cancel_left], hsat⟩

theorem Zebraed_frame {m0 m : List Host.Cell} {base l total n a : Nat} (h : Zebraed m0 base l total n m)
    (ha : ¬ ∃ d, a = base + d ∧ ZebraSampleVisited l total d ∧ Memory.read m0 a = 255) :
    Memory.read m a = Memory.read m0 a :=
  (h a).2 fun ⟨hbase, _, hv, hsat⟩ => ha ⟨a - base, by omega, hv, hsat⟩

/-- Settles O43: the pass of an accepted ZEBRA zeroes exactly the visited saturated samples. -/
theorem zebraResult : Obligations.ZebraResult := by
  intro s ha hc
  obtain ⟨m, hpass, hzebra⟩ := zebraPass_ok s.mem fun d hd => hc _ ⟨d, hd, rfl⟩
  exact ⟨m, exec_of_pass_ok ha hpass, fun _ => Zebraed_saturated hzebra (samples_mod_three ..),
    fun _ => Zebraed_frame hzebra⟩

/-! ### ZEBRA twice, and over an image with no sample 255 (R119) -/

/-- Settles O44: after the first run no visited sample is 255, so the frame of the second is all of memory. -/
theorem zebraIdempotent : Obligations.ZebraIdempotent := by
  intro s ha hc
  obtain ⟨m, hexec, hzero, hframe⟩ := zebraResult s ha hc
  obtain ⟨m', hexec', -, hframe'⟩ := zebraResult (completeWith m s) { ha with } hc
  refine ⟨_, _, hexec, hexec', fun a => hframe' a ?_, fun hnone a => hframe a ?_⟩
  · rintro ⟨d, rfl, hv, hsat : Memory.read m (dstBase s + d) = 255⟩
    by_cases hsat0 : Memory.read s.mem (dstBase s + d) = 255
    · rw [hzero d hv hsat0] at hsat
      exact absurd hsat (by decide)
    · rw [hframe _ fun ⟨_, _, _, h⟩ => hsat0 h] at hsat
      exact hsat0 hsat
  · rintro ⟨d, rfl, hv, hsat⟩
    exact hnone d (sample_lt (samples_mod_three ..) hv) hsat

/-! ### An all-255 image (R121) -/

theorem first_pixel_visited {l total d : Nat} (ht : 0 < total) (hd : d < 3) : ZebraSampleVisited l total d :=
  ⟨0, d, .first ht, hd, (Nat.zero_add d).symm⟩

theorem second_pixel_not_visited {l total d : Nat} (hlo : 3 ≤ d) (hhi : d < 6) : ¬ ZebraSampleVisited l total d :=
  sample_gap (k := 0) hlo (hhi.trans_le (Nat.le_trans (by decide) (zebraNext_gt l 0)))

/-- Settles O46: the cursor starts on the first pixel and moves past the second. -/
theorem zebraZeroesSomeNotAll : Obligations.ZebraZeroesSomeNotAll := by
  intro s ha hc hpixels hwhite
  obtain ⟨m, hexec, hzero, hframe⟩ := zebraResult s ha hc
  rw [Nat.mul_assoc] at hzero hframe hwhite
  refine ⟨_, hexec, fun d hd => hzero d (first_pixel_visited (by omega) hd) (hwhite d (by omega)), fun d hlo hhi => ?_⟩
  refine (hframe _ ?_).trans (hwhite d (by omega))
  rintro ⟨e, he, hv, -⟩
  obtain rfl := Nat.add_left_cancel he
  exact second_pixel_not_visited hlo hhi hv

/-! ### The visited pixels in closed form (R120) -/

/-- Column `x` is one of those that the closed form visits in row `y`. -/
def ZebraColumn (wz y x : Nat) : Prop := zebraFirst wz y ≤ x ∧ (x - zebraFirst wz y) % 3 = 0

theorem zebraFirst_le_three {wz : Nat} (h : 4 ≤ wz) (y : Nat) : zebraFirst wz y ≤ 3 := by
  induction y with
  | zero => exact Nat.zero_le 3
  | succ y ih => simp only [zebraFirst]; omega

theorem one_le_zebraFirst_succ {wz : Nat} (h : 4 ≤ wz) (y : Nat) : 1 ≤ zebraFirst wz (y + 1) := by
  have hle := zebraFirst_le_three h y
  simp only [zebraFirst]; omega

/-- The first column of the next row, from the last one of this row. -/
theorem zebraFirst_succ_of_last {wz y x : Nat} (hcol : ZebraColumn wz y x) (hx : x < wz) (hlast : wz ≤ x + 3) :
    zebraFirst wz (y + 1) = x + 4 - wz := by
  obtain ⟨hle, hmod⟩ := hcol
  simp only [zebraFirst]; omega

theorem ZebraColumn_first (wz y : Nat) : ZebraColumn wz y (zebraFirst wz y) := ⟨Nat.le_refl _, by simp⟩

theorem ZebraColumn_add_three {wz y x : Nat} (h : ZebraColumn wz y x) : ZebraColumn wz y (x + 3) := by
  obtain ⟨hle, hmod⟩ := h
  constructor <;> omega

theorem exists_last_column {wz : Nat} (h : 4 ≤ wz) (y : Nat) : ∃ x, x < wz ∧ wz ≤ x + 3 ∧ ZebraColumn wz y x := by
  have hle := zebraFirst_le_three h y
  exact ⟨zebraFirst wz y + 3 * ((wz - 1 - zebraFirst wz y) / 3), by omega, by omega, by omega, by omega⟩

/-- Nine samples on from column `x` the cursor is in the same row exactly when column `x + 3` exists. -/
theorem same_row_iff {wz y x : Nat} (hx : x < wz) :
    (3 * (y * wz + x) + 9) / (3 * wz) = 3 * (y * wz + x) / (3 * wz) ↔ x + 3 < wz := by
  have hpos : 0 < wz := by omega
  have hnine : 3 * (y * wz + x) + 9 = 3 * (y * wz + (x + 3)) := by omega
  rw [hnine, Nat.mul_div_mul_left _ _ (by decide), Nat.mul_div_mul_left _ _ (by decide), Nat.mul_comm y wz,
    Nat.mul_add_div hpos, Nat.mul_add_div hpos, Nat.div_eq_of_lt hx, Nat.add_left_cancel_iff, Nat.div_eq_zero_iff_lt hpos]

/-- The cursor leaves row `y` for column `x + 4 - wz` of the next row. -/
theorem next_row_sample {wz y x : Nat} (hlast : wz ≤ x + 3) :
    3 * (y * wz + x) + 12 = 3 * ((y + 1) * wz + (x + 4 - wz)) := by
  rw [Nat.add_one_mul y]; omega

/-- The cursor only stands on columns of the closed form. -/
theorem column_of_visited {wz total c : Nat} (h : 4 ≤ wz) (hv : ZebraVisited (3 * wz) total c) :
    ∃ y x, x < wz ∧ ZebraColumn wz y x ∧ c = 3 * (y * wz + x) := by
  induction hv with
  | first _ => exact ⟨0, 0, by omega, ZebraColumn_first wz 0, by omega⟩
  | within _ hsame _ ih =>
    obtain ⟨y, x, hx, hcol, rfl⟩ := ih
    exact ⟨y, x + 3, (same_row_iff hx).1 hsame, ZebraColumn_add_three hcol, by omega⟩
  | across _ hcross _ ih =>
    obtain ⟨y, x, hx, hcol, rfl⟩ := ih
    have hlast : wz ≤ x + 3 := by rwa [Ne, same_row_iff hx, Nat.not_lt] at hcross
    refine ⟨y + 1, x + 4 - wz, by omega, ?_, next_row_sample hlast⟩
    rw [← zebraFirst_succ_of_last hcol hx hlast]
    exact ZebraColumn_first wz (y + 1)

/-- Row and column of a pixel are determined by its place in memory. -/
theorem row_column_inj {w y x y' x' : Nat} (hx : x < w) (hx' : x' < w) (h : y * w + x = y' * w + x') :
    y = y' ∧ x = x' := by
  have hdiv := congrArg (· / w) h
  have hmod := congrArg (· % w) h
  simpa [Nat.mul_comm _ w, Nat.mul_add_div (Nat.zero_lt_of_lt hx), Nat.div_eq_of_lt, Nat.mod_eq_of_lt, hx, hx']
    using And.intro hdiv hmod

section
variable {wz hz : Nat}

theorem pixel_lt_total {y x : Nat} (hy : y < hz) (hx : x < wz) : 3 * (y * wz + x) < 3 * wz * hz := by
  rw [Nat.mul_assoc]
  exact Nat.mul_lt_mul_of_pos_left (row_lt hx hy) (by decide)

/-- From a visited column the cursor reaches every third column to its right. -/
theorem visited_right {y x : Nat} (hy : y < hz) (hv : ZebraVisited (3 * wz) (3 * wz * hz) (3 * (y * wz + x))) (k : Nat)
    (hk : x + 3 * k < wz) : ZebraVisited (3 * wz) (3 * wz * hz) (3 * (y * wz + (x + 3 * k))) := by
  induction k with
  | zero => exact hv
  | succ k ih =>
    have hnext : 3 * (y * wz + (x + 3 * k)) + 9 = 3 * (y * wz + (x + 3 * (k + 1))) := by omega
    have hlt := pixel_lt_total hy hk
    rw [← hnext] at hlt ⊢
    exact .within (ih (by omega)) ((same_row_iff (by omega)).2 (by omega)) hlt

theorem visited_of_column {y x : Nat} (hy : y < hz) (hx : x < wz) (hcol : ZebraColumn wz y x)
    (hfirst : ZebraVisited (3 * wz) (3 * wz * hz) (3 * (y * wz + zebraFirst wz y))) :
    ZebraVisited (3 * wz) (3 * wz * hz) (3 * (y * wz + x)) := by
  obtain ⟨hle, hmod⟩ := hcol
  have hsteps : x = zebraFirst wz y + 3 * ((x - zebraFirst wz y) / 3) := by omega
  rw [hsteps] at hx ⊢
  exact visited_right hy hfirst _ hx

/-- The cursor stands on the first column of every row. -/
theorem first_column_visited (h : 4 ≤ wz) {y : Nat} (hy : y < hz) :
    ZebraVisited (3 * wz) (3 * wz * hz) (3 * (y * wz + zebraFirst wz y)) := by
  induction y with
  | zero =>
    have hlt := pixel_lt_total hy (show 0 < wz by omega)
    simp only [Nat.zero_mul] at hlt ⊢
    exact .first hlt
  | succ y ih =>
    obtain ⟨x, hx, hlast, hcol⟩ := exists_last_column h y
    have hv := visited_of_column (by omega) hx hcol (ih (by omega))
    have hlt := pixel_lt_total hy (show x + 4 - wz < wz by omega)
    rw [zebraFirst_succ_of_last hcol hx hlast]
    rw [← next_row_sample hlast] at hlt ⊢
    exact .across hv (by rw [Ne, same_row_iff hx]; omega) hlt

end

/-- Settles O45: the cursor stands on columns of the closed form only, and reaches each of them along its row. -/
theorem zebraColumnsClosedForm : Obligations.ZebraColumnsClosedForm := by
  intro wz hz h
  refine ⟨fun y => ⟨one_le_zebraFirst_succ h y, zebraFirst_le_three h (y + 1)⟩, fun y x hy hx =>
    ⟨fun hv => ?_, fun hcol => ?_⟩⟩
  · obtain ⟨y', x', hx', hcol, heq⟩ := column_of_visited h hv
    obtain ⟨rfl, rfl⟩ := row_column_inj hx hx' (Nat.mul_left_cancel (by decide) heq)
    exact hcol
  · exact visited_of_column hy hx hcol (first_column_visited h hy)

end Sys2Proof.Machine
end

section
/-! SUPPORT. One command of a frame (46_frame_sequence.md R124): what each of its statements does from IDLE, the run of all of
them, and how the host branches on the STATUS it reads. -/

namespace Sys2Proof.Machine

/-! ### The statements of a command, from IDLE with no turn listed -/

/-- A write that an idle block takes (10_state.md R30) is a run's first step. -/
theorem run_wr_idle {s s' : State} {r : Reg} {v : Word} {rest : List HostStmt} (k : Nat) (he : s.engine = .idle)
    (ht : s.turns = []) (hp : s.program = wr r v :: rest)
    (hw : writeReg r v { s with program := rest } = whenIdle { s with program := rest } s') :
    Host.Core.run Sys2Proof.core (k + 1) s = Host.Core.run Sys2Proof.core k s' := by
  have hb : isBusy { s with program := rest } = false := isBusy_idle he
  rw [run_succ k (step_wr he ht hp), hw, whenIdle_idle hb]

/-- The operand registers after BUFS (30_encoding.md R84). -/
def bufsWritten (sa sl da dl : Nat) (s : State) : State :=
  { s with
    srcAddr := addressBits s.build (BitVec.ofNat 32 sa)
    srcLen := BitVec.ofNat 32 sl
    dstAddr := addressBits s.build (BitVec.ofNat 32 da)
    dstLen := BitVec.ofNat 32 dl }

theorem bufs_writes_eq {s : State} (he : s.engine = .idle) (sa sl da dl : Nat) :
    writeReg .dstLen (BitVec.ofNat 32 dl) (writeReg .dstAddr (BitVec.ofNat 32 da)
      (writeReg .srcLen (BitVec.ofNat 32 sl) (writeReg .srcAddr (BitVec.ofNat 32 sa) s))) = bufsWritten sa sl da dl s := by
  simp only [writeReg, whenIdle, isBusy, he, Bool.false_eq_true, if_false, bufsWritten]

theorem run_bufsPseudo {s : State} {sa sl da dl : Nat} {rest : List HostStmt} (k : Nat) (he : s.engine = .idle)
    (ht : s.turns = []) (hp : s.program = bufsPseudo sa sl da dl ++ rest) :
    Host.Core.run Sys2Proof.core (k + 4) s =
      Host.Core.run Sys2Proof.core k { bufsWritten sa sl da dl s with program := rest } :=
  Eq.trans (run_wr_idle _ he ht hp rfl) <| Eq.trans (run_wr_idle _ he ht rfl rfl) <|
    Eq.trans (run_wr_idle _ he ht rfl rfl) <| run_wr_idle _ he ht rfl rfl

/-- A read of STATUS shows the host its value and changes nothing else (10_state.md R30). -/
theorem hostRead_status (s : State) : hostRead .status s = observe (.reg .status (readReg .status s)) s := by
  rw [hostRead, afterRead, if_neg fun h => nomatch h.1]

/-- RUN, as the command it launches: the launch, the command's end in `c`, and the POLL. -/
theorem run_runPseudo {s c : State} {i : Instr} {rest : List HostStmt} (k : Nat) (he : s.engine = .idle)
    (ht : s.turns = []) (hp : s.program = runPseudo i ++ rest)
    (hexec : exec i (launch (encode i) { s with program := pollDone :: rest }) = .next c) (hidle : c.engine = .idle)
    (hturns : c.turns = []) (hdone : c.done = true) (hprogram : c.program = pollDone :: rest) :
    Host.Core.run Sys2Proof.core (k + 3) s =
      Host.Core.run Sys2Proof.core k (observe (.reg .status (readReg .status c)) { c with program := rest }) := by
  have hlaunch : step s = .next (launch (encode i) { s with program := pollDone :: rest }) :=
    step_wr_ctrl_launches he ht hp (launches_encode i)
  have hcommand := (step_launched (s := { s with program := pollDone :: rest }) ht).trans hexec
  have hpoll := step_pollDone hidle hturns hdone hprogram
  rw [run_succ _ hlaunch, run_succ _ hcommand, run_succ _ hpoll, hostRead_status]
  rfl

/-! ### A whole command -/

/-- A command of a frame that ends in `c`: the host's last read shows the STATUS of `c`, and memory is as `c` has it. -/
theorem run_frameCommand {s c : State} {i : Instr} {sa sl da dl : Nat} {rest : List HostStmt} (he : s.engine = .idle)
    (ht : s.turns = []) (hp : s.program = frameCommand i sa sl da dl ++ rest)
    (hexec : exec i (launch (encode i) { bufsWritten sa sl da dl s with program := pollDone :: rd .status :: rest }) =
      .next c) (hidle : c.engine = .idle) (hturns : c.turns = []) (hdone : c.done = true)
    (hprogram : c.program = pollDone :: rd .status :: rest) :
    ∃ t seen, Host.Core.run Sys2Proof.core 8 s = .next t ∧ t.engine = .idle ∧ t.program = rest ∧
      t.observed = .reg .status (readReg .status c) :: seen ∧ t.mem = c.mem := by
  have hbufs := run_bufsPseudo (rest := runPseudo i ++ rd .status :: rest) 4 he ht hp
  have hcommand := run_runPseudo 1 (s := { bufsWritten sa sl da dl s with program := runPseudo i ++ rd .status :: rest })
    he ht rfl hexec hidle hturns hdone hprogram
  have hread := step_rd (s := observe (.reg .status (readReg .status c)) { c with program := rd .status :: rest }) hidle
    hturns rfl
  rw [hostRead_status] at hread
  exact ⟨_, _, hbufs.trans (hcommand.trans (run_succ 0 hread)), hidle, rfl, rfl, rfl⟩

/-- Settles O60: a command that runs ends in `completeWith`, one that fails its checks in `failWith`, and the STATUS read
shows which; the branches of the host are those of its two functions. -/
theorem frameEndsAsTheBlockReports : Obligations.FrameEndsAsTheBlockReports := by
  refine ⟨fun s u i sa sl da dl rest he ht hp hu => ?_, fun b v w converted => ⟨fun code hv curves => ?_, fun hv => ?_⟩⟩
  · obtain rfl := hu.trans (bufs_writes_eq he sa sl da dl)
    refine ⟨fun hruns => ?_, fun e hfail => ?_⟩
    · have hlaunched := Runs_launch hruns (encode i) (pollDone :: rd .status :: rest)
      obtain ⟨m, hm⟩ := pass_ok_of_runs hlaunched
      obtain ⟨t, seen, hrun, hidle, hprogram, hseen, -⟩ :=
        run_frameCommand he ht hp (exec_of_pass_ok hlaunched.accepted hm) rfl ht rfl rfl
      exact ⟨t, _, seen, hrun, hidle, hprogram, hseen, statusError_status _⟩
    · obtain ⟨t, seen, hrun, hidle, hprogram, hseen, hmem⟩ :=
        run_frameCommand he ht hp (exec_of_check_some ((checkCommand_launch ..).trans hfail)) rfl ht rfl rfl
      exact ⟨t, _, seen, hrun, hidle, hprogram, hseen, statusError_status _, fun a => by rw [hmem]; rfl⟩
  · simp only [frameOutcome, frameFinish, hv, and_self]
  · refine ⟨?_, fun code hw => ?_, fun hw => ?_⟩
    · simp only [frameOutcome, hv, Bool.false_eq_true, if_false]
    · simp only [frameOutcome, hv, hw, if_true]
    · simp only [frameOutcome, hv, hw, if_true]

end Sys2Proof.Machine
end

section
/-! SUPPORT. Errors and completion (60_exceptions.md): the checks of R132 as its table's conditions, the two ends of a
command, and the interrupt line. -/

namespace Sys2Proof.Machine

/-! ### The checks, each as its condition of R132 -/

theorem needSrc_eq (i : Instr) (s : State) : needSrc i s = if i = .zebra then none else some (needSrcBytes i s) := by
  cases i <;> rfl

theorem needDst_eq (i : Instr) (s : State) : needDst i s = needDstBytes i s := by cases i <;> rfl

theorem badDimensions_iff {i : Instr} {s : State} :
    BadDimensions i s ↔ (frameW s = 0 ∨ frameH s = 0) ∨ (readsPacked i ∧ frameW s % 8 ≠ 0) ∨
      (writesPreview i ∧ frameH s % 4 ≠ 0) := by
  have hr : readsPacked i = true ↔ i = .unpack ∨ i = .preview ∨ i = .previewz := by cases i <;> decide
  have hw : writesPreview i = true ↔ i = .preview ∨ i = .previewz := by cases i <;> decide
  rw [BadDimensions, hr, hw, or_assoc]
  rfl

theorem sourceTooShort_iff {i : Instr} {s : State} : sourceTooShort i s = true ↔ SourceShort i s := by
  unfold sourceTooShort SourceShort
  rw [needSrc_eq]
  by_cases h : i = .zebra
  · simp [h]
  · rw [if_neg h]
    exact decide_eq_true_iff.trans (and_iff_right h).symm

theorem sourceOutOfRange_iff {i : Instr} {s : State} :
    sourceOutOfRange i s = true ↔ i ≠ .zebra ∧ 2 ^ s.build.addrW < s.srcAddr.toNat + needSrcBytes i s := by
  unfold sourceOutOfRange srcRegion
  rw [needSrc_eq]
  by_cases h : i = .zebra
  · simp [h]
  · rw [if_neg h]
    exact decide_eq_true_iff.trans (and_iff_right h).symm

theorem regionTooHigh_iff {i : Instr} {s : State} :
    RegionTooHigh i s ↔ sourceOutOfRange i s = true ∨ (dstRegion i s).outOfRange s.build = true := by
  have hdst : (dstRegion i s).outOfRange s.build = true ↔ 2 ^ s.build.addrW < s.dstAddr.toNat + needDstBytes i s := by
    rw [← needDst_eq]; exact decide_eq_true_iff
  rw [sourceOutOfRange_iff, hdst, RegionTooHigh]

theorem buffersOverlap_iff {i : Instr} {s : State} : buffersOverlap i s = true ↔ RegionsIntersect i s := by
  unfold buffersOverlap srcRegion RegionsIntersect
  rw [needSrc_eq, ← needDst_eq]
  by_cases h : i = .zebra
  · simp [h]
  · rw [if_neg h]
    exact overlaps_dst_iff.trans (and_iff_right h).symm

open Classical in
/-- The checks are the chain of R132's conditions, in the order of its table. -/
theorem checkCommand_eq (i : Instr) (s : State) :
    checkCommand i s =
      if BadDimensions i s then some .invalidDimensions
      else if TableNotReady i s then some .lutNotReady
      else if SourceShort i s then some .sizeMismatch
      else if DestinationShort i s then some .dstTooSmall
      else if RegionTooHigh i s then some .addressRange
      else if RegionsIntersect i s then some .bufferOverlap
      else none := by
  simp only [checkCommand, badDimensions_iff, regionTooHigh_iff, ite_or, sourceTooShort_iff, buffersOverlap_iff, needDst_eq,
    TableNotReady, DestinationShort]

/-! ### The two ends of a command -/

/-- Settles O31: the checks read neither memory nor the platform's errors. -/
theorem failedCommandChangesStatusOnly : Obligations.FailedCommandChangesStatusOnly := by
  intro i s e h
  refine ⟨exec_of_check_some h, fun m p => ?_, by cases e <;> rfl⟩
  have hcheck : checkCommand i { s with mem := m, portErrors := p } = some e := h
  exact exec_of_check_some hcheck

/-- Settles O32: a next state of a command is `failWith` or `completeWith`. -/
theorem commandEndsInOneOfTwoWays : Obligations.CommandEndsInOneOfTwoWays := by
  intro i s t h
  rcases exec_next h with ⟨e, hcheck, rfl⟩ | ⟨hacc, m, -, rfl⟩
  · exact .inr ⟨e, hcheck, rfl⟩
  · exact .inl ⟨checkCommand_none_iff.2 hacc, m, rfl⟩

/-- Settles O30: the engine's turn over a rejected word, and the chain of checks one condition at a time. -/
theorem errorPriority : Obligations.ErrorPriority := by
  refine ⟨fun s w r ⟨hn, he⟩ hd => (step_of_engine hn).trans (engineTurn_error (s := popTurn s) he hd), fun i s => ?_⟩
  have hchain := checkCommand_eq i s
  refine ⟨fun h1 => ?_, fun h1 h2 => ?_, fun h1 h2 h3 => ?_, fun h1 h2 h3 h4 => ?_, fun h1 h2 h3 h4 h5 => ?_,
    fun h1 h2 h3 h4 h5 h6 => ?_, fun h1 h2 h3 h4 h5 h6 => ?_, fun _ => exec_of_check_some⟩
  · rw [hchain, if_pos h1]
  · rw [hchain, if_neg h1, if_pos h2]
  · rw [hchain, if_neg h1, if_neg h2, if_pos h3]
  · rw [hchain, if_neg h1, if_neg h2, if_neg h3, if_pos h4]
  · rw [hchain, if_neg h1, if_neg h2, if_neg h3, if_neg h4, if_pos h5]
  · rw [hchain, if_neg h1, if_neg h2, if_neg h3, if_neg h4, if_neg h5, if_pos h6]
  · rw [hchain, if_neg h1, if_neg h2, if_neg h3, if_neg h4, if_neg h5, if_neg h6]

/-! ### The engine's step, as an update of the state -/

/-- The engine's step over a running word, where it answers, ends the command: only memory, DONE, ERR, ERRCODE and the phase
change (R133, R134). -/
theorem step_ends {s t : State} {w : Word} (hdo : EngineDoes s w) (h : step s = .next t) :
    ∃ m e c, t = { popTurn s with mem := m, err := e, errCode := c, done := true, engine := .idle } := by
  obtain ⟨hn, he⟩ := hdo
  rw [step_of_engine hn] at h
  rcases engineTurn_cases h with ⟨hidle, -⟩ | ⟨-, -, -, -, rfl⟩ | ⟨-, i, -, -, hi⟩
  · rw [popTurn_engine, he] at hidle; cases hidle
  · exact ⟨_, _, _, rfl⟩
  · rcases exec_next hi with ⟨e, -, rfl⟩ | ⟨-, m, -, rfl⟩ <;> exact ⟨_, _, _, rfl⟩

/-- What a command needs to run or to fail its checks is in no field that a turn, the host's program or an ignored write
changes. -/
theorem runs_or_fails_hostFields {i : Instr} {s : State} (h : Runs i s ∨ ∃ e, checkCommand i s = some e) (tu : List Turn)
    (p : List HostStmt) (g : Bool) :
    Runs i { s with turns := tu, program := p, ign := g } ∨
      ∃ e, checkCommand i { s with turns := tu, program := p, ign := g } = some e :=
  h.imp_left fun hr => ⟨{ hr.accepted with }, hr.clean, hr.written⟩

/-- The engine's step answers where the word's command runs or fails its checks, and where the word is illegal. -/
theorem step_completes_of_runs {s : State} {w : Word} (hdo : EngineDoes s w)
    (h : ∀ i, decode w = .ok i → Runs i s ∨ ∃ e, checkCommand i s = some e) :
    ∃ m e c, step s = .next { popTurn s with mem := m, err := e, errCode := c, done := true, engine := .idle } := by
  have hanswers : ∃ t, step s = .next t := by
    obtain ⟨hn, he⟩ := hdo
    rw [step_of_engine hn]
    cases hd : decode w with
    | error r => exact ⟨_, engineTurn_error (s := popTurn s) he hd⟩
    | ok i =>
      rw [engineTurn_ok (s := popTurn s) he hd]
      exact (exec_completes (runs_or_fails_hostFields (h i hd) s.turns.tail s.program s.ign)).imp fun _ => And.left
  obtain ⟨t, ht⟩ := hanswers
  obtain ⟨m, e, c, rfl⟩ := step_ends hdo ht
  exact ⟨m, e, c, ht⟩

/-! ### The interrupt line -/

/-- Settles O29: each event's effect on DONE and IE. -/
theorem interruptLevel : Obligations.InterruptLevel := by
  refine ⟨fun s => Bool.and_eq_true_iff, fun s t w hdo h => ?_, fun s hd v => ?_, fun s v hv => ?_, fun s v hb hv => ?_,
    fun s t hn h => ?_⟩
  · obtain ⟨m, e, c, rfl⟩ := step_ends hdo h
    exact Bool.and_true _
  · simp [irq, writeReg, hd]
  · simp [irq, writeReg, hv]
  · simp [irq, writeReg, whenIdle_idle hb, writeCtrl, hv]
  · obtain ⟨p, o, rfl⟩ := step_of_reset hn h
    rfl

end Sys2Proof.Machine
end

section
/-! SUPPORT. Runs of a host write and a completion (60_exceptions.md R139, 70_reset_and_hazards.md R152, R153), and
resets with a command running or with a host access (R147, R148). -/

namespace Sys2Proof.Machine

/-! ### A completion and a host write -/

/-- A host write's step, in either phase. -/
theorem step_wr_of_hostDoes {s : State} {r : Reg} {v : Word} {rest : List HostStmt}
    (h : HostDoes s (.wr (regAccess r) v) rest) : step s = .next (writeReg r v (afterStmt s rest)) := by
  rw [step_of_hostDoes h]
  simp only [runStmt, decodeAccess_regAccess]

/-- Settles O53: the launch, and the engine's step over its word. -/
theorem launchedCommandCompletes : Obligations.LaunchedCommandCompletes := by
  intro s v rest he ht hp hv hends
  have hlaunch := step_wr_ctrl_launches he ht hp hv
  have hdo : EngineDoes (launch v { s with program := rest }) v := by
    refine ⟨?_, rfl⟩
    rw [nextTurn, launch_turns, ht]; rfl
  obtain ⟨m, e, c, hcommand⟩ := step_completes_of_runs hdo fun i hd => (hends i hd).imp_left (Runs_launch · v rest)
  exact ⟨_, (run_succ 1 hlaunch).trans (run_succ 0 hcommand), rfl, rfl, rfl, launch_ctrl_toNat v s⟩

/-- Settles O55: in one order the write finds the new DONE, in the other it finds the engine BUSY. -/
theorem simultaneousCompletionAndWrite : Obligations.SimultaneousCompletionAndWrite := by
  intro s w i v rest he hd hends
  have hends' : ∀ j, decode w = .ok j → Runs j s ∨ ∃ e, checkCommand j s = some e := by
    intro j hj
    cases hd.symm.trans hj
    exact hends
  refine ⟨fun ht hp hv => ?_, fun ht hp => ?_⟩
  · have hdo : EngineDoes s w := ⟨by rw [nextTurn, ht], he⟩
    obtain ⟨m, e, c, hcommand⟩ := step_completes_of_runs hdo hends'
    have hwrite : HostDoes { popTurn s with mem := m, err := e, errCode := c, done := true, engine := .idle }
        (.wr (regAccess .status) v) rest := by
      refine ⟨?_, hp⟩
      rw [nextTurn, popTurn_turns, ht]; rfl
    refine ⟨_, (run_succ 1 hcommand).trans (run_succ 0 (step_wr_of_hostDoes hwrite)), ?_, rfl⟩
    rw [writeReg, writeStatus_done, hv, Bool.not_true, Bool.and_false]
  · have hwrite : HostDoes s (.wr (regAccess .ctrl) v) rest := ⟨by rw [nextTurn, ht], hp⟩
    have hignored : step s = .next (setIgnored (afterStmt s rest)) := by
      have hbusy : isBusy (afterStmt s rest) = true := isBusy_busy he
      rw [step_wr_of_hostDoes hwrite, writeReg, whenIdle_busy hbusy]
    have hdo : EngineDoes (setIgnored (afterStmt s rest)) w := by
      refine ⟨?_, he⟩
      rw [nextTurn, setIgnored_turns, afterStmt, popTurn_turns, ht]; rfl
    obtain ⟨m, e, c, hcommand⟩ := step_completes_of_runs hdo fun j hj =>
      runs_or_fails_hostFields (hends' j hj) s.turns.tail rest true
    exact ⟨_, (run_succ 1 hignored).trans (run_succ 0 hcommand), rfl, rfl, rfl, rfl⟩

/-! ### Reset -/

theorem abortedRegion_of_active {s : State} {i : Instr} (h : activeCommand s = some i) :
    abortedRegion s = { base := dstBase s, len := min (needDst i s) (2 ^ s.build.addrW - dstBase s) } := by
  rw [abortedRegion, h]; rfl

theorem abortedRegion_len_of_inactive {s : State} (h : activeCommand s = none) : (abortedRegion s).len = 0 := by
  rw [abortedRegion, h]

/-- After a reset the bytes of the aborted region are draws, in the order of their addresses, and the others stay (R148). -/
theorem read_resetBlock_mem (s : State) (a : Nat) :
    Memory.read (resetBlock s).mem a =
      if (abortedRegion s).base ≤ a ∧ a < (abortedRegion s).base + (abortedRegion s).len then
        Config.freeByte (s.draws + (a - (abortedRegion s).base))
      else Memory.read s.mem a :=
  read_scramble ..

/-- Settles O51: the aborted region is the destination cut at the end of memory, or empty. -/
theorem resetDuringACommand : Obligations.ResetDuringACommand := by
  intro s t hn h
  obtain ⟨p, o, rfl⟩ := step_of_reset hn h
  have habort : abortedRegion (popTurn s) = abortedRegion s := rfl
  have hread := read_resetBlock_mem (popTurn s)
  rw [habort] at hread
  have hdraws : (resetBlock (popTurn s)).draws = s.draws + (abortedRegion s).len := rfl
  refine ⟨fun w i he hd => ?_, fun hidle a => ?_⟩
  · rw [abortedRegion_of_active (activeCommand_eq_some.2 ⟨w, he, hd⟩)] at hread hdraws
    dsimp only [popTurn_mem, popTurn_draws] at hread hdraws ⊢
    refine ⟨fun a ha => ?_, fun k hk hend => ⟨?_, ?_⟩⟩
    · rw [hread, if_neg (by omega)]
    · rw [hread, if_pos (by omega), Nat.add_sub_cancel_left]
    · rw [hdraws]; omega
  · have hnone : activeCommand s = none := by
      rcases hidle with he | ⟨w, r, he, hd⟩
      · rw [activeCommand, he]
      · simp only [activeCommand, he, hd]
    dsimp only
    rw [hread, abortedRegion_len_of_inactive hnone, if_neg (by omega), popTurn_mem]

/-! ### The statement that a reset drops (log 19) -/

/-- Every field of the word 0 is 0. -/
theorem fieldOf_zero (f : Field) : fieldOf f 0 = 0 := by
  rw [fieldOf_eq]; simp

theorem dropAccess_wr {s : State} {a : RegAccess} {v : Word} {rest : List HostStmt} (h : s.program = .wr a v :: rest) :
    dropAccess s = { s with program := rest } := by
  simp only [dropAccess, h]

theorem dropAccess_rd {s : State} {a : RegAccess} {r : Reg} {rest : List HostStmt} (ha : decodeAccess a = some r)
    (h : s.program = .rd a :: rest) :
    dropAccess s = { s with program := rest, observed := .reg r 0 :: s.observed } := by
  simp only [dropAccess, h, ha, observe]

/-- A POLL reads 0, so it goes on exactly where it waits for 0. -/
theorem dropAccess_poll {s : State} {a : RegAccess} {r : Reg} {f : Field} {v : Nat} {rest : List HostStmt}
    (ha : decodeAccess a = some r) (h : s.program = .poll a f v :: rest) :
    dropAccess s =
      { s with program := if v = 0 then rest else s.program, observed := .reg r 0 :: s.observed } := by
  simp only [dropAccess, h, ha, observe, fieldOf_zero, eq_comm (a := v)]
  split <;> simp [h]

theorem dropAccess_unaligned {s : State} {a : RegAccess} {rest : List HostStmt} (ha : decodeAccess a = none)
    (h : (∃ v, s.program = .wr a v :: rest) ∨ s.program = .rd a :: rest ∨ ∃ f v, s.program = .poll a f v :: rest) :
    dropAccess s = { s with program := rest } := by
  rcases h with ⟨v, h⟩ | h | ⟨f, v, h⟩
  · exact dropAccess_wr h
  · simp only [dropAccess, h, ha]
  · simp only [dropAccess, h, ha]

/-- A memory statement waits. -/
theorem dropAccess_waits {s : State} {rest : List HostStmt}
    (h : s.program = [] ∨ (∃ a bytes, s.program = .memw a bytes :: rest) ∨ ∃ a n, s.program = .memr a n :: rest) :
    dropAccess s = s := by
  rcases h with h | ⟨a, bytes, h⟩ | ⟨a, n, h⟩ <;> simp only [dropAccess, h]

/-- The step of a reset with a host access is the reset and then the drop. -/
theorem step_of_dropAccess {s t : State} (hn : nextTurn s = .resetDuringAccess)
    (h : dropAccess (resetBlock (popTurn s)) = t) : step s = .next t := by
  rw [step, hn, takeTurn, h]

/-- Settles O52: by the form of the statement, which the reset leaves in the host's program. -/
theorem accessDuringResetIsIgnored : Obligations.AccessDuringResetIsIgnored := by
  intro s rest hn
  refine ⟨fun a r ha => ⟨fun v h => ?_, fun h => ?_, fun f v h => ?_⟩, fun a ha h => ?_, fun h => ?_⟩
  · exact step_of_dropAccess hn (dropAccess_wr h)
  · exact step_of_dropAccess hn (dropAccess_rd ha h)
  · exact step_of_dropAccess hn (dropAccess_poll ha h)
  · exact step_of_dropAccess hn (dropAccess_unaligned ha h)
  · exact step_of_dropAccess hn (dropAccess_waits h)

end Sys2Proof.Machine
end
